-- ==== Sys2Proof/Word.lean ====
section
/-! DEFINITION. The word and byte types (00_scope.md R15: register values are 32 bits, unsigned). -/

namespace Sys2Proof

/-- A register value: 32 bits (R15). -/
abbrev Word := BitVec 32

/-- One byte of data memory (R52). -/
abbrev Byte := BitVec 8

end Sys2Proof
end

