-- ==== Sys2Proof/Config.lean ====
section
/-! DEFINITION. What is fixed for one machine: the parameters of 00_scope.md R14, LAYOUT among them,
and the free value a register read answers (R9). The default values stand in Machine/Layout.lean. -/

namespace Sys2Proof

/-- A field of a register: its lowest bit and its width (R16). -/
structure Field where
  lo : Nat
  width : Nat
deriving DecidableEq, Repr

/-- Byte offsets of the seventeen registers from REG_BASE (10_state.md R25). -/
structure Offsets where
  CON : Nat
  PRE : Nat
  CARG : Nat
  CCON : Nat
  CSTA : Nat
  RSP0 : Nat
  RSP1 : Nat
  RSP2 : Nat
  RSP3 : Nat
  DTIMER : Nat
  BSIZE : Nat
  DCON : Nat
  DCNT : Nat
  DSTA : Nat
  FSTA : Nat
  IMSK : Nat
  DAT : Nat
deriving DecidableEq, Repr

/-- Fields of CON (R26). -/
structure ConFields where
  SDRESET : Field
  CTYP : Field
  BYTEORDER : Field
  RCVIOINT : Field
  RWAITEN : Field
  ENCLK : Field
deriving DecidableEq, Repr

/-- Fields of CCON (R29). INDEX is 6 bits wide under every layout (R11, 90_conflicts.md C7); only its place is
the layout's. -/
structure CconFields where
  ABORT : Field
  WITHDATA : Field
  LONGRSP : Field
  WAITRSP : Field
  START : Field
  STARTBIT : Field
  HOST : Field
  /-- the lowest bit of INDEX -/
  indexLo : Fin 27
deriving DecidableEq, Repr

/-- Fields of CSTA (R30). -/
structure CstaFields where
  CRCFAIL : Field
  SENT : Field
  TOUT : Field
  RSPFIN : Field
  ON : Field
  RSPINDEX : Field
deriving DecidableEq, Repr

/-- Fields of DCON (R34). BLKNUM is 12 bits wide under every layout (R11, 90_conflicts.md C7). -/
structure DconFields where
  BURST4 : Field
  DSIZE : Field
  PRD : Field
  TARSP : Field
  RACMD : Field
  BACMD : Field
  BLKMODE : Field
  WIDE : Field
  DMA : Field
  START : Field
  DATMODE : Field
  /-- the lowest bit of BLKNUM -/
  blknumLo : Fin 21
deriving DecidableEq, Repr

/-- Fields of DCNT (R35: the engine uses none of them). -/
structure DcntFields where
  BLOCKS : Field
  BYTES : Field
deriving DecidableEq, Repr

/-- Fields of DSTA (R36). -/
structure DstaFields where
  RWAITREQ : Field
  IOINTDET : Field
  TXCRCFAIL : Field
  RXCRCFAIL : Field
  DTOUT : Field
  DATFIN : Field
  BUSYFIN : Field
  TXON : Field
  RXON : Field
deriving DecidableEq, Repr

/-- Fields of FSTA (R37). -/
structure FstaFields where
  FRST : Field
  FFFAIL : Field
  TFDET : Field
  RFDET : Field
  TFHALF : Field
  TFEMPTY : Field
  RFLAST : Field
  RFFULL : Field
  RFHALF : Field
  FFCNT : Field
deriving DecidableEq, Repr

/-- The parameter LAYOUT: register offsets and the bit positions of every field (R14, R16). The widths R11 fixes
are no part of it (90_conflicts.md C7): INDEX 6, BLKNUM 12 and DIV 8 bits, and CARG is the 32-bit argument
whole (R28). -/
structure Layout where
  off : Offsets
  con : ConFields
  /-- the lowest bit of PRE.DIV (R27) -/
  preDIVLo : Fin 25
  ccon : CconFields
  csta : CstaFields
  /-- DTIMER.VALUE (R32) -/
  dtimerVALUE : Field
  /-- BSIZE.SIZE (R33) -/
  bsizeSIZE : Field
  dcon : DconFields
  dcnt : DcntFields
  dsta : DstaFields
  fsta : FstaFields
deriving DecidableEq, Repr

/-- The parameter BUF_ENDIAN (R14, 20_memory.md R53). -/
inductive Endian where
  | little
  | big
deriving DecidableEq, Repr

/-- The parameters the model takes as arguments (R14). They do not change during a run
(70_reset_and_hazards.md R203). -/
structure Config where
  /-- REG_BASE, the byte address of the register block (92 D3). -/
  regBase : BitVec 32
  layout : Layout
  /-- F_REF in Hz (92 D4). -/
  fRef : Nat
  /-- CMD_POLL_MAX (R13). -/
  cmdPollMax : Nat
  /-- DATA_POLL_MAX (R13). -/
  dataPollMax : Nat
  /-- ARM_RETRY_MAX (R13). -/
  armRetryMax : Nat
  /-- CMD_POLL_DELAY; no rule depends on it (R12). -/
  cmdPollDelay : Nat
  /-- DRAIN_PAUSE; no rule depends on it (R12). -/
  drainPause : Nat
  /-- SETTLE_DELAY; no rule depends on it (R12). -/
  settleDelay : Nat
  /-- DATA_TIMEOUT_VALUE, written to DTIMER (92 D7). -/
  dataTimeout : Word
  /-- CMDSTA_CLEAR (92 D18). -/
  cmdstaClear : Word
  /-- DSTA_CLEAR (92 D18). -/
  dstaClear : Word
  /-- FSTA_CLEAR (92 D18). -/
  fstaClear : Word
  /-- DCON_STOP_VALUE (92 D21). -/
  dconStopValue : Word
  /-- BUF_ENDIAN (92 D10). -/
  bufEndian : Endian
deriving DecidableEq, Repr

/-- FREE VALUE (log 4): what the environment answers to the n-th register read of a run when the claim
supplies no value for it. R9: "The draw is unconstrained: any value of 32 bits may be returned". -/
opaque Config.freeRead (n : Nat) : Word

end Sys2Proof
end

