-- ==== Sys2Proof/Syntax.lean ====
section
/-! DEFINITION. The operations and control words of the opcode table, their operands, and the requests
that carry them (30_encoding.md). -/

namespace Sys2Proof

/-- A Command Descriptor (10_state.md R43). The number fields are naturals, so that a descriptor out of
range can be written and refused (R80, log 6). -/
structure CommandDesc where
  index : Nat
  arg : Nat
  /-- a response is expected -/
  present : Bool
  /-- the response is 136 bits -/
  long : Bool
  /-- the response CRC is checked -/
  crc : Bool
deriving DecidableEq, Repr

/-- The names of the five well-formed response shapes (R79). -/
inductive Shape where
  | NONE
  | R
  | RC
  | L
  | LC
deriving DecidableEq, Repr

/-- The direction of a block transfer (R45). -/
inductive Dir where
  | read
  | write
deriving DecidableEq, Repr

/-- A Data Descriptor (R45), its number fields naturals (R81, log 6). -/
structure DataDesc where
  dir : Dir
  blockCount : Nat
  blockSize : Nat
  /-- byte address of the destination buffer -/
  buf : Nat
  bufCapacity : Nat
  width : Nat
deriving DecidableEq, Repr

/-- One constructor per row of the opcode table (R83). -/
inductive Instr where
  /-- INITIALIZE, OP 0 (R168) -/
  | initEngine
  /-- RESET, OP 1 (R170) -/
  | resetEngine
  /-- SET_CLOCK, OP 2 (R102) -/
  | setClock (f : Nat)
  /-- EXECUTE, OP 3 (R160) -/
  | execute (cmd : CommandDesc) (data : Option DataDesc)
  /-- CALC_DIVIDER, OP 4 (R100) -/
  | calcDivider (fRef f : Nat)
  /-- SEND_COMMAND, OP 5 (R110) -/
  | sendCommand (cmd : CommandDesc)
  /-- ARM_TRANSFER, OP 6 (R130) -/
  | armTransfer (data : DataDesc)
  /-- WAIT_AND_DRAIN, OP 7 (R140) -/
  | waitAndDrain (data : DataDesc)
  /-- CLEAR_ALL_STATUS, OP 8 (R166) -/
  | clearAllStatus
  /-- CONTROLLER_RESET, OP 9 (R171) -/
  | controllerReset
  /-- ISSUE_STOP, OP 10 (R172) -/
  | issueStop
  /-- CCON_NORESP (R73) -/
  | cconNoresp (index : BitVec 6)
  /-- CCON_SHORT (R73) -/
  | cconShort (index : BitVec 6)
  /-- CCON_LONG (R73) -/
  | cconLong (index : BitVec 6)
  /-- DCON_READ (R75) -/
  | dconRead (wide : Bool) (blknum : BitVec 12)
  /-- DCON_STOP (R76) -/
  | dconStop
deriving DecidableEq, Repr

/-- The operands that stand beside a HOSTREQ word (R71: "The operands are not bits of the word").
An operation uses the ones its row names and no others (log 6). -/
structure Operands where
  fRef : Nat
  f : Nat
  cmd : CommandDesc
  /-- an EXECUTE carries a data descriptor -/
  hasData : Bool
  data : DataDesc
deriving DecidableEq, Repr

/-- The two registers that take a control word of the table (R73, R75, R76). -/
inductive ControlReg where
  | CCON
  | DCON
deriving DecidableEq, Repr

/-- What can be decoded: a HOSTREQ word from the host, a HOSTREQ word of an internal operation that a
stage of the engine calls, and a control word on its way to a register (log 7, log 8). -/
inductive Request where
  | host (word : Word) (ops : Operands)
  | internal (word : Word) (ops : Operands)
  | control (reg : ControlReg) (word : Word)
deriving DecidableEq, Repr

end Sys2Proof
end

