-- ==== Sys2Proof/Machine/Layout.lean ====
section
/-! DEFINITION. Field access (00_scope.md R16), the default LAYOUT (10_state.md R25 to R37), the default
parameters (R14), the registers' addresses, and which configurations are refused (60_exceptions.md R185). -/

namespace Sys2Proof

/-- `zext_32(x)` (R15). -/
def zext32 (x : Nat) : Word := BitVec.ofNat 32 x

/-- `mask(REG.F)`: ones exactly at the field's bits (R16). -/
def Field.mask (f : Field) : Word := BitVec.ofNat 32 ((2 ^ f.width - 1) * 2 ^ f.lo)

/-- `get(v, REG.F)`: the field as an unsigned integer (R16). -/
def Field.get (f : Field) (v : Word) : Nat := v.toNat / 2 ^ f.lo % 2 ^ f.width

/-- `put(v, REG.F, x)`: v with the field replaced by x (R16). The model's choice (log 30): of an x too wide for the
field, the low bits that fit are kept. -/
def Field.put (f : Field) (v : Word) (x : Nat) : Word :=
  (v &&& ~~~f.mask) ||| (BitVec.ofNat 32 (x * 2 ^ f.lo) &&& f.mask)

/-- A one-bit field is true when it is 1 (R16). -/
def Field.isSet (f : Field) (v : Word) : Bool := f.get v == 1

/-- CCON.INDEX: 6 bits (R11). -/
abbrev CconFields.INDEX (f : CconFields) : Field := ⟨f.indexLo, 6⟩

/-- DCON.BLKNUM: 12 bits (R11). -/
abbrev DconFields.BLKNUM (f : DconFields) : Field := ⟨f.blknumLo, 12⟩

/-- PRE.DIV: 8 bits (R11). -/
abbrev Layout.preDIV (l : Layout) : Field := ⟨l.preDIVLo, 8⟩

/-- CARG.ARG: all 32 bits (R11, R28). -/
abbrev Layout.cargARG (_ : Layout) : Field := ⟨0, 32⟩

/-- The default LAYOUT, the S3C2440A SDI block (R25 to R37; PRESUMED, log 11). -/
def Layout.s3c2440 : Layout where
  off := {
    CON := 0x00, PRE := 0x04, CARG := 0x08, CCON := 0x0C, CSTA := 0x10
    RSP0 := 0x14, RSP1 := 0x18, RSP2 := 0x1C, RSP3 := 0x20
    DTIMER := 0x24, BSIZE := 0x28, DCON := 0x2C, DCNT := 0x30
    DSTA := 0x34, FSTA := 0x38, IMSK := 0x3C, DAT := 0x40 }
  con := {
    SDRESET := ⟨8, 1⟩, CTYP := ⟨5, 1⟩, BYTEORDER := ⟨4, 1⟩
    RCVIOINT := ⟨3, 1⟩, RWAITEN := ⟨2, 1⟩, ENCLK := ⟨0, 1⟩ }
  preDIVLo := 0
  ccon := {
    ABORT := ⟨12, 1⟩, WITHDATA := ⟨11, 1⟩, LONGRSP := ⟨10, 1⟩, WAITRSP := ⟨9, 1⟩
    START := ⟨8, 1⟩, STARTBIT := ⟨7, 1⟩, HOST := ⟨6, 1⟩, indexLo := 0 }
  csta := {
    CRCFAIL := ⟨12, 1⟩, SENT := ⟨11, 1⟩, TOUT := ⟨10, 1⟩, RSPFIN := ⟨9, 1⟩
    ON := ⟨8, 1⟩, RSPINDEX := ⟨0, 8⟩ }
  dtimerVALUE := ⟨0, 23⟩
  bsizeSIZE := ⟨0, 12⟩
  dcon := {
    BURST4 := ⟨24, 1⟩, DSIZE := ⟨22, 2⟩, PRD := ⟨21, 1⟩, TARSP := ⟨20, 1⟩
    RACMD := ⟨19, 1⟩, BACMD := ⟨18, 1⟩, BLKMODE := ⟨17, 1⟩, WIDE := ⟨16, 1⟩
    DMA := ⟨15, 1⟩, START := ⟨14, 1⟩, DATMODE := ⟨12, 2⟩, blknumLo := 0 }
  dcnt := { BLOCKS := ⟨12, 12⟩, BYTES := ⟨0, 12⟩ }
  dsta := {
    RWAITREQ := ⟨10, 1⟩, IOINTDET := ⟨9, 1⟩, TXCRCFAIL := ⟨7, 1⟩, RXCRCFAIL := ⟨6, 1⟩
    DTOUT := ⟨5, 1⟩, DATFIN := ⟨4, 1⟩, BUSYFIN := ⟨3, 1⟩, TXON := ⟨1, 1⟩, RXON := ⟨0, 1⟩ }
  fsta := {
    FRST := ⟨16, 1⟩, FFFAIL := ⟨14, 2⟩, TFDET := ⟨13, 1⟩, RFDET := ⟨12, 1⟩
    TFHALF := ⟨11, 1⟩, TFEMPTY := ⟨10, 1⟩, RFLAST := ⟨9, 1⟩, RFFULL := ⟨8, 1⟩
    RFHALF := ⟨7, 1⟩, FFCNT := ⟨0, 7⟩ }

/-- The configuration at reset: R14's defaults; the OPEN values are the test programs' (95 L3), DESIGN
CHOICE, and REG_BASE is the family's, PRESUMED (log 10). No rule rests on them. -/
def Config.board : Config where
  regBase := 0x5A000000#32
  layout := Layout.s3c2440
  fRef := 50000000
  cmdPollMax := 4
  dataPollMax := 16
  armRetryMax := 3
  cmdPollDelay := 1
  drainPause := 1
  settleDelay := 1
  dataTimeout := 0x00010000#32
  cmdstaClear := 0x00001E00#32
  dstaClear := 0x000007FC#32
  fstaClear := 0x0000C000#32
  dconStopValue := 0x00004000#32
  bufEndian := .little

/-- DATA_TIMEOUT_VALUE is within its range: it fits DTIMER.VALUE, which is 0 to 2^23 - 1 under the default
layout (R14, R32, R82). -/
def Config.timeoutInRange (c : Config) : Bool :=
  decide (c.dataTimeout.toNat < 2 ^ c.layout.dtimerVALUE.width)

/-- The configurations that are not refused as BadConfig: REG_BASE a multiple of 4, F_REF > 0 and the three
bounds at least 1 (R185), and DATA_TIMEOUT_VALUE within its range (R14; that a value outside it is refused is
log 22). -/
def Config.legal (c : Config) : Bool :=
  c.regBase.toNat % 4 == 0 && decide (0 < c.fRef) && decide (0 < c.cmdPollMax)
    && decide (0 < c.dataPollMax) && decide (0 < c.armRetryMax) && c.timeoutInRange

end Sys2Proof
end

