-- ==== Sys2Proof/Machine/Operands.lean ====
section
/-! DEFINITION. The operand forms: shape codes (30_encoding.md R79), the two descriptor checks (R80, R81),
and the words assembled from operands (R72, R75, R77, R82). -/

namespace Sys2Proof

/-- The shape code `{crc, long, present}`, crc in bit 2 (R79). -/
def CommandDesc.shapeCode (c : CommandDesc) : BitVec 3 :=
  BitVec.ofBool c.crc ++ BitVec.ofBool c.long ++ BitVec.ofBool c.present

/-- The code of a shape's name (R79). -/
def Shape.code : Shape → BitVec 3
  | .NONE => 0b000#3
  | .R => 0b001#3
  | .RC => 0b101#3
  | .L => 0b011#3
  | .LC => 0b111#3

/-- The name of a shape code; 0b010, 0b100 and 0b110 are ill-formed (R79, R84). -/
def Shape.ofCode (b : BitVec 3) : Option Shape :=
  if b = 0b000#3 then some .NONE
  else if b = 0b001#3 then some .R
  else if b = 0b101#3 then some .RC
  else if b = 0b011#3 then some .L
  else if b = 0b111#3 then some .LC
  else none

/-- The command descriptor whose shape is the code `b` (R79). -/
def CommandDesc.ofCode (index arg : Nat) (b : BitVec 3) : CommandDesc :=
  { index := index, arg := arg, present := b.getLsbD 0, long := b.getLsbD 1, crc := b.getLsbD 2 }

/-- R80: index 0 to 63, arg 0 to 2^32-1, long implies present, crc implies present. -/
def CommandDesc.wellFormed (c : CommandDesc) : Bool :=
  decide (c.index ≤ 63) && decide (c.arg < 2 ^ 32) && (!c.long || c.present) && (!c.crc || c.present)

/-- The response length in words that the shape selects (R87). -/
def CommandDesc.respWords (c : CommandDesc) : Nat :=
  if c.present then (if c.long then 4 else 1) else 0

/-- The buffer range [buf, buf + cap - 1] meets the register block [REG_BASE, REG_BASE + 0x43] (R59). -/
def DataDesc.meetsRegisters (c : Config) (d : DataDesc) : Bool :=
  decide (d.buf ≤ c.regBase.toNat + 0x43) && decide (c.regBase.toNat < d.buf + d.bufCapacity)

/-- R81 (b), all of it but the direction. -/
def DataDesc.readable (c : Config) (d : DataDesc) : Bool :=
  decide (1 ≤ d.blockCount) && decide (d.blockCount ≤ 4095)
    && d.blockSize % 4 == 0 && decide (4 ≤ d.blockSize) && decide (d.blockSize ≤ 4092)
    && (d.width == 1 || d.width == 4)
    && d.buf % 4 == 0
    && decide (d.blockCount * d.blockSize ≤ d.bufCapacity)
    && decide (d.buf + d.bufCapacity ≤ 2 ^ 32)
    && !d.meetsRegisters c

/-- R81: a write descriptor is accepted as it stands; a read descriptor when R81 (b) holds. -/
def DataDesc.accepted (c : Config) (d : DataDesc) : Bool :=
  match d.dir with
  | .write => true
  | .read => d.readable c

/-- EXECUTE's second check: an absent data descriptor passes (43_orchestrator.md R160 L1). -/
def dataAccepted (c : Config) : Option DataDesc → Bool
  | none => true
  | some d => d.accepted c

/-- The CCON word of an index and a shape (R72). -/
def cconWord (l : Layout) (index : Nat) (present long : Bool) : Word :=
  let v := l.ccon.INDEX.put 0#32 index
  let v := l.ccon.HOST.put v 1
  let v := l.ccon.START.put v 1
  if present then
    let v := l.ccon.WAITRSP.put v 1
    if long then l.ccon.LONGRSP.put v 1 else v
  else v

/-- `ccon(desc)` (R72). -/
def CommandDesc.ccon (l : Layout) (d : CommandDesc) : Word := cconWord l d.index d.present d.long

/-- `carg = desc.arg` (R74). -/
def CommandDesc.carg (d : CommandDesc) : Word := zext32 d.arg

/-- The DCON read form of a block count and a bus width (R75). -/
def dconReadWord (l : Layout) (blockCount : Nat) (wide : Bool) : Word :=
  let v := l.dcon.BLKNUM.put 0#32 blockCount
  let v := l.dcon.DATMODE.put v 2
  let v := l.dcon.START.put v 1
  let v := l.dcon.WIDE.put v (if wide then 1 else 0)
  let v := l.dcon.BLKMODE.put v 1
  let v := l.dcon.RACMD.put v 1
  l.dcon.DSIZE.put v 2

/-- `dcon(desc)` (R75). -/
def DataDesc.dcon (l : Layout) (d : DataDesc) : Word := dconReadWord l d.blockCount (d.width == 4)

end Sys2Proof
end

