-- ==== Sys2Proof/WellFormed.lean ====
section
/-! DEFINITION. Which instructions are well formed under a configuration: each operand as its operation's
own contract states it (30_encoding.md R71, R80, R81; the Operands line of each operation). -/

namespace Sys2Proof

/-- The operand of a host operation is what a request can carry (EXECUTE checks its descriptors itself,
43_orchestrator.md R160 L1); the operand of an internal operation is what its contract asks for. -/
def Instr.wellFormed (c : Config) : Instr → Bool
  | .initEngine => true
  | .resetEngine => true
  | .setClock f => decide (f < 2 ^ 32)
  | .execute _ _ => true
  | .calcDivider fRef _ => decide (0 < fRef)
  | .sendCommand cmd => cmd.wellFormed
  | .armTransfer d => d.accepted c
  | .waitAndDrain d => d.dir == .read && d.readable c
  | .clearAllStatus => true
  | .controllerReset => true
  | .issueStop => true
  | .cconNoresp _ => true
  | .cconShort _ => true
  | .cconLong _ => true
  | .dconRead _ _ => true
  | .dconStop => true

end Sys2Proof
end

