-- ==== Sys2Proof/Decode.lean ====
section
/-! DEFINITION. The decoder and the encoder of requests (30_encoding.md R71 to R76, R83, R84), and the opcode
table's match and mask rows. -/

namespace Sys2Proof

/-- Why a word is no instruction. -/
inductive DecodeError where
  /-- a bit of HOSTREQ [31:4] is set (R71) -/
  | reservedBits
  /-- OP 11 to 15 (R71) -/
  | reservedOp
  /-- OP 4 to 10 from the host (R84) -/
  | internalOp
  /-- OP 0 to 3 as a call of one stage by another (log 7) -/
  | hostOp
  /-- SET_CLOCK with f >= 2^32 (R84) -/
  | frequencyRange
  /-- a CCON word of none of the three forms (R73, R85) -/
  | notCcon
  /-- a DCON word of neither form (R75, R76, R85) -/
  | notDcon
deriving DecidableEq, Repr

/-- The operation codes of R71. -/
def decodeOp (op : Nat) (o : Operands) : Except DecodeError Instr :=
  match op with
  | 0 => .ok .initEngine
  | 1 => .ok .resetEngine
  | 2 => if o.f < 2 ^ 32 then .ok (.setClock o.f) else .error .frequencyRange
  | 3 => .ok (.execute o.cmd (if o.hasData then some o.data else none))
  | 4 => .ok (.calcDivider o.fRef o.f)
  | 5 => .ok (.sendCommand o.cmd)
  | 6 => .ok (.armTransfer o.data)
  | 7 => .ok (.waitAndDrain o.data)
  | 8 => .ok .clearAllStatus
  | 9 => .ok .controllerReset
  | 10 => .ok .issueStop
  | _ => .error .reservedOp

/-- A HOSTREQ word: bits [31:4] zero, OP in [3:0] (R71, R83). -/
def decodeHostreq (w : Word) (o : Operands) : Except DecodeError Instr :=
  if w &&& 0xFFFFFFF0#32 = 0#32 then decodeOp (w &&& 0xF#32).toNat o else .error .reservedBits

/-- A CCON word, by bits [31:6] (R73). -/
def decodeCcon (w : Word) : Except DecodeError Instr :=
  if w &&& 0xFFFFFFC0#32 = 0x140#32 then .ok (.cconNoresp (w.extractLsb' 0 6))
  else if w &&& 0xFFFFFFC0#32 = 0x340#32 then .ok (.cconShort (w.extractLsb' 0 6))
  else if w &&& 0xFFFFFFC0#32 = 0x740#32 then .ok (.cconLong (w.extractLsb' 0 6))
  else .error .notCcon

/-- A DCON word: the read form or the stop value (R75, R76). -/
def decodeDcon (w : Word) : Except DecodeError Instr :=
  if w &&& 0xFFFEF000#32 = 0x008A6000#32 then .ok (.dconRead (w.getLsbD 16) (w.extractLsb' 0 12))
  else if w = 0x4000#32 then .ok .dconStop
  else .error .notDcon

/-- The instruction a request stands for. The host may call OP 0 to 3 only (R71); a stage of the engine
calls OP 4 to 10 only. -/
def decode : Request → Except DecodeError Instr
  | .host w o =>
    if w &&& 0xFFFFFFF0#32 = 0#32 ∧ 4 ≤ w.toNat ∧ w.toNat ≤ 10 then .error .internalOp
    else decodeHostreq w o
  | .internal w o => if w.toNat < 4 then .error .hostOp else decodeHostreq w o
  | .control .CCON w => decodeCcon w
  | .control .DCON w => decodeDcon w

/-- Operands that are all zero: no frequency, CMD0 with no response, no data descriptor, and beside it a
descriptor of zero fields in the write direction (log 6). -/
def Operands.blank : Operands where
  fRef := 0
  f := 0
  cmd := { index := 0, arg := 0, present := false, long := false, crc := false }
  hasData := false
  data := { dir := .write, blockCount := 0, blockSize := 0, buf := 0, bufCapacity := 0, width := 0 }

/-- The request of an instruction: the HOSTREQ word of R71 with its operands beside it, or the control
word of R73, R75, R76. -/
def encode : Instr → Request
  | .initEngine => .host 0#32 Operands.blank
  | .resetEngine => .host 1#32 Operands.blank
  | .setClock f => .host 2#32 { Operands.blank with f := f }
  | .execute cmd none => .host 3#32 { Operands.blank with cmd := cmd }
  | .execute cmd (some d) => .host 3#32 { Operands.blank with cmd := cmd, hasData := true, data := d }
  | .calcDivider fRef f => .internal 4#32 { Operands.blank with fRef := fRef, f := f }
  | .sendCommand cmd => .internal 5#32 { Operands.blank with cmd := cmd }
  | .armTransfer d => .internal 6#32 { Operands.blank with data := d }
  | .waitAndDrain d => .internal 7#32 { Operands.blank with data := d }
  | .clearAllStatus => .internal 8#32 Operands.blank
  | .controllerReset => .internal 9#32 Operands.blank
  | .issueStop => .internal 10#32 Operands.blank
  | .cconNoresp index => .control .CCON (0x140#32 ||| index.setWidth 32)
  | .cconShort index => .control .CCON (0x340#32 ||| index.setWidth 32)
  | .cconLong index => .control .CCON (0x740#32 ||| index.setWidth 32)
  | .dconRead wide blknum =>
    .control .DCON (0x008A6000#32 ||| (if wide then 0x00010000#32 else 0#32) ||| blknum.setWidth 32)
  | .dconStop => .control .DCON 0x4000#32

/-- The word of a request. -/
def Request.word : Request → Word
  | .host w _ => w
  | .internal w _ => w
  | .control _ w => w

/-- The match and mask columns of the opcode table, one row per constructor. -/
def Instr.tableMatch : Instr → Word
  | .initEngine => 0x00000000#32
  | .resetEngine => 0x00000001#32
  | .setClock _ => 0x00000002#32
  | .execute _ _ => 0x00000003#32
  | .calcDivider _ _ => 0x00000004#32
  | .sendCommand _ => 0x00000005#32
  | .armTransfer _ => 0x00000006#32
  | .waitAndDrain _ => 0x00000007#32
  | .clearAllStatus => 0x00000008#32
  | .controllerReset => 0x00000009#32
  | .issueStop => 0x0000000A#32
  | .cconNoresp _ => 0x00000140#32
  | .cconShort _ => 0x00000340#32
  | .cconLong _ => 0x00000740#32
  | .dconRead _ _ => 0x008A6000#32
  | .dconStop => 0x00004000#32

/-- The mask column (0 bits are the row's variable fields). -/
def Instr.tableMask : Instr → Word
  | .initEngine => 0xFFFFFFFF#32
  | .resetEngine => 0xFFFFFFFF#32
  | .setClock _ => 0xFFFFFFFF#32
  | .execute _ _ => 0xFFFFFFFF#32
  | .calcDivider _ _ => 0xFFFFFFFF#32
  | .sendCommand _ => 0xFFFFFFFF#32
  | .armTransfer _ => 0xFFFFFFFF#32
  | .waitAndDrain _ => 0xFFFFFFFF#32
  | .clearAllStatus => 0xFFFFFFFF#32
  | .controllerReset => 0xFFFFFFFF#32
  | .issueStop => 0xFFFFFFFF#32
  | .cconNoresp _ => 0xFFFFFFC0#32
  | .cconShort _ => 0xFFFFFFC0#32
  | .cconLong _ => 0xFFFFFFC0#32
  | .dconRead _ _ => 0xFFFEF000#32
  | .dconStop => 0xFFFFFFFF#32

/-- The request that a bare word of the opcode table stands for, its operands all zero: OP 0 to 3 as the
host's call, OP 4 to 10 as an internal call, a control word on its way to its register, and every other
word as a call of the host (which is then refused). -/
def tableRequest (nbits w : Nat) : Request :=
  let x := BitVec.ofNat 32 (w % 2 ^ nbits)
  if x.toNat < 4 then .host x Operands.blank
  else if x.toNat ≤ 10 then .internal x Operands.blank
  else match decodeCcon x with
    | .ok _ => .control .CCON x
    | .error _ => match decodeDcon x with
      | .ok _ => .control .DCON x
      | .error _ => .host x Operands.blank

/-- The instruction the decoder reads from a word of the opcode table (numbered as the table numbers its
bits; the operands are not bits of the word and are all zero, log 6). -/
def decodeTableWord (nbits w : Nat) : Option Instr :=
  match decode (tableRequest nbits w) with
  | .ok i => some i
  | .error _ => none

end Sys2Proof
end

