-- ==== Sys2Proof/Machine/State.lean ====
section
/-! DEFINITION. The state of the machine (10_state.md R20, R51), its records, the events of the trace
(00_scope.md R18), the faults and refusals (60_exceptions.md R185, R186), and the state at power-on. -/

namespace Sys2Proof.Machine

/-- The model's faults (R186). A meaning records the fault in the state it answers. A step from a state that
records one answers it, so a faulted state never goes on. -/
inductive Fault where
  /-- WAIT_AND_DRAIN's burst, a drained word of index i past the buffer's capacity (R146). Safe: the hardware
  would go on and store outside the buffer. -/
  | bufferOverrun (i : Nat)
  /-- A reader of the response slot, when it is unpopulated or the index is beyond its length (R42). Safe. -/
  | readUnpopulatedResponse
deriving DecidableEq, Repr

/-- The spec's refusals (R185): the call ends with no further event and the state keeps a mark. All are safe:
the hardware would carry out the call somehow. -/
inductive RefuseReason where
  /-- HOSTREQ decode (30_encoding.md R71, R84). Safe. -/
  | badRequest
  /-- a configuration R185 refuses, or a DATA_TIMEOUT_VALUE out of range (log 22), at every request (log 28).
  Safe. -/
  | badConfig
  /-- EXECUTE L1, or an internal call whose command descriptor is outside R80. Safe. -/
  | illFormedCommand
  /-- EXECUTE L1, or an internal call whose data descriptor is outside R81. Safe. -/
  | illFormedData
  /-- RESET, SET_CLOCK, EXECUTE before INITIALIZE (R194). Safe. -/
  | notInitialized
  /-- INITIALIZE a second time (43_orchestrator.md R168). Safe. -/
  | alreadyInitialized
  /-- a call while another is in progress (R193), or a control word from outside it (20_memory.md R65, log 27).
  Safe. -/
  | reentrant
deriving DecidableEq, Repr

/-- What a step gives no meaning at all. -/
inductive Refusal where
  /-- An arm of exec that has no meaning yet. Safe. -/
  | notModelled (mnemonic : String)
  /-- A control word that is no form of the table, or an internal call of no internal operation: the engine
  never makes one, and "No rule gives meaning to them" (30_encoding.md R85, log 9). Safe. -/
  | neverIssued
deriving DecidableEq, Repr

/-- The seventeen registers of the block (R25). -/
inductive Reg where
  | CON
  | PRE
  | CARG
  | CCON
  | CSTA
  | RSP0
  | RSP1
  | RSP2
  | RSP3
  | DTIMER
  | BSIZE
  | DCON
  | DCNT
  | DSTA
  | FSTA
  | IMSK
  | DAT
deriving DecidableEq, Repr

/-- The three delays, by the name of their parameter (00_scope.md R12). -/
inductive DelayKind where
  | cmdPollDelay
  | drainPause
  | settleDelay
deriving DecidableEq, Repr

/-- The events of the trace (R18). -/
inductive Event where
  /-- `R(REG) = v` -/
  | read (r : Reg) (v : Word)
  /-- `W(REG, v)` -/
  | write (r : Reg) (v : Word)
  /-- `S(i, w)` -/
  | store (i : Nat) (w : Word)
  /-- `D(k)` -/
  | delay (k : DelayKind)
  /-- `X(BringUp)` -/
  | bringUp
deriving DecidableEq, Repr

/-- The outcome kinds (60_exceptions.md R180). -/
inductive OutcomeKind where
  | success
  | timeout
  | commError
  | unsupported
deriving DecidableEq, Repr

/-- A Command Outcome: the response words are present only on Success (R44). -/
inductive CommandOutcome where
  | success (resp : List Word)
  | timeout
  | commError
deriving DecidableEq, Repr

/-- A Transaction Outcome (R48): `cmd` none is "not run", `data` none is "absent". -/
structure TransactionOutcome where
  final : OutcomeKind
  cmd : Option CommandOutcome
  data : Option OutcomeKind
deriving DecidableEq, Repr

/-- The Clock State (R47): none is "none", and for `enabled` it is "unknown". -/
structure ClockState where
  requested : Option Nat
  divider : Option Nat
  actual : Option Nat
  enabled : Option Bool
deriving DecidableEq, Repr

/-- What an operation hands to its caller (R10 (1), R22, R180). That a refused or faulted call, which executes no
return, leaves `refused` or `faulted` is log 1 and log 2. -/
inductive CallResult where
  | done
  | divider (d : Nat)
  | command (c : CommandOutcome)
  | transfer (t : OutcomeKind)
  | transaction (t : TransactionOutcome)
  | responseWord (w : Word)
  | refused (r : RefuseReason)
  | faulted (f : Fault)
deriving DecidableEq, Repr

/-- Whose pseudocode a label belongs to (R22; log 18). -/
inductive Routine where
  | idle
  | initEngine
  | resetEngine
  | setClock
  | execute
  | calcDivider
  | sendCommand
  | armTransfer
  | waitAndDrain
  | clearAllStatus
  | controllerReset
  | issueStop
deriving DecidableEq, Repr

/-- A sequencer position: the routine, the label `L<line>`, and whether the line's call has returned and only
the rest of the line is left (R22; log 18). -/
structure Pos where
  op : Routine
  line : Nat
  resumed : Bool
deriving DecidableEq, Repr

/-- `(Idle, -)` (R22). -/
def Pos.idle : Pos := { op := .idle, line := 0, resumed := false }

/-- The variables of the routines in progress, between two lines: f and d of SET_CLOCK (and f_ref of
CALC_DIVIDER), the descriptors, the status value just read, and the outcomes (log 18). -/
structure Locals where
  fRef : Nat
  freq : Nat
  div : Nat
  cmd : CommandDesc
  data : Option DataDesc
  status : Word
  cout : CommandOutcome
  tout : OutcomeKind
deriving DecidableEq, Repr

/-- No call in progress: nothing held. -/
def Locals.clear : Locals where
  fRef := 0
  freq := 0
  div := 0
  cmd := Operands.blank.cmd
  data := none
  status := 0#32
  cout := .timeout
  tout := .timeout

/-- What the host does next (log 5): call an operation, which one step runs whole (00_scope.md R6); call one that
runs a labelled line a step (R22, log 18); or read word j of the response slot (log 21). -/
inductive Arrival where
  | request (r : Request)
  | lineByLine (r : Request)
  | readResponse (j : Nat)
deriving DecidableEq, Repr

/-- Data memory: the bytes written so far, addresses strictly rising; a byte not listed has no value
(20_memory.md R52 (2), log 17). -/
abbrev Memory := List Host.Cell

/-- The state of the machine (R20). -/
@[ext]
structure State where
  /-- the parameters of R14, constant in a run (R203) -/
  cfg : Config
  /-- `s.initialized` (R24) -/
  initialized : Bool
  /-- `s.in_call` (R24) -/
  inCall : Bool
  /-- `s.pc` (R22) -/
  pc : Pos
  /-- `s.stack`, the innermost return position first (R22) -/
  stack : List Pos
  /-- `s.clk` (R47) -/
  clk : ClockState
  /-- `s.resp`, none when unpopulated (R42) -/
  resp : Option (List Word)
  /-- `s.last` (R48) -/
  last : Option TransactionOutcome
  /-- `s.i` (R49) -/
  i : Nat
  /-- `s.k` (R49) -/
  k : Nat
  /-- `s.w` (R49) -/
  w : Nat
  /-- the recorded fault (R186) -/
  fault : Option Fault
  /-- the refusal mark (R185) -/
  refusal : Option RefuseReason
  /-- the data memory that holds the destination buffer (R20 (3)) -/
  mem : Memory
  /-- the events so far, oldest first (R10 (2), R18) -/
  trace : List Event
  /-- what the last call handed to its caller (R10 (1)) -/
  result : Option CallResult
  /-- the read values a claim supplies, the next one first (R9, log 4) -/
  supply : List Word
  /-- how many register reads have been made (log 4) -/
  draws : Nat
  /-- what the host does, the next one first (R6, R8, log 5) -/
  arrivals : List Arrival
  /-- the variables of the call in progress (log 18) -/
  locals : Locals
deriving DecidableEq, Repr

/-- The state after power-on under the parameters `c` (R51, R200). -/
def State.powerOn (c : Config) : State where
  cfg := c
  initialized := false
  inCall := false
  pc := Pos.idle
  stack := []
  clk := { requested := none, divider := none, actual := none, enabled := none }
  resp := none
  last := none
  i := 0
  k := 0
  w := 0
  fault := none
  refusal := none
  mem := []
  trace := []
  result := none
  supply := []
  draws := 0
  arrivals := []
  locals := Locals.clear

/-- The machine right after power-on, under the parameters of log 10. -/
def State.reset : State := State.powerOn Config.board

end Sys2Proof.Machine
end

