-- ==== Sys2Proof/Machine/Ops.lean ====
section
/-! DEFINITION. The named operations over the state: data memory (20_memory.md), the primitives of
00_scope.md R18, refusing and faulting (60_exceptions.md R185, R186), and entering and leaving a call
(R193). The engine has no trap entry and no return from one (R189): raising a fault or a refusal and
returning to the caller are all there is, and they stand here. -/

namespace Sys2Proof.Machine

/-! ### Data memory -/

/-- Addresses strictly rising: the canonical form (log 17). -/
def Memory.wf : Memory → Bool
  | [] => true
  | [_] => true
  | a :: b :: m => decide (a.1 < b.1) && Memory.wf (b :: m)

/-- The byte at an address; none when nothing has written it (log 17). -/
def Memory.read : Memory → Nat → Option Byte
  | [], _ => none
  | (k, v) :: m, a => if k = a then some v else Memory.read m a

/-- Write one byte, keeping the canonical form. -/
def Memory.write : Memory → Nat → Byte → Memory
  | [], a, v => [(a, v)]
  | (k, x) :: m, a, v =>
    if a < k then (a, v) :: (k, x) :: m
    else if a = k then (a, v) :: m
    else (k, x) :: Memory.write m a v

/-- Byte j of a word in the buffer: `w[8j+7:8j]` little-endian, `w[31-8j:24-8j]` big-endian (R53). -/
def wordByte (e : Endian) (w : Word) (j : Nat) : Byte :=
  match e with
  | .little => w.extractLsb' (8 * j) 8
  | .big => w.extractLsb' (24 - 8 * j) 8

/-- The address of word i of a buffer (R53, R82). -/
def wordAddr (d : DataDesc) (i : Nat) : Nat := d.buf + 4 * i

/-- The four bytes of a word at an address, in the byte order BUF_ENDIAN (R53). -/
def Memory.writeWord (e : Endian) (m : Memory) (a : Nat) (w : Word) : Memory :=
  (((m.write a (wordByte e w 0)).write (a + 1) (wordByte e w 1)).write (a + 2) (wordByte e w 2)).write
    (a + 3) (wordByte e w 3)

/-! ### Events and register accesses -/

/-- Append one event to the trace. -/
def emit (e : Event) (s : State) : State := { s with trace := s.trace ++ [e] }

/-- The environment's answer to the next register read: the supplied value, or else a free one (R9, log 4). -/
def State.draw (s : State) : Word :=
  match s.supply with
  | v :: _ => v
  | [] => Config.freeRead s.draws

/-- `RegRead(REG)`: the value is `s.draw` and the event is `R(REG) = v` (R18). -/
def regRead (r : Reg) (s : State) : State :=
  { s with supply := s.supply.tail, draws := s.draws + 1, trace := s.trace ++ [.read r s.draw] }

/-- `RegWrite(REG, v)` (R18). The environment receives the write as an event (R7, log 19). -/
def regWrite (r : Reg) (v : Word) (s : State) : State := emit (.write r v) s

/-- `RegSet(REG, m)`: one read and one write (R18). -/
def regSet (r : Reg) (m : Word) (s : State) : State := regWrite r (s.draw ||| m) (regRead r s)

/-- `RegClr(REG, m)`: one read and one write (R18). -/
def regClr (r : Reg) (m : Word) (s : State) : State := regWrite r (s.draw &&& ~~~m) (regRead r s)

/-- `Delay(k)`: an event that changes nothing else (R18). -/
def delay (k : DelayKind) (s : State) : State := emit (.delay k) s

/-- `External(BringUp)` (R18, R5 c). -/
def bringUp (s : State) : State := emit .bringUp s

/-- `BufStore(i, w)`: word i of the destination buffer (R18, R53). -/
def bufStore (d : DataDesc) (i : Nat) (w : Word) (s : State) : State :=
  emit (.store i w) { s with mem := s.mem.writeWord s.cfg.bufEndian (wordAddr d i) w }

/-- The register RSPj (R31). -/
def rspReg : Nat → Reg
  | 0 => .RSP0
  | 1 => .RSP1
  | 2 => .RSP2
  | _ => .RSP3

/-! ### The bus address of an access -/

/-- `off(REG)` (R18, R25). -/
def regOff (o : Offsets) : Reg → Nat
  | .CON => o.CON
  | .PRE => o.PRE
  | .CARG => o.CARG
  | .CCON => o.CCON
  | .CSTA => o.CSTA
  | .RSP0 => o.RSP0
  | .RSP1 => o.RSP1
  | .RSP2 => o.RSP2
  | .RSP3 => o.RSP3
  | .DTIMER => o.DTIMER
  | .BSIZE => o.BSIZE
  | .DCON => o.DCON
  | .DCNT => o.DCNT
  | .DSTA => o.DSTA
  | .FSTA => o.FSTA
  | .IMSK => o.IMSK
  | .DAT => o.DAT

/-- The byte address `REG_BASE + off(REG)` (R18). The model's choice (log 29): the sum is taken as a natural
number, neither wrapped nor refused where a REG_BASE near 2^32 puts it at or past 2^32. -/
def regAddr (c : Config) (r : Reg) : Nat := c.regBase.toNat + regOff c.layout.off r

/-- `MemRead(addr, 4)` and `MemWrite(addr, 4, v)` behind a register event or a buffer store (R18). -/
structure BusAccess where
  isWrite : Bool
  addr : Nat
  bytes : Nat
  value : Word
deriving DecidableEq, Repr

/-- The bus access an event stands for, under the descriptor of the transfer in progress (R18, R56). -/
def Event.access (c : Config) (d : DataDesc) : Event → Option BusAccess
  | .read r v => some { isWrite := false, addr := regAddr c r, bytes := 4, value := v }
  | .write r v => some { isWrite := true, addr := regAddr c r, bytes := 4, value := v }
  | .store i w => some { isWrite := true, addr := wordAddr d i, bytes := 4, value := w }
  | .delay _ => none
  | .bringUp => none

/-- The amount of a delay (R12). No rule depends on it. -/
def DelayKind.amount (c : Config) : DelayKind → Nat
  | .cmdPollDelay => c.cmdPollDelay
  | .drainPause => c.drainPause
  | .settleDelay => c.settleDelay

/-! ### Outcomes -/

/-- The numeric codes of the outcome kinds (R180). -/
def OutcomeKind.code : OutcomeKind → Nat
  | .success => 0
  | .timeout => 1
  | .commError => 2
  | .unsupported => 3

/-- The status of a Command Outcome (R44). -/
def CommandOutcome.status : CommandOutcome → OutcomeKind
  | .success _ => .success
  | .timeout => .timeout
  | .commError => .commError

/-- The slot a Command Outcome leaves: populated only on Success with a response (R42, log 15). -/
def CommandOutcome.slot : CommandOutcome → Option (List Word)
  | .success [] => none
  | .success (w :: ws) => some (w :: ws)
  | .timeout => none
  | .commError => none

/-! ### Refusing, faulting, entering and leaving a call -/

/-- `raise Refuse(r)` before the call has begun: no event, and a mark the state keeps for good; the first mark
stays (R185, log 1, log 3). -/
def refuse (r : RefuseReason) (s : State) : State :=
  { s with refusal := some (s.refusal.getD r), result := some (.refused r) }

/-- `raise Fault(f)` at a line: the call ends there, and the fault is recorded for good (R186, log 2). The model's
choice (log 2): the result of the call is `.faulted f`, where R186 names nothing handed to the caller. -/
def raiseFault (f : Fault) (at_ : Pos) (s : State) : State :=
  { s with fault := some f, pc := at_, result := some (.faulted f) }

/-- A call is in progress (R24; log 14). -/
def State.busy (s : State) : Bool := s.inCall || s.pc.op != .idle

/-- Every meaning begins here. A faulted engine does nothing more (R186, log 2), and a configuration the model
does not accept refuses every request (R185, log 28). -/
def enter (s : State) (run : State → State) : Host.Outcome State Fault Refusal :=
  match s.fault with
  | some f => .fault f
  | none => if s.cfg.legal then .next (run s) else .next (refuse .badConfig s)

/-- The start of a host operation: refused while another call is in progress (R193) and, for all but
INITIALIZE, before INITIALIZE (R194); otherwise `s.in_call <- true`. -/
def hostCall (needsInit : Bool) (body : State → State) (s : State) : State :=
  if s.busy then refuse .reentrant s
  else if needsInit && !s.initialized then refuse .notInitialized s
  else body { s with inCall := true }

/-- The start of an internal operation that is called by itself (log 7, log 14). The model's choice (log 7): it
runs on an engine that is not initialized too, since R194 names host operations only. -/
def internalCall (body : State → State) (s : State) : State :=
  if s.busy then refuse .reentrant s else body s

/-- A control word on its way to its register from outside a call: the write (log 8). While a call is in progress
only the engine accesses the register block (20_memory.md R65), so it is refused like a call (log 27). -/
def controlWord (r : Reg) (v : Word) : State → State := internalCall (regWrite r v)

/-- `return r` of a host operation: `s.in_call <- false`, and the result goes to the caller (R22, R193). -/
def hostReturn (r : CallResult) (s : State) : State :=
  { s with inCall := false, result := some r }

/-- `raise Refuse(r)` inside a host operation: the call ends (R185, log 3). -/
def refuseInCall (r : RefuseReason) (s : State) : State :=
  { refuse r s with inCall := false }

/-- The result of an internal operation that was called by itself (log 7). -/
def handBack (r : CallResult) (s : State) : State := { s with result := some r }

/-- The caller reads word j of the response slot: the word, or the fault ReadUnpopulatedResponse (R42, R186,
70_reset_and_hazards.md R211, log 21). -/
def readResponse (j : Nat) (s : State) : State :=
  match s.resp.bind (·[j]?) with
  | some w => { s with result := some (.responseWord w) }
  | none => raiseFault .readUnpopulatedResponse s.pc s

end Sys2Proof.Machine
end

