-- ==== Sys2Proof/Machine/Flags.lean ====
section
/-! DEFINITION. The conditions the engine computes from a status value it has just read (10_state.md R23,
30_encoding.md R78). The engine has no flag register: none of these is kept. -/

namespace Sys2Proof.Machine

/-- What one CSTA value decides (41_command.md R113). -/
inductive CmdVerdict where
  | timeout
  | commError
  /-- the response has arrived -/
  | respond
  /-- no response is expected and the command is sent -/
  | sent
deriving DecidableEq, Repr

/-- The terminal conditions of a command poll in their order (R113). -/
def cmdVerdict (l : Layout) (d : CommandDesc) (v : Word) : Option CmdVerdict :=
  if l.csta.TOUT.isSet v then some .timeout
  else if l.csta.CRCFAIL.isSet v && d.crc then some .commError
  else if d.present && l.csta.RSPFIN.isSet v then some .respond
  else if !d.present && l.csta.SENT.isSet v then some .sent
  else none

/-- The busy check: DSTA.TXON or DSTA.RXON (42_data.md R131). -/
def transferBusy (l : Layout) (v : Word) : Bool :=
  !(l.dsta.TXON.get v == 0 && l.dsta.RXON.get v == 0)

/-- What one DSTA value decides (R143). -/
inductive DataVerdict where
  | commError
  | timeout
  | finished
deriving DecidableEq, Repr

/-- The terminal conditions of a data poll in their order (R143). -/
def dataVerdict (l : Layout) (v : Word) : Option DataVerdict :=
  if l.dsta.RXCRCFAIL.isSet v then some .commError
  else if l.dsta.DTOUT.isSet v then some .timeout
  else if l.dsta.DATFIN.isSet v then some .finished
  else none

/-- `has_data` (R78). -/
def fifoHasData (l : Layout) (v : Word) : Bool := l.fsta.RFDET.isSet v

/-- `nwords = FFCNT / 4`, floor (R78, R141). -/
def fifoWords (l : Layout) (v : Word) : Nat := l.fsta.FFCNT.get v / 4

end Sys2Proof.Machine
end

