-- ==== Sys2Proof/Machine/Clock.lean ====
section
/-! DEFINITION. The clock family (40_clock.md): CALC_DIVIDER and SET_CLOCK. -/

namespace Sys2Proof.Machine

/-- The loop R100 L1 from divider d on, over `left` dividers: the first that satisfies the bound, if any. -/
def searchDivider (fRef f : Nat) : Nat → Nat → Option Nat
  | 0, _ => none
  | left + 1, d => if fRef / (d + 1) ≤ f then some d else searchDivider fRef f left (d + 1)

/-- CALC_DIVIDER(f_ref, f): the first d of 0, 1, ..., 255 with `f_ref / (d+1) <= f`, and 255 if there is none
(R100). -/
def calcDivider (fRef f : Nat) : Nat := (searchDivider fRef f 256 0).getD 255

/-- R100 as an operation called by itself. -/
def execCalcDivider (fRef f : Nat) (s : State) : Host.Outcome State Fault Refusal :=
  enter s (internalCall (handBack (.divider (calcDivider fRef f))))

/-- `s.clk` after SET_CLOCK(f), f > 0, with divider d (R102 L4). -/
def clockOn (fRef f d : Nat) : ClockState :=
  { requested := some f, divider := some d, actual := some (fRef / (d + 1)), enabled := some true }

/-- `s.clk` after SET_CLOCK(0): the divider stays (R103). -/
def clockOff (c : ClockState) : ClockState :=
  { requested := some 0, divider := c.divider, actual := some 0, enabled := some false }

/-- R102 L5: disable the clock output. -/
def disableClock (s : State) : State :=
  { regClr .CON s.cfg.layout.con.ENCLK.mask s with clk := clockOff s.clk }

/-- R102 L2 to L4: write the divider, then enable the clock output. -/
def enableClock (f : Nat) (s : State) : State :=
  let d := calcDivider s.cfg.fRef f
  { regSet .CON s.cfg.layout.con.ENCLK.mask (regWrite .PRE (zext32 d) s) with
    clk := clockOn s.cfg.fRef f d }

/-- SET_CLOCK(f) (R102, R103). -/
def execSetClock (f : Nat) (s : State) : Host.Outcome State Fault Refusal :=
  enter s (hostCall true fun s =>
    hostReturn .done (if f = 0 then disableClock s else enableClock f s))

end Sys2Proof.Machine
end

