-- ==== Sys2Proof/Machine/Control.lean ====
section
/-! DEFINITION. The control-word rows of the opcode table: each is the write of that word to its register
(30_encoding.md R72, R73, R75, R76; 20_memory.md R57; log 8), but for a call in progress, during which only the
engine accesses the register block (20_memory.md R65; log 27). What the register block and the card do with the
word is the environment's (00_scope.md R5 i, R7). -/

namespace Sys2Proof.Machine

/-- CCON_NORESP: the write launches a command without a response (R73). -/
def execCconNoresp (index : BitVec 6) (s : State) : Host.Outcome State Fault Refusal :=
  enter s (controlWord .CCON (cconWord s.cfg.layout index.toNat false false))

/-- CCON_SHORT: the write launches a command with a short response (R73). -/
def execCconShort (index : BitVec 6) (s : State) : Host.Outcome State Fault Refusal :=
  enter s (controlWord .CCON (cconWord s.cfg.layout index.toNat true false))

/-- CCON_LONG: the write launches a command with a long response (R73). -/
def execCconLong (index : BitVec 6) (s : State) : Host.Outcome State Fault Refusal :=
  enter s (controlWord .CCON (cconWord s.cfg.layout index.toNat true true))

/-- DCON_READ: the write arms the data path for a read (R75). -/
def execDconRead (wide : Bool) (blknum : BitVec 12) (s : State) : Host.Outcome State Fault Refusal :=
  enter s (controlWord .DCON (dconReadWord s.cfg.layout blknum.toNat wide))

/-- DCON_STOP: the write stops an active transfer (R76). -/
def execDconStop (s : State) : Host.Outcome State Fault Refusal :=
  enter s (controlWord .DCON s.cfg.dconStopValue)

end Sys2Proof.Machine
end

