-- ==== Sys2Proof/Machine/Command.lean ====
section
/-! DEFINITION. The command family (41_command.md): SEND_COMMAND. -/

namespace Sys2Proof.Machine

/-- Read n response registers from RSPj on, in order (R114): the words and the state after. -/
def captureFrom : Nat → Nat → State → List Word × State
  | 0, _, s => ([], s)
  | n + 1, j, s =>
    let r := captureFrom n (j + 1) (regRead (rspReg j) s)
    (s.draw :: r.1, r.2)

/-- R110 L8: `n <- (desc.long ? 4 : 1)` and the capture from RSP0 on. -/
def captureResponse (d : CommandDesc) (s : State) : CommandOutcome × State :=
  let r := captureFrom (if d.long then 4 else 1) 0 s
  (.success r.1, r.2)

/-- The poll loop R110 L5 to L11, `left` reads being allowed; the loop is entered with `left` at least 1. -/
def pollCommand (d : CommandDesc) : Nat → State → CommandOutcome × State
  | 0, s => (.timeout, s)
  | left + 1, s =>
    let s1 := regRead .CSTA s
    match cmdVerdict s.cfg.layout d s.draw with
    | some .timeout => (.timeout, s1)
    | some .commError => (.commError, s1)
    | some .respond => captureResponse d s1
    | some .sent => (.success [], s1)
    | none =>
      if left = 0 then (.timeout, s1)
      else pollCommand d left { delay .cmdPollDelay s1 with i := s1.i + 1 }

/-- R110 L1 to L4: the slot unpopulated, the argument, the launch, the first iteration number. -/
def launchCommand (d : CommandDesc) (s : State) : State :=
  { regWrite .CCON (d.ccon s.cfg.layout) (regWrite .CARG d.carg { s with resp := none }) with i := 1 }

/-- SEND_COMMAND(desc) (R110): the outcome and the state after. -/
def sendCommand (d : CommandDesc) (s : State) : CommandOutcome × State :=
  let r := pollCommand d s.cfg.cmdPollMax (launchCommand d s)
  (r.1, { regWrite .CSTA r.2.cfg.cmdstaClear r.2 with resp := r.1.slot })

/-- R110 as an operation called by itself; an ill-formed descriptor is refused (30_encoding.md R84, log 16). -/
def execSendCommand (d : CommandDesc) (s : State) : Host.Outcome State Fault Refusal :=
  enter s (internalCall fun s =>
    if d.wellFormed then handBack (.command (sendCommand d s).1) (sendCommand d s).2
    else refuse .illFormedCommand s)

end Sys2Proof.Machine
end

