-- ==== Sys2Proof/Machine/Data.lean ====
section
/-! DEFINITION. The data family (42_data.md): ARM_TRANSFER and WAIT_AND_DRAIN, with the stop action and the
controller reset that ARM_TRANSFER calls (43_orchestrator.md R171, R172). -/

namespace Sys2Proof.Machine

/-- ISSUE_STOP() (R172). -/
def issueStop (s : State) : State := regWrite .DCON s.cfg.dconStopValue s

/-- CONTROLLER_RESET() (R171). -/
def controllerReset (s : State) : State := regSet .CON s.cfg.layout.con.SDRESET.mask s

/-- One stop-and-reset round, R130 L6 to L8 (R132). -/
def stopRound (s : State) : State :=
  let s1 := delay .settleDelay (controllerReset (issueStop s))
  { s1 with k := s1.k + 1 }

/-- The programming writes, R130 L9 to L11 (R134). -/
def programTransfer (d : DataDesc) (s : State) : State :=
  regWrite .DTIMER s.cfg.dataTimeout
    (regWrite .BSIZE (zext32 d.blockSize) (regWrite .DCON (d.dcon s.cfg.layout) s))

/-- The busy loop R130 L3 to L8, `left` rounds being allowed (R133). -/
def quiesce (d : DataDesc) : Nat → State → OutcomeKind × State
  | left, s =>
    let s1 := regRead .DSTA s
    if transferBusy s.cfg.layout s.draw then
      match left with
      | 0 => (.commError, s1)
      | left + 1 => quiesce d left (stopRound s1)
    else (.success, programTransfer d s1)

/-- ARM_TRANSFER(desc) (R130). -/
def armTransfer (d : DataDesc) (s : State) : OutcomeKind × State :=
  match d.dir with
  | .write => (.unsupported, s)
  | .read => quiesce d s.cfg.armRetryMax { s with k := 0 }

/-- R130 as an operation called by itself; a descriptor outside R81 is refused (30_encoding.md R84, log 16). -/
def execArmTransfer (d : DataDesc) (s : State) : Host.Outcome State Fault Refusal :=
  enter s (internalCall fun s =>
    if d.accepted s.cfg then handBack (.transfer (armTransfer d s).1) (armTransfer d s).2
    else refuse .illFormedData s)

/-- How a burst, or a whole drain, ends: it goes on with a value, or a fault has ended the call. -/
inductive Drain (α : Type) where
  | ok (a : α) (s : State)
  | overrun (s : State)

/-- `burst(n)`, at the line `at_` (R140): n words from DAT to the next buffer indices. A word past the capacity
is read, not stored, and faults (R146). -/
def burst (d : DataDesc) (at_ : Pos) : Nat → State → Drain Unit
  | 0, s => .ok () s
  | n + 1, s =>
    let s1 := regRead .DAT s
    if d.bufCapacity < 4 * s.w + 4 then .overrun (raiseFault (.bufferOverrun s.w) at_ s1)
    else burst d at_ n { bufStore d s.w s.draw s1 with w := s.w + 1 }

/-- The label L3 of WAIT_AND_DRAIN, where a burst of the loop stands. -/
def loopBurstPos : Pos := { op := .waitAndDrain, line := 3, resumed := false }

/-- The label L7 of WAIT_AND_DRAIN, where the final drain stands. -/
def finalBurstPos : Pos := { op := .waitAndDrain, line := 7, resumed := false }

/-- R140 L2 and L3: one FIFO status read and, when the FIFO has data, one burst and the pause (R141, R142). -/
def drainOnce (d : DataDesc) (s : State) : Drain Unit :=
  let s1 := regRead .FSTA s
  if fifoHasData s.cfg.layout s.draw then
    match burst d loopBurstPos (fifoWords s.cfg.layout s.draw) s1 with
    | .ok _ s2 => .ok () (delay .drainPause s2)
    | .overrun s2 => .overrun s2
  else .ok () s1

/-- R140 L7: the final drain, whatever RFDET says (R144). -/
def finalDrain (d : DataDesc) (s : State) : Drain Unit :=
  burst d finalBurstPos (fifoWords s.cfg.layout s.draw) (regRead .FSTA s)

/-- The poll loop R140 L2 to L9, `left` iterations being allowed; it is entered with `left` at least 1. -/
def pollData (d : DataDesc) : Nat → State → Drain OutcomeKind
  | 0, s => .ok .timeout s
  | left + 1, s =>
    match drainOnce d s with
    | .overrun s1 => .overrun s1
    | .ok _ s1 =>
      let s2 := regRead .DSTA s1
      match dataVerdict s1.cfg.layout s1.draw with
      | some .commError => .ok .commError s2
      | some .timeout => .ok .timeout s2
      | some .finished =>
        match finalDrain d s2 with
        | .ok _ s3 => .ok .success s3
        | .overrun s3 => .overrun s3
      | none => if left = 0 then .ok .timeout s2 else pollData d left { s2 with i := s2.i + 1 }

/-- R140 L10 and L11: the exit clears, FSTA then DSTA (R147). -/
def exitClears (s : State) : State :=
  regWrite .DSTA s.cfg.dstaClear (regWrite .FSTA s.cfg.fstaClear s)

/-- WAIT_AND_DRAIN(desc) (R140). -/
def waitAndDrain (d : DataDesc) (s : State) : Drain OutcomeKind :=
  match pollData d s.cfg.dataPollMax { s with w := 0, i := 1 } with
  | .ok t s1 => .ok t (exitClears s1)
  | .overrun s1 => .overrun s1

/-- R140 as an operation called by itself; its operand is a read descriptor that R81 accepts (log 16). The model's
choice (log 31): it runs whether or not an ARM_TRANSFER has armed that descriptor, which R140 says of its operand
and no engine record tells. -/
def execWaitAndDrain (d : DataDesc) (s : State) : Host.Outcome State Fault Refusal :=
  enter s (internalCall fun s =>
    if d.dir == .read && d.readable s.cfg then
      match waitAndDrain d s with
      | .ok t s1 => handBack (.transfer t) s1
      | .overrun s1 => s1
    else refuse .illFormedData s)

end Sys2Proof.Machine
end

