-- ==== Sys2Proof/Machine/Orchestrator.lean ====
section
/-! DEFINITION. The orchestrator (43_orchestrator.md): EXECUTE, INITIALIZE, RESET and the shared internal
operations CLEAR_ALL_STATUS, CONTROLLER_RESET and ISSUE_STOP. -/

namespace Sys2Proof.Machine

/-- CLEAR_ALL_STATUS() (R166): CSTA, DSTA, FSTA. -/
def clearAllStatus (s : State) : State :=
  regWrite .FSTA s.cfg.fstaClear (regWrite .DSTA s.cfg.dstaClear (regWrite .CSTA s.cfg.cmdstaClear s))

/-- `s.last <- t; return s.last` (R160). -/
def finishExecute (t : TransactionOutcome) (s : State) : State :=
  hostReturn (.transaction t) { s with last := some t }

/-- Where WAIT_AND_DRAIN returns to in EXECUTE: the label after its call (R160 L7). -/
def executeAfterWait : Pos := { op := .execute, line := 7, resumed := false }

/-- R160 L6 and L7, after a command outcome c. A fault leaves the return position on the stack (log 2). -/
def executeWait (d : DataDesc) (c : CommandOutcome) (s : State) : State :=
  match waitAndDrain d s with
  | .ok t s1 => finishExecute { final := t, cmd := some c, data := some t } s1
  | .overrun s1 => { s1 with stack := executeAfterWait :: s1.stack }

/-- R160 L3 to L7 with a data descriptor: the data outcome overrides (R164). -/
def executeData (cmd : CommandDesc) (d : DataDesc) (s : State) : State :=
  match armTransfer d s with
  | (.success, s1) => executeWait d (sendCommand cmd s1).1 (sendCommand cmd s1).2
  | (a, s1) => finishExecute { final := a, cmd := none, data := some a } s1

/-- R160 L4 and L5 without a data descriptor. -/
def executePlain (cmd : CommandDesc) (s : State) : State :=
  let r := sendCommand cmd s
  finishExecute { final := r.1.status, cmd := some r.1, data := none } r.2

/-- The body of EXECUTE (R160). -/
def executeBody (cmd : CommandDesc) (data : Option DataDesc) (s : State) : State :=
  if !cmd.wellFormed then refuseInCall .illFormedCommand s
  else if !dataAccepted s.cfg data then refuseInCall .illFormedData s
  else match data with
    | none => executePlain cmd (clearAllStatus s)
    | some d => executeData cmd d (clearAllStatus s)

/-- EXECUTE(cmd, data?) (R160). -/
def execExecute (cmd : CommandDesc) (data : Option DataDesc) (s : State) : Host.Outcome State Fault Refusal :=
  enter s (hostCall true (executeBody cmd data))

/-- INITIALIZE() (R168). -/
def execInitEngine (s : State) : Host.Outcome State Fault Refusal :=
  enter s (hostCall false fun s =>
    if s.initialized then refuseInCall .alreadyInitialized s
    else hostReturn .done { regWrite .IMSK 0#32 (bringUp s) with initialized := true })

/-- RESET() (R170). -/
def execResetEngine (s : State) : Host.Outcome State Fault Refusal :=
  enter s (hostCall true fun s => hostReturn .done (delay .settleDelay (controllerReset s)))

/-- R166 as an operation called by itself. -/
def execClearAllStatus (s : State) : Host.Outcome State Fault Refusal :=
  enter s (internalCall fun s => handBack .done (clearAllStatus s))

/-- R171 as an operation called by itself. -/
def execControllerReset (s : State) : Host.Outcome State Fault Refusal :=
  enter s (internalCall fun s => handBack .done (controllerReset s))

/-- R172 as an operation called by itself. -/
def execIssueStop (s : State) : Host.Outcome State Fault Refusal :=
  enter s (internalCall fun s => handBack .done (issueStop s))

end Sys2Proof.Machine
end

