-- ==== Sys2Proof/Machine/Dispatch.lean ====
section
/-! DEFINITION. One arm per instruction. -/

namespace Sys2Proof.Machine

def exec (i : Instr) (s : State) : Host.Outcome State Fault Refusal :=
  match i with
  | .initEngine => Sys2Proof.Machine.execInitEngine s
  | .resetEngine => Sys2Proof.Machine.execResetEngine s
  | .setClock f => Sys2Proof.Machine.execSetClock f s
  | .execute cmd data => Sys2Proof.Machine.execExecute cmd data s
  | .calcDivider fRef f => Sys2Proof.Machine.execCalcDivider fRef f s
  | .sendCommand cmd => Sys2Proof.Machine.execSendCommand cmd s
  | .armTransfer data => Sys2Proof.Machine.execArmTransfer data s
  | .waitAndDrain data => Sys2Proof.Machine.execWaitAndDrain data s
  | .clearAllStatus => Sys2Proof.Machine.execClearAllStatus s
  | .controllerReset => Sys2Proof.Machine.execControllerReset s
  | .issueStop => Sys2Proof.Machine.execIssueStop s
  | .cconNoresp index => Sys2Proof.Machine.execCconNoresp index s
  | .cconShort index => Sys2Proof.Machine.execCconShort index s
  | .cconLong index => Sys2Proof.Machine.execCconLong index s
  | .dconRead wide blknum => Sys2Proof.Machine.execDconRead wide blknum s
  | .dconStop => Sys2Proof.Machine.execDconStop s

end Sys2Proof.Machine
end

