-- ==== Sys2Proof/Machine/Sequencer.lean ====
section
/-! DEFINITION. The sequencer (10_state.md R22): one labelled line of pseudocode is one step. A call made by
`Arrival.lineByLine` runs line by line from `start`; that this gives what `exec` gives for the whole call is a statement of its own
(log 18). -/

namespace Sys2Proof.Machine

/-- The label `L<n>` of a routine. -/
def label (op : Routine) (n : Nat) : Pos := { op := op, line := n, resumed := false }

/-- `pc <- Ln` of the same routine (R17). -/
def goto_ (n : Nat) (s : State) : State := { s with pc := label s.pc.op n }

/-- A call: the return position is pushed and the callee's L1 is next (R22). -/
def callRoutine (callee : Routine) (back : Pos) (s : State) : State :=
  { s with pc := label callee 1, stack := back :: s.stack }

/-- `return r`: pops the stack; with an empty stack the engine is Idle and the caller has the result (R22, R193). -/
def returnFrom (r : CallResult) (s : State) : State :=
  match s.stack with
  | [] => { s with pc := Pos.idle, inCall := false, result := some r, locals := Locals.clear }
  | p :: rest => { s with pc := p, stack := rest }

/-- `raise Refuse(r)` at a line: the call ends (R185, log 3). -/
def refuseLine (r : RefuseReason) (s : State) : State :=
  { refuse r s with pc := Pos.idle, stack := [], inCall := false, locals := Locals.clear }

/-- `v <- RegRead(REG)`. -/
def readStatus (r : Reg) (s : State) : State :=
  { regRead r s with locals := { s.locals with status := s.draw } }

/-- `out <- c`, SEND_COMMAND. -/
def setCout (c : CommandOutcome) (s : State) : State := { s with locals := { s.locals with cout := c } }

/-- `out <- t` of ARM_TRANSFER and WAIT_AND_DRAIN. -/
def setTout (t : OutcomeKind) (s : State) : State := { s with locals := { s.locals with tout := t } }

/-- The data descriptor of the routine in progress. -/
def State.dataDesc (s : State) : DataDesc := s.locals.data.getD Operands.blank.data

/-- The lines of INITIALIZE (R168). -/
def lineInitEngine (n : Nat) (s : State) : State :=
  match n with
  | 1 => if s.initialized then refuseLine .alreadyInitialized s else goto_ 2 s
  | 2 => goto_ 3 (bringUp s)
  | 3 => goto_ 4 (regWrite .IMSK 0#32 s)
  | 4 => goto_ 5 { s with initialized := true }
  | _ => returnFrom .done s

/-- The lines of RESET (R170). -/
def lineResetEngine (n : Nat) (s : State) : State :=
  match n with
  | 1 => callRoutine .controllerReset (label .resetEngine 2) s
  | 2 => goto_ 3 (delay .settleDelay s)
  | _ => returnFrom .done s

/-- The lines of SET_CLOCK (R102). -/
def lineSetClock (n : Nat) (s : State) : State :=
  match n with
  | 1 => if s.locals.freq = 0 then goto_ 5 s else goto_ 2 s
  | 2 => goto_ 3 { s with locals := { s.locals with div := calcDivider s.cfg.fRef s.locals.freq } }
  | 3 => goto_ 4 (regWrite .PRE (zext32 s.locals.div) s)
  | 4 => returnFrom .done
      { regSet .CON s.cfg.layout.con.ENCLK.mask s with
        clk := clockOn s.cfg.fRef s.locals.freq s.locals.div }
  | _ => returnFrom .done (disableClock s)

/-- The lines of CALC_DIVIDER (R100); the loop of L1 is one line. -/
def lineCalcDivider (n : Nat) (s : State) : State :=
  match n with
  | 1 => match searchDivider s.locals.fRef s.locals.freq 256 0 with
    | some d => returnFrom (.divider d) s
    | none => goto_ 2 s
  | _ => returnFrom (.divider 255) s

/-- The lines of SEND_COMMAND (41_command.md R110). -/
def lineSendCommand (n : Nat) (s : State) : State :=
  match n with
  | 1 => goto_ 2 { s with resp := none }
  | 2 => goto_ 3 (regWrite .CARG s.locals.cmd.carg s)
  | 3 => goto_ 4 (regWrite .CCON (s.locals.cmd.ccon s.cfg.layout) s)
  | 4 => goto_ 5 { s with i := 1 }
  | 5 => goto_ 6 (readStatus .CSTA s)
  | 6 => if s.cfg.layout.csta.TOUT.isSet s.locals.status then goto_ 12 (setCout .timeout s) else goto_ 7 s
  | 7 => if s.cfg.layout.csta.CRCFAIL.isSet s.locals.status && s.locals.cmd.crc
      then goto_ 12 (setCout .commError s) else goto_ 8 s
  | 8 => if s.locals.cmd.present && s.cfg.layout.csta.RSPFIN.isSet s.locals.status
      then goto_ 12 (setCout (captureResponse s.locals.cmd s).1 (captureResponse s.locals.cmd s).2)
      else goto_ 9 s
  | 9 => if !s.locals.cmd.present && s.cfg.layout.csta.SENT.isSet s.locals.status
      then goto_ 12 (setCout (.success []) s) else goto_ 10 s
  | 10 => if s.i = s.cfg.cmdPollMax then goto_ 12 (setCout .timeout s) else goto_ 11 s
  | 11 => goto_ 5 { delay .cmdPollDelay s with i := s.i + 1 }
  | 12 => goto_ 13 (regWrite .CSTA s.cfg.cmdstaClear s)
  | _ => returnFrom (.command s.locals.cout)
      { s with resp := if s.locals.cout.status = .success then s.locals.cout.slot else s.resp }

/-- The lines of ARM_TRANSFER (42_data.md R130). -/
def lineArmTransfer (n : Nat) (s : State) : State :=
  match n with
  | 1 => if s.dataDesc.dir = .write then returnFrom (.transfer .unsupported) (setTout .unsupported s)
      else goto_ 2 s
  | 2 => goto_ 3 { s with k := 0 }
  | 3 => goto_ 4 (readStatus .DSTA s)
  | 4 => if transferBusy s.cfg.layout s.locals.status then goto_ 5 s else goto_ 9 s
  | 5 => if s.k = s.cfg.armRetryMax then returnFrom (.transfer .commError) (setTout .commError s)
      else goto_ 6 s
  | 6 => callRoutine .issueStop (label .armTransfer 7) s
  | 7 => callRoutine .controllerReset (label .armTransfer 8) s
  | 8 => goto_ 3 { delay .settleDelay s with k := s.k + 1 }
  | 9 => goto_ 10 (regWrite .DCON (s.dataDesc.dcon s.cfg.layout) s)
  | 10 => goto_ 11 (regWrite .BSIZE (zext32 s.dataDesc.blockSize) s)
  | 11 => goto_ 12 (regWrite .DTIMER s.cfg.dataTimeout s)
  | _ => returnFrom (.transfer .success) (setTout .success s)

/-- The lines of WAIT_AND_DRAIN (R140). A fault leaves the position at its line (R186, log 2). -/
def lineWaitAndDrain (n : Nat) (s : State) : State :=
  match n with
  | 1 => goto_ 2 { s with w := 0, i := 1 }
  | 2 => goto_ 3 (readStatus .FSTA s)
  | 3 => if fifoHasData s.cfg.layout s.locals.status then
        match burst s.dataDesc loopBurstPos (fifoWords s.cfg.layout s.locals.status) s with
        | .ok _ s1 => goto_ 4 (delay .drainPause s1)
        | .overrun s1 => s1
      else goto_ 4 s
  | 4 => goto_ 5 (readStatus .DSTA s)
  | 5 => if s.cfg.layout.dsta.RXCRCFAIL.isSet s.locals.status then goto_ 10 (setTout .commError s)
      else goto_ 6 s
  | 6 => if s.cfg.layout.dsta.DTOUT.isSet s.locals.status then goto_ 10 (setTout .timeout s) else goto_ 7 s
  | 7 => if s.cfg.layout.dsta.DATFIN.isSet s.locals.status then
        match finalDrain s.dataDesc s with
        | .ok _ s1 => goto_ 10 (setTout .success s1)
        | .overrun s1 => s1
      else goto_ 8 s
  | 8 => if s.i = s.cfg.dataPollMax then goto_ 10 (setTout .timeout s) else goto_ 9 s
  | 9 => goto_ 2 { s with i := s.i + 1 }
  | 10 => goto_ 11 (regWrite .FSTA s.cfg.fstaClear s)
  | 11 => goto_ 12 (regWrite .DSTA s.cfg.dstaClear s)
  | _ => returnFrom (.transfer s.locals.tout) s

/-- The lines of CLEAR_ALL_STATUS (43_orchestrator.md R166). -/
def lineClearAllStatus (n : Nat) (s : State) : State :=
  match n with
  | 1 => goto_ 2 (regWrite .CSTA s.cfg.cmdstaClear s)
  | 2 => goto_ 3 (regWrite .DSTA s.cfg.dstaClear s)
  | 3 => goto_ 4 (regWrite .FSTA s.cfg.fstaClear s)
  | _ => returnFrom .done s

/-- The lines of CONTROLLER_RESET (R171). -/
def lineControllerReset (n : Nat) (s : State) : State :=
  match n with
  | 1 => goto_ 2 (controllerReset s)
  | _ => returnFrom .done s

/-- The lines of ISSUE_STOP (R172). -/
def lineIssueStop (n : Nat) (s : State) : State :=
  match n with
  | 1 => goto_ 2 (issueStop s)
  | _ => returnFrom .done s

/-- `s.last <- t; return s.last` (R160). -/
def returnLast (t : TransactionOutcome) (s : State) : State :=
  returnFrom (.transaction t) { s with last := some t }

/-- The lines of EXECUTE (R160). L3 ends, after `arm_transfer` has returned, with the test of its outcome. -/
def lineExecute (n : Nat) (resumed : Bool) (s : State) : State :=
  match n with
  | 1 => if !s.locals.cmd.wellFormed then refuseLine .illFormedCommand s
      else if !dataAccepted s.cfg s.locals.data then refuseLine .illFormedData s
      else goto_ 2 s
  | 2 => callRoutine .clearAllStatus (label .execute 3) s
  | 3 => if resumed then
        if s.locals.tout = .success then goto_ 4 s
        else returnLast { final := s.locals.tout, cmd := none, data := some s.locals.tout } s
      else if s.locals.data.isSome then
        callRoutine .armTransfer { op := .execute, line := 3, resumed := true } s
      else goto_ 4 s
  | 4 => callRoutine .sendCommand (label .execute 5) s
  | 5 => if s.locals.data.isSome then goto_ 6 s
      else returnLast { final := s.locals.cout.status, cmd := some s.locals.cout, data := none } s
  | 6 => callRoutine .waitAndDrain (label .execute 7) s
  | _ => returnLast
      { final := s.locals.tout, cmd := some s.locals.cout, data := some s.locals.tout } s

/-- One step of the sequencer: the line at `s.pc` (R22). It stands still when the engine is Idle, and when a
fault is recorded (R186). -/
def line (s : State) : State :=
  match s.fault with
  | some _ => s
  | none =>
    match s.pc.op with
    | .idle => s
    | .initEngine => lineInitEngine s.pc.line s
    | .resetEngine => lineResetEngine s.pc.line s
    | .setClock => lineSetClock s.pc.line s
    | .execute => lineExecute s.pc.line s.pc.resumed s
    | .calcDivider => lineCalcDivider s.pc.line s
    | .sendCommand => lineSendCommand s.pc.line s
    | .armTransfer => lineArmTransfer s.pc.line s
    | .waitAndDrain => lineWaitAndDrain s.pc.line s
    | .clearAllStatus => lineClearAllStatus s.pc.line s
    | .controllerReset => lineControllerReset s.pc.line s
    | .issueStop => lineIssueStop s.pc.line s

/-- n steps of the sequencer. -/
def lines : Nat → State → State
  | 0, s => s
  | n + 1, s => lines n (line s)

/-- The position at a routine's L1 with its operands in place. -/
def begin_ (op : Routine) (l : Locals) (s : State) : State := { s with pc := label op 1, locals := l }

/-- The start of a call, before its first line: the checks of `exec`, then `pc <- (op, L1)`. A control word
has no pseudocode and is written at once, as `exec` does. -/
def start (i : Instr) (s : State) : State :=
  if s.fault.isSome then s
  else if !s.cfg.legal then refuse .badConfig s
  else match i with
    | .initEngine => hostCall false (begin_ .initEngine Locals.clear) s
    | .resetEngine => hostCall true (begin_ .resetEngine Locals.clear) s
    | .setClock f => hostCall true (begin_ .setClock { Locals.clear with freq := f }) s
    | .execute cmd data => hostCall true (begin_ .execute { Locals.clear with cmd := cmd, data := data }) s
    | .calcDivider fRef f =>
      internalCall (begin_ .calcDivider { Locals.clear with fRef := fRef, freq := f }) s
    | .sendCommand cmd =>
      internalCall (fun s =>
        if cmd.wellFormed then begin_ .sendCommand { Locals.clear with cmd := cmd } s
        else refuse .illFormedCommand s) s
    | .armTransfer d =>
      internalCall (fun s =>
        if d.accepted s.cfg then begin_ .armTransfer { Locals.clear with data := some d } s
        else refuse .illFormedData s) s
    | .waitAndDrain d =>
      internalCall (fun s =>
        if d.dir == .read && d.readable s.cfg then
          begin_ .waitAndDrain { Locals.clear with data := some d } s
        else refuse .illFormedData s) s
    | .clearAllStatus => internalCall (begin_ .clearAllStatus Locals.clear) s
    | .controllerReset => internalCall (begin_ .controllerReset Locals.clear) s
    | .issueStop => internalCall (begin_ .issueStop Locals.clear) s
    | .cconNoresp index => controlWord .CCON (cconWord s.cfg.layout index.toNat false false) s
    | .cconShort index => controlWord .CCON (cconWord s.cfg.layout index.toNat true false) s
    | .cconLong index => controlWord .CCON (cconWord s.cfg.layout index.toNat true true) s
    | .dconRead wide blknum => controlWord .DCON (dconReadWord s.cfg.layout blknum.toNat wide) s
    | .dconStop => controlWord .DCON s.cfg.dconStopValue s

end Sys2Proof.Machine
end

