-- ==== Sys2Proof/Machine/Request.lean ====
section
/-! DEFINITION. What the next arrival does: a call of the host, a call of a stage, a control word, or the read
of a response word. -/

namespace Sys2Proof.Machine

/-- What a request does at a state from which it has been taken: `run` for the instruction it decodes to; a host
request that decodes to none is refused BadRequest (60_exceptions.md R185); a control word or an internal call
the engine never makes has no meaning (log 9). The model's choice (log 9, log 13): the last two are neverIssued
without a look at the configuration or at a call in progress, where the host's request is checked for BadConfig
first. -/
def onRequest (run : Instr → State → Host.Outcome State Fault Refusal) (r : Request) (s : State) :
    Host.Outcome State Fault Refusal :=
  match decode r with
  | .ok i => run i s
  | .error _ =>
    match r with
    | .host _ _ => enter s (refuse .badRequest)
    | .internal _ _ => .refused .neverIssued
    | .control _ _ => .refused .neverIssued

/-- A request that runs whole (00_scope.md R6). -/
def runRequest : Request → State → Host.Outcome State Fault Refusal := onRequest exec

/-- A request whose call begins at its first label and goes on a line a step (10_state.md R22). -/
def beginRequest : Request → State → Host.Outcome State Fault Refusal := onRequest fun i s => .next (start i s)

/-- What the host does next, at a state from which it has been taken. The model's choice (log 28): a read of the
response slot is answered under a refused configuration too, since only calls are refused (60_exceptions.md
R185). -/
def runArrival (a : Arrival) (s : State) : Host.Outcome State Fault Refusal :=
  match a with
  | .request r => runRequest r s
  | .lineByLine r => beginRequest r s
  | .readResponse j => .next (readResponse j s)

end Sys2Proof.Machine
end

