-- ==== Sys2Proof/Machine/Script.lean ====
section
/-! DEFINITION. The script notation of 30_encoding.md R88 and R89: the lines, the pseudo-instructions and their
expansions, the HOSTREQ each line assembles to, and a reader of the notation's characters. -/

namespace Sys2Proof.Machine

/-- A line of a script (R88), and the pseudo-instructions of R89. -/
inductive ScriptLine where
  | INIT
  | RESET
  | SETCLK (f : Nat)
  | EXEC (index arg : Nat) (shape : Shape)
  | EXECREAD (index arg : Nat) (shape : Shape) (count size width buf : Nat) (cap : Option Nat)
  | EXECWRITE (index arg : Nat) (shape : Shape) (count size width buf : Nat)
  /-- `READ1 <addr>, @<buf>, W<w>` -/
  | READ1 (addr buf width : Nat)
  /-- `SETCLK OFF` -/
  | SETCLKOFF
  /-- `CMD <index>, <arg>` -/
  | CMD (index arg : Nat)
deriving DecidableEq, Repr

/-- The expansions of R89; a line that is no pseudo-instruction stands for itself. -/
def ScriptLine.expand : ScriptLine → ScriptLine
  | .READ1 addr buf width => .EXECREAD 17 addr .RC 1 512 width buf none
  | .SETCLKOFF => .SETCLK 0
  | .CMD index arg => .EXEC index arg .NONE
  | l => l

/-- The instruction of a line that is no pseudo-instruction (R88: OP 0, 1, 2 and 3; CAP defaults to
`count * size`). -/
def ScriptLine.baseInstr : ScriptLine → Option Instr
  | .INIT => some .initEngine
  | .RESET => some .resetEngine
  | .SETCLK f => some (.setClock f)
  | .EXEC index arg shape => some (.execute (CommandDesc.ofCode index arg shape.code) none)
  | .EXECREAD index arg shape count size width buf cap =>
    some (.execute (CommandDesc.ofCode index arg shape.code)
      (some { dir := .read, blockCount := count, blockSize := size, buf := buf,
              bufCapacity := cap.getD (count * size), width := width }))
  | .EXECWRITE index arg shape count size width buf =>
    some (.execute (CommandDesc.ofCode index arg shape.code)
      (some { dir := .write, blockCount := count, blockSize := size, buf := buf,
              bufCapacity := count * size, width := width }))
  | .READ1 _ _ _ => none
  | .SETCLKOFF => none
  | .CMD _ _ => none

/-- The instruction a line stands for. -/
def ScriptLine.instr (l : ScriptLine) : Option Instr := l.expand.baseInstr

/-- A script as the calls the host makes, in order (R88). -/
def assemble : List ScriptLine → List Arrival
  | [] => []
  | l :: ls =>
    match l.instr with
    | some i => .request (encode i) :: assemble ls
    | none => assemble ls

/-! ### Reading the notation -/

/-- The part of a line before its comment, which starts with `;` (R88). -/
def dropComment : List Char → List Char
  | [] => []
  | c :: cs => if c = ';' then [] else c :: dropComment cs

/-- The tokens of a line: runs of characters other than blanks and commas. -/
def tokensAux : List Char → List Char → List (List Char)
  | acc, [] => if acc.isEmpty then [] else [acc]
  | acc, c :: cs =>
    if c = ' ' || c = ',' || c = '\t' then
      (if acc.isEmpty then tokensAux [] cs else acc :: tokensAux [] cs)
    else tokensAux (acc ++ [c]) cs

/-- The tokens of a line, its comment left out. -/
def tokens (l : List Char) : List (List Char) := tokensAux [] (dropComment l)

/-- The value of a digit in a base of at most sixteen. -/
def digit (base : Nat) (c : Char) : Option Nat :=
  let n := c.toNat
  let v := if 48 ≤ n ∧ n ≤ 57 then n - 48
    else if 97 ≤ n ∧ n ≤ 102 then n - 87
    else if 65 ≤ n ∧ n ≤ 70 then n - 55
    else 16
  if v < base then some v else none

/-- The digits of a number, most significant first. -/
def digits (base : Nat) : Nat → List Char → Option Nat
  | acc, [] => some acc
  | acc, c :: cs =>
    match digit base c with
    | some v => digits base (acc * base + v) cs
    | none => none

/-- A number: decimal, or hexadecimal with `0x` (R88). -/
def number : List Char → Option Nat
  | [] => none
  | ['0', 'x'] => none
  | '0' :: 'x' :: cs => digits 16 0 cs
  | cs => digits 10 0 cs

/-- A number behind a leading word, as in `CMD17`, `W4` or `@0x30000000`. -/
def numberAfter : List Char → List Char → Option Nat
  | [], cs => number cs
  | p :: ps, c :: cs => if p = c then numberAfter ps cs else none
  | _ :: _, [] => none

/-- The name of a shape (R79). -/
def shapeName (t : List Char) : Option Shape :=
  if t = ['N', 'O', 'N', 'E'] then some .NONE
  else if t = ['R'] then some .R
  else if t = ['R', 'C'] then some .RC
  else if t = ['L'] then some .L
  else if t = ['L', 'C'] then some .LC
  else none

/-- `<count> x <size>, W<1|4>, @<buf>[, CAP <capacity>]`: count, size, width, buf, capacity. -/
def transferTail : List (List Char) → Option (Nat × Nat × Nat × Nat × Option Nat)
  | [c, x, z, w, b] =>
    if x = ['x'] then do
      let c ← number c
      let z ← number z
      let w ← numberAfter ['W'] w
      let b ← numberAfter ['@'] b
      some (c, z, w, b, none)
    else none
  | [c, x, z, w, b, k, n] =>
    if x = ['x'] ∧ k = ['C', 'A', 'P'] then do
      let c ← number c
      let z ← number z
      let w ← numberAfter ['W'] w
      let b ← numberAfter ['@'] b
      let n ← number n
      some (c, z, w, b, some n)
    else none
  | _ => none

/-- The operands of `EXEC` (R88). -/
def execLine : List (List Char) → Option ScriptLine
  | [c, a, s] => do
    let c ← numberAfter ['C', 'M', 'D'] c
    let a ← number a
    let s ← shapeName s
    some (.EXEC c a s)
  | c :: a :: s :: dir :: rest => do
    let c ← numberAfter ['C', 'M', 'D'] c
    let a ← number a
    let s ← shapeName s
    let (n, z, w, b, cap) ← transferTail rest
    if dir = ['R', 'E', 'A', 'D'] then some (.EXECREAD c a s n z w b cap)
    else if dir = ['W', 'R', 'I', 'T', 'E'] ∧ cap = none then some (.EXECWRITE c a s n z w b)
    else none
  | _ => none

/-- A line of the notation, read from its characters; none where it is no line of R88 or R89. -/
def scriptLine (l : List Char) : Option ScriptLine :=
  match tokens l with
  | [] => none
  | t :: rest =>
    if t = ['I', 'N', 'I', 'T'] then (if rest = [] then some .INIT else none)
    else if t = ['R', 'E', 'S', 'E', 'T'] then (if rest = [] then some .RESET else none)
    else if t = ['S', 'E', 'T', 'C', 'L', 'K'] then
      match rest with
      | [f] => if f = ['O', 'F', 'F'] then some .SETCLKOFF else (number f).map .SETCLK
      | _ => none
    else if t = ['E', 'X', 'E', 'C'] then execLine rest
    else if t = ['R', 'E', 'A', 'D', '1'] then
      match rest with
      | [a, b, w] => do
        let a ← number a
        let b ← numberAfter ['@'] b
        let w ← numberAfter ['W'] w
        some (.READ1 a b w)
      | _ => none
    else if t = ['C', 'M', 'D'] then
      match rest with
      | [i, a] => do
        let i ← number i
        let a ← number a
        some (.CMD i a)
      | _ => none
    else none

end Sys2Proof.Machine
end

