-- ==== Sys2Proof/Machine/Step.lean ====
section
/-! DEFINITION. One step of the machine. -/

namespace Sys2Proof.Machine

/-- One step. A recorded fault ends the run (R186). Otherwise the next arrival is taken: a call runs to its end
(00_scope.md R6) or begins at its first line. With no arrival, a call in progress advances by one line
(10_state.md R22), and an idle engine waits (R199). -/
def step (s : State) : Host.Outcome State Fault Refusal :=
  match s.fault with
  | some f => .fault f
  | none =>
    match s.arrivals with
    | a :: rest => runArrival a { s with arrivals := rest }
    | [] => .next (line s)

/-- s with the request of a bare table word as the next arrival, so that the next step runs it (log 5, log 6). -/
def State.withFetchWord (s : State) (nbits w : Nat) : State :=
  { s with arrivals := .request (tableRequest nbits w) :: s.arrivals }

end Sys2Proof.Machine
end

