-- ==== Sys2Proof/Safety.lean ====
section
/-! DEFINITION. What counts as a safe run, and the invariant of the machine's records. -/

namespace Sys2Proof.Machine

/-- No fault is recorded and no call has been refused: the runs a claim may rest on (60_exceptions.md R185,
R186: "a faulted state is never a normal end of run"). -/
def State.clean (s : State) : Bool := s.fault.isNone && s.refusal.isNone

/-- The engine is between two calls (60_exceptions.md R199). -/
structure State.Idle (s : State) : Prop where
  pc : s.pc = Pos.idle
  stack : s.stack = []
  inCall : s.inCall = false
  locals : s.locals = Locals.clear

/-- The engine can take a call: no fault, an accepted configuration, no call in progress. -/
structure State.Ready (s : State) : Prop where
  fault : s.fault = none
  legal : s.cfg.legal = true
  inCall : s.inCall = false
  idle : s.pc.op = .idle

/-- The events an operation has added to the trace. -/
def newEvents (s t : State) : List Event := t.trace.drop s.trace.length

/-- The value of the n-th register read from now on, counting from 0: the environment's n-th answer (R9). -/
def State.drawAt (s : State) (n : Nat) : Word := (s.supply[n]?).getD (Config.freeRead (s.draws + n))

/-- s with n of the environment's answers consumed. -/
def State.afterReads (n : Nat) (s : State) : State :=
  { s with supply := s.supply.drop n, draws := s.draws + n }

/-- The values of the reads of one register among some events, in order. -/
def readsOf (r : Reg) : List Event → List Word
  | [] => []
  | .read r' v :: es => if r' = r then v :: readsOf r es else readsOf r es
  | .write _ _ :: es => readsOf r es
  | .store _ _ :: es => readsOf r es
  | .delay _ :: es => readsOf r es
  | .bringUp :: es => readsOf r es

/-- The values of all register reads among some events, in order. -/
def readValues : List Event → List Word
  | [] => []
  | .read _ v :: es => v :: readValues es
  | .write _ _ :: es => readValues es
  | .store _ _ :: es => readValues es
  | .delay _ :: es => readValues es
  | .bringUp :: es => readValues es

/-! ### The events the rules give, for stated answers of the environment -/

/-- The first n command polls: each read of CSTA, a delay between two (41_command.md R112, R118). -/
def pollEvents (s : State) (n : Nat) : List Event :=
  (List.range n).flatMap fun m =>
    (if m = 0 then [] else [Event.delay .cmdPollDelay]) ++ [Event.read .CSTA (s.drawAt m)]

/-- The capture of n response registers, the answers from number `at_` on (R114). -/
def captureEvents (s : State) (at_ n : Nat) : List Event :=
  (List.range n).map fun j => Event.read (rspReg j) (s.drawAt (at_ + j))

/-- The words of that capture. -/
def capturedWords (s : State) (at_ n : Nat) : List Word := (List.range n).map fun j => s.drawAt (at_ + j)

/-- n stop-and-reset rounds, each after a busy check: the checks take the answers 0, 2, 4, ... and the reads of
CON the answers between (42_data.md R132). -/
def roundEvents (s : State) (n : Nat) : List Event :=
  (List.range n).flatMap fun j =>
    [ Event.read .DSTA (s.drawAt (2 * j)),
      Event.write .DCON s.cfg.dconStopValue,
      Event.read .CON (s.drawAt (2 * j + 1)),
      Event.write .CON (s.drawAt (2 * j + 1) ||| s.cfg.layout.con.SDRESET.mask),
      Event.delay .settleDelay ]

/-- A burst of n words, the answers from number `at_` on, stored from buffer index i on (R141). -/
def burstEvents (s : State) (at_ i n : Nat) : List Event :=
  (List.range n).flatMap fun j =>
    [Event.read .DAT (s.drawAt (at_ + j)), Event.store (i + j) (s.drawAt (at_ + j))]

/-- Data memory after words are stored from buffer index i on (20_memory.md R53). -/
def storeWords (e : Endian) (d : DataDesc) : Memory → Nat → List Word → Memory
  | m, _, [] => m
  | m, i, w :: ws => storeWords e d (m.writeWord e (wordAddr d i) w) (i + 1) ws

/-- How many words the burst of an iteration reads whose FIFO status is answer number `at_`: FFCNT / 4 of that
same value if RFDET is 1, else none (R141). -/
def burstLen (s : State) (at_ : Nat) : Nat :=
  if fifoHasData s.cfg.layout (s.drawAt at_) then fifoWords s.cfg.layout (s.drawAt at_) else 0

/-- The number of the answer that is the FIFO status of data iteration n, counting from 0: each iteration before
has taken its FIFO status, its words and its transfer status (R142). -/
def iterationAt (s : State) : Nat → Nat
  | 0 => 0
  | n + 1 => iterationAt s n + burstLen s (iterationAt s n) + 2

/-- The words of the bursts of the first n iterations, in order. -/
def drainedWords (s : State) (n : Nat) : List Word :=
  (List.range n).flatMap fun m => capturedWords s (iterationAt s m + 1) (burstLen s (iterationAt s m))

/-- The transfer status of data iteration n. -/
def dataStatus (s : State) (n : Nat) : Word := s.drawAt (iterationAt s n + burstLen s (iterationAt s n) + 1)

/-- The events of data iteration n: the FIFO status; if RFDET is 1, the burst and one pause, a burst of 0 words
too, and otherwise neither; the transfer status (R141, R142). -/
def iterationEvents (s : State) (n : Nat) : List Event :=
  [Event.read .FSTA (s.drawAt (iterationAt s n))]
    ++ (if fifoHasData s.cfg.layout (s.drawAt (iterationAt s n)) then
          burstEvents s (iterationAt s n + 1) (drainedWords s n).length (burstLen s (iterationAt s n))
            ++ [Event.delay .drainPause]
        else [])
    ++ [Event.read .DSTA (dataStatus s n)]

/-- WAIT_AND_DRAIN called at s, at its L2 after n iterations that have not ended it (R140). -/
def atIteration (s : State) (d : DataDesc) (n : Nat) : State :=
  { s.afterReads (iterationAt s n) with
    i := n + 1
    w := (drainedWords s n).length
    mem := storeWords s.cfg.bufEndian d s.mem 0 (drainedWords s n)
    trace := s.trace ++ (List.range n).flatMap (iterationEvents s) }

/-! ### The invariant of the records -/

/-- `s.resp` is unpopulated or holds 1 or 4 words (10_state.md R42). -/
def respOk : Option (List Word) → Bool
  | none => true
  | some ws => ws.length == 1 || ws.length == 4

/-- A Command Outcome has 0, 1 or 4 words (R44). -/
def coutOk : CommandOutcome → Bool
  | .success ws => ws.length == 0 || ws.length == 1 || ws.length == 4
  | .timeout => true
  | .commError => true

/-- What `s.clk` says is what SET_CLOCK computes (R47, 40_clock.md R101 to R103): nothing before the first
SET_CLOCK, the divider of the requested frequency while enabled, and zero frequencies when disabled. -/
def clkOk (c : Config) (k : ClockState) : Bool :=
  match k.enabled with
  | none => k.requested.isNone && k.divider.isNone && k.actual.isNone
  | some true =>
    match k.requested with
    | some f => decide (0 < f) && k == clockOn c.fRef f (calcDivider c.fRef f)
    | none => false
  | some false => k.requested == some 0 && k.actual == some 0 && decide (k.divider.getD 0 ≤ 255)

/-- `s.last` is consistent (R48, 43_orchestrator.md R160): the data outcome is `final` when there is one, the
command's status is when there is none, and a command is left out only by a failed setup. -/
def lastOk : Option TransactionOutcome → Bool
  | none => true
  | some t =>
    match t.cmd, t.data with
    | none, none => false
    | some c, none => t.final == c.status && coutOk c
    | none, some a => t.final == a && a != .success
    | some c, some a => t.final == a && coutOk c

/-- The last label of a routine's pseudocode. -/
def lastLabel : Routine → Nat
  | .idle => 0
  | .initEngine => 5
  | .resetEngine => 3
  | .setClock => 5
  | .execute => 7
  | .calcDivider => 2
  | .sendCommand => 13
  | .armTransfer => 12
  | .waitAndDrain => 12
  | .clearAllStatus => 4
  | .controllerReset => 2
  | .issueStop => 2

/-- A position is a label of its routine, or Idle; only EXECUTE L3 is resumed after its call (R22). -/
def posOk (p : Pos) : Bool :=
  if p.op = .idle then p == Pos.idle
  else decide (1 ≤ p.line) && decide (p.line ≤ lastLabel p.op)
    && (!p.resumed || p == { op := .execute, line := 3, resumed := true })

/-- p is where a call of `callee` returns to (R22). -/
def returnsTo (callee : Routine) (p : Pos) : Bool :=
  match callee with
  | .clearAllStatus => p == label .execute 3
  | .armTransfer => p == { op := .execute, line := 3, resumed := true }
  | .sendCommand => p == label .execute 5
  | .waitAndDrain => p == label .execute 7
  | .controllerReset => p == label .resetEngine 2 || p == label .armTransfer 8
  | .issueStop => p == label .armTransfer 7
  | .idle => false
  | .initEngine => false
  | .resetEngine => false
  | .setClock => false
  | .execute => false
  | .calcDivider => false

/-- The stack below a routine holds the return positions of its callers (R22, 60_exceptions.md R190). -/
def stackOk : Routine → List Pos → Bool
  | _, [] => true
  | op, p :: rest => returnsTo op p && stackOk p.op rest

/-- The operation the host or a stage called: the outermost routine in progress. -/
def outermost : Routine → List Pos → Routine
  | op, [] => op
  | _, p :: rest => outermost p.op rest

/-- The host operations (60_exceptions.md R193). -/
def Routine.isHostOp : Routine → Bool
  | .initEngine => true
  | .resetEngine => true
  | .setClock => true
  | .execute => true
  | .idle => false
  | .calcDivider => false
  | .sendCommand => false
  | .armTransfer => false
  | .waitAndDrain => false
  | .clearAllStatus => false
  | .controllerReset => false
  | .issueStop => false

/-- The host operations that INITIALIZE must precede (R194). -/
def Routine.needsInit (op : Routine) : Bool := op.isHostOp && op != .initEngine

/-- SET_CLOCK's variables between its lines (40_clock.md R102). -/
def setClockOk (s : State) : Bool :=
  if s.pc.op = .setClock then
    (if s.pc.line = 2 then decide (0 < s.locals.freq)
     else if s.pc.line = 3 ∨ s.pc.line = 4 then
      decide (0 < s.locals.freq) && s.locals.div == calcDivider s.cfg.fRef s.locals.freq
     else true)
  else true

/-- The invariant of the records (10_state.md R20 to R51). -/
structure State.Inv (s : State) : Prop where
  /-- the data memory keeps its canonical form (log 17) -/
  mem : s.mem.wf = true
  /-- R42 -/
  resp : respOk s.resp = true
  /-- R47 -/
  clk : clkOk s.cfg s.clk = true
  /-- R48 -/
  last : lastOk s.last = true
  /-- R22 -/
  pc : posOk s.pc = true
  /-- R22 -/
  stack : stackOk s.pc.op s.stack = true
  /-- R24, R193 -/
  inCall : s.inCall = (outermost s.pc.op s.stack).isHostOp
  /-- R194 -/
  started : (outermost s.pc.op s.stack).needsInit = true → s.initialized = true
  /-- R194: before INITIALIZE no transaction has run and no clock is set -/
  before : s.initialized = false → s.last = none ∧ s.clk.enabled = none
  /-- R44 -/
  cout : coutOk s.locals.cout = true
  /-- R102 -/
  setClock : setClockOk s = true

end Sys2Proof.Machine
end

