-- ==== Sys2Proof/Certificates/Slice0/Obligations.lean ====
section
/-! DEFINITION. The statements for the provers. Each docstring names the rules of spec/ it formalises. Where a
value is the model's choice, the docstring names the log entry. -/

open Sys2Proof Sys2Proof.Machine

/-! ### Helpers of the statements -/

/-- What a refused call leaves: no event, the mark (the first one stays), and the refusal as the result
(60_exceptions.md R185; that the first mark stays is log 3). -/
def Sys2Proof.Machine.turnedAway (r : RefuseReason) (s : State) : State :=
  { s with refusal := some (s.refusal.getD r), result := some (.refused r) }

/-- The outcome of SEND_COMMAND for a terminal status, the response being answered from number n on (41_command.md
R113, R114). -/
def Sys2Proof.Machine.outcomeOf (s : State) (d : CommandDesc) (n : Nat) : CmdVerdict → CommandOutcome
  | .timeout => .timeout
  | .commError => .commError
  | .respond => .success (capturedWords s n d.respWords)
  | .sent => .success []

/-- How many response registers SEND_COMMAND reads for a terminal status (R114). -/
def Sys2Proof.Machine.captured (d : CommandDesc) : CmdVerdict → Nat
  | .timeout => 0
  | .commError => 0
  | .respond => d.respWords
  | .sent => 0

/-- The slot it leaves: populated only by a response (10_state.md R42; log 15). -/
def Sys2Proof.Machine.slotOf (s : State) (d : CommandDesc) (n : Nat) : CmdVerdict → Option (List Word)
  | .timeout => none
  | .commError => none
  | .respond => some (capturedWords s n d.respWords)
  | .sent => none

/-- The three clears of CLEAR_ALL_STATUS (43_orchestrator.md R166). -/
def Sys2Proof.Machine.clearEvents (c : Config) : List Event :=
  [.write .CSTA c.cmdstaClear, .write .DSTA c.dstaClear, .write .FSTA c.fstaClear]

/-- The state after SEND_COMMAND's events, but for the result: n answers give no terminal status, answer n the
verdict v (R110, R118). -/
def Sys2Proof.Machine.afterCommand (s : State) (d : CommandDesc) (n : Nat) (v : CmdVerdict) : State :=
  { s.afterReads (n + 1 + captured d v) with
    i := n + 1
    resp := slotOf s d (n + 1) v
    trace := s.trace ++ [.write .CARG (BitVec.ofNat 32 d.arg), .write .CCON (d.ccon s.cfg.layout)]
      ++ pollEvents s (n + 1) ++ captureEvents s (n + 1) (captured d v)
      ++ [.write .CSTA s.cfg.cmdstaClear] }

/-- The events each operation may produce: which registers it reads and writes, the clear masks whole, and
which delays (10_state.md R40). -/
def Sys2Proof.Machine.commandEvent (c : Config) (d : CommandDesc) : Event → Bool
  | .read r _ => r == .CSTA || r == .RSP0 || r == .RSP1 || r == .RSP2 || r == .RSP3
  | .write .CARG v => v == BitVec.ofNat 32 d.arg
  | .write .CCON v => v == d.ccon c.layout
  | .write .CSTA v => v == c.cmdstaClear
  | .write _ _ => false
  | .store _ _ => false
  | .delay k => k == .cmdPollDelay
  | .bringUp => false

def Sys2Proof.Machine.armEvent (c : Config) (d : DataDesc) : Event → Bool
  | .read r _ => r == .DSTA || r == .CON
  | .write .DCON v => v == d.dcon c.layout || v == c.dconStopValue
  | .write .BSIZE v => v == BitVec.ofNat 32 d.blockSize
  | .write .DTIMER v => v == c.dataTimeout
  | .write .CON _ => true
  | .write _ _ => false
  | .store _ _ => false
  | .delay k => k == .settleDelay
  | .bringUp => false

def Sys2Proof.Machine.waitEvent (c : Config) : Event → Bool
  | .read r _ => r == .FSTA || r == .DSTA || r == .DAT
  | .write .FSTA v => v == c.fstaClear
  | .write .DSTA v => v == c.dstaClear
  | .write _ _ => false
  | .store _ _ => true
  | .delay k => k == .drainPause
  | .bringUp => false

def Sys2Proof.Machine.mayEmit (c : Config) : Instr → Event → Bool
  | .initEngine, e => e == .bringUp || e == .write .IMSK 0#32
  | .resetEngine, .read r _ => r == .CON
  | .resetEngine, .write r _ => r == .CON
  | .resetEngine, e => e == .delay .settleDelay
  | .setClock _, .read r _ => r == .CON
  | .setClock f, .write r v => r == .CON || (r == .PRE && f != 0 && decide (v.toNat ≤ 255))
  | .setClock _, _ => false
  | .execute cmd data, e =>
    (clearEvents c).contains e || commandEvent c cmd e
      || (match data with
          | some d => armEvent c d e || (d.dir == .read && waitEvent c e)
          | none => false)
  | .calcDivider _ _, _ => false
  | .sendCommand cmd, e => commandEvent c cmd e
  | .armTransfer d, e => d.dir == .read && armEvent c d e
  | .waitAndDrain _, e => waitEvent c e
  | .clearAllStatus, e => (clearEvents c).contains e
  | .controllerReset, .read r _ => r == .CON
  | .controllerReset, .write r _ => r == .CON
  | .controllerReset, _ => false
  | .issueStop, e => e == .write .DCON c.dconStopValue
  | .cconNoresp index, e => e == .write .CCON (cconWord c.layout index.toNat false false)
  | .cconShort index, e => e == .write .CCON (cconWord c.layout index.toNat true false)
  | .cconLong index, e => e == .write .CCON (cconWord c.layout index.toNat true true)
  | .dconRead wide n, e => e == .write .DCON (dconReadWord c.layout n.toNat wide)
  | .dconStop, e => e == .write .DCON c.dconStopValue

/-- The buffer an instruction may store to. -/
def Sys2Proof.Machine.bufferOf : Instr → Option DataDesc
  | .execute _ data => data
  | .waitAndDrain d => some d
  | .initEngine => none
  | .resetEngine => none
  | .setClock _ => none
  | .calcDivider _ _ => none
  | .sendCommand _ => none
  | .armTransfer _ => none
  | .clearAllStatus => none
  | .controllerReset => none
  | .issueStop => none
  | .cconNoresp _ => none
  | .cconShort _ => none
  | .cconLong _ => none
  | .dconRead _ _ => none
  | .dconStop => none

/-! ### Encodings -/

/-- Words written out from R71, R73, R75 and R76 decode to their instructions. -/
def Obligations.WrittenWordsDecode : Prop :=
  decode (.host 0x00000001#32 Operands.blank) = .ok .resetEngine ∧
  decode (.host 0x00000002#32 { Operands.blank with f := 400000 }) = .ok (.setClock 400000) ∧
  decode (.host 0x00000005#32 Operands.blank) = .error .internalOp ∧
  decode (.host 0x00000013#32 Operands.blank) = .error .reservedBits ∧
  decode (.control .CCON 0x00000351#32) = .ok (.cconShort 17#6) ∧
  decode (.control .CCON 0x00000742#32) = .ok (.cconLong 2#6) ∧
  decode (.control .DCON 0x008B6008#32) = .ok (.dconRead true 8#12) ∧
  decode (.control .DCON 0x00004000#32) = .ok .dconStop

/-- Every well-formed instruction, with every operand value, decodes back from its encoding; and what a request
decodes to is encoded by that request's own word (R71, R73, R75, R76). -/
def Obligations.DecodeAndEncodeAgree : Prop :=
  (∀ (c : Config) (i : Instr), i.wellFormed c = true → decode (encode i) = .ok i) ∧
  (∀ (r : Request) (i : Instr), decode r = .ok i → (encode i).word = r.word ∧ decode (encode i) = .ok i)

/-- R71, R84: the host's four operations, the seven internal ones, and the refusal of every other host word and
of a frequency of 2^32 or more. That the refusal is BadRequest during a call (R193) and before INITIALIZE (R194)
too, and no other reason, is the model's choice of an order, log 13. -/
def Obligations.HostRequestsByOperationCode : Prop :=
  (∀ o : Operands,
    decode (.host 0#32 o) = .ok .initEngine ∧
    decode (.host 1#32 o) = .ok .resetEngine ∧
    (o.f < 2 ^ 32 → decode (.host 2#32 o) = .ok (.setClock o.f)) ∧
    decode (.host 3#32 o) = .ok (.execute o.cmd (if o.hasData then some o.data else none)) ∧
    decode (.internal 4#32 o) = .ok (.calcDivider o.fRef o.f) ∧
    decode (.internal 5#32 o) = .ok (.sendCommand o.cmd) ∧
    decode (.internal 6#32 o) = .ok (.armTransfer o.data) ∧
    decode (.internal 7#32 o) = .ok (.waitAndDrain o.data) ∧
    decode (.internal 8#32 o) = .ok .clearAllStatus ∧
    decode (.internal 9#32 o) = .ok .controllerReset ∧
    decode (.internal 10#32 o) = .ok .issueStop) ∧
  (∀ (s : State) (w : Word) (o : Operands), s.fault = none → s.cfg.legal = true →
    (4 ≤ w.toNat ∨ (w = 2#32 ∧ 2 ^ 32 ≤ o.f)) →
    runRequest (.host w o) s = .next (turnedAway .badRequest s) ∧
    beginRequest (.host w o) s = .next (turnedAway .badRequest s))

/-- R83: the columns of the opcode table are those of the encodings, and no word falls under the rows of two
different constructors. -/
def Obligations.TableRowsAreDisjoint : Prop :=
  (∀ i : Instr, (encode i).word &&& i.tableMask = i.tableMatch) ∧
  (∀ (i j : Instr) (w : Word), w &&& i.tableMask = i.tableMatch → w &&& j.tableMask = j.tableMatch →
    i.ctorIdx = j.ctorIdx)

/-- R72: the composition of CCON by its fields under any layout, its value under the default layout, and the
bits that stay 0. -/
def Obligations.CconIsComposedOfItsFields : Prop :=
  (∀ (l : Layout) (d : CommandDesc), d.ccon l =
    (let v := l.ccon.START.put (l.ccon.HOST.put (l.ccon.INDEX.put 0#32 d.index) 1) 1
     if d.present then
       (if d.long then l.ccon.LONGRSP.put (l.ccon.WAITRSP.put v 1) 1 else l.ccon.WAITRSP.put v 1)
     else v)) ∧
  (∀ d : CommandDesc, d.index ≤ 63 →
    d.ccon Layout.s3c2440 = BitVec.ofNat 32 d.index ||| 0x140#32 ||| (if d.present then 0x200#32 else 0#32)
      ||| (if d.present && d.long then 0x400#32 else 0#32) ∧
    ∀ b, (11 ≤ b ∨ b = 7) → (d.ccon Layout.s3c2440).getLsbD b = false)

/-- R73: the three forms of CCON, told apart by bits [31:6], under the default layout; each decodes to its form
with the index. -/
def Obligations.CconHasThreeForms : Prop :=
  ∀ d : CommandDesc, d.wellFormed = true →
    (d.present = false → d.ccon Layout.s3c2440 &&& 0xFFFFFFC0#32 = 0x140#32 ∧
      decodeCcon (d.ccon Layout.s3c2440) = .ok (.cconNoresp (BitVec.ofNat 6 d.index))) ∧
    (d.present = true → d.long = false → d.ccon Layout.s3c2440 &&& 0xFFFFFFC0#32 = 0x340#32 ∧
      decodeCcon (d.ccon Layout.s3c2440) = .ok (.cconShort (BitVec.ofNat 6 d.index))) ∧
    (d.present = true → d.long = true → d.ccon Layout.s3c2440 &&& 0xFFFFFFC0#32 = 0x740#32 ∧
      decodeCcon (d.ccon Layout.s3c2440) = .ok (.cconLong (BitVec.ofNat 6 d.index))) ∧
    ¬ (Layout.s3c2440.ccon.WAITRSP.get (d.ccon Layout.s3c2440) = 0 ∧
       Layout.s3c2440.ccon.LONGRSP.get (d.ccon Layout.s3c2440) = 1)

/-- R75: the composition of the DCON read form by its fields under any layout, its value under the default
layout, and its match under its mask. -/
def Obligations.DconIsComposedOfItsFields : Prop :=
  (∀ (l : Layout) (d : DataDesc), d.dcon l =
    l.dcon.DSIZE.put (l.dcon.RACMD.put (l.dcon.BLKMODE.put (l.dcon.WIDE.put (l.dcon.START.put
      (l.dcon.DATMODE.put (l.dcon.BLKNUM.put 0#32 d.blockCount) 2) 1)
      (if d.width = 4 then 1 else 0)) 1) 1) 2) ∧
  (∀ d : DataDesc, d.blockCount ≤ 4095 →
    d.dcon Layout.s3c2440 =
      0x008A6000#32 ||| (if d.width = 4 then 0x00010000#32 else 0#32) ||| BitVec.ofNat 32 d.blockCount ∧
    d.dcon Layout.s3c2440 &&& 0xFFFEF000#32 = 0x008A6000#32)

/-- R79: the code of each name, crc in bit 2 and present in bit 0, and the three codes without a name; R80: a
descriptor is well formed exactly when its index and argument are in range and its code has a name; R87: the
response length each shape selects. -/
def Obligations.ShapeCodesAndResponseLengths : Prop :=
  (Shape.NONE.code = 0b000#3 ∧ Shape.R.code = 0b001#3 ∧ Shape.RC.code = 0b101#3 ∧ Shape.L.code = 0b011#3 ∧
    Shape.LC.code = 0b111#3) ∧
  (∀ (b : BitVec 3) (n : Shape), Shape.ofCode b = some n ↔ n.code = b) ∧
  (Shape.ofCode 0b010#3 = none ∧ Shape.ofCode 0b100#3 = none ∧ Shape.ofCode 0b110#3 = none) ∧
  (∀ d : CommandDesc, d.shapeCode.getLsbD 2 = d.crc ∧ d.shapeCode.getLsbD 1 = d.long ∧
    d.shapeCode.getLsbD 0 = d.present) ∧
  (∀ (index arg : Nat) (b : BitVec 3), (CommandDesc.ofCode index arg b).shapeCode = b) ∧
  (∀ d : CommandDesc, d.wellFormed = true ↔
    d.index ≤ 63 ∧ d.arg < 2 ^ 32 ∧ (Shape.ofCode d.shapeCode).isSome = true) ∧
  (∀ d : CommandDesc, (d.present = true ∧ d.long = true → d.respWords = 4) ∧
    (d.present = true ∧ d.long = false → d.respWords = 1) ∧ (d.present = false → d.respWords = 0))

/-- R56, R59, R81: in an accepted read descriptor every word the capacity admits is aligned, lies below 2^32 and
does not meet the register block, and the capacity holds the whole transfer. -/
def Obligations.AcceptedBufferHoldsTheTransfer : Prop :=
  ∀ (c : Config) (d : DataDesc), d.dir = .read → d.accepted c = true →
    d.blockCount * d.blockSize ≤ d.bufCapacity ∧
    ∀ i, 4 * i + 4 ≤ d.bufCapacity →
      wordAddr d i % 4 = 0 ∧ wordAddr d i + 4 ≤ 2 ^ 32 ∧
      (wordAddr d i + 4 ≤ c.regBase.toNat ∨ c.regBase.toNat + 0x43 < wordAddr d i)

/-! ### Clock -/

/-- R104: (a) the divider is at most 255; (b) it is the least that satisfies the bound, if one of 0 to 255
does; (c) otherwise it is 255; (d) in particular below F_REF / 256. -/
def Obligations.DividerIsLeastInRange : Prop :=
  ∀ fRef f : Nat, 0 < f → 0 < fRef →
    calcDivider fRef f ≤ 255 ∧
    (∀ d, d ≤ 255 → fRef / (d + 1) ≤ f →
      fRef / (calcDivider fRef f + 1) ≤ f ∧ calcDivider fRef f ≤ d) ∧
    ((∀ d, d ≤ 255 → ¬ fRef / (d + 1) ≤ f) → calcDivider fRef f = 255) ∧
    (f < fRef / 256 → calcDivider fRef f = 255)

/-- R100: CALC_DIVIDER returns min(255, f_ref / (f + 1)); no state is written and there is no event. -/
def Obligations.CalcDividerReturnsItsClosedForm : Prop :=
  ∀ (s : State) (fRef f : Nat), s.Ready → 0 < fRef →
    exec (.calcDivider fRef f) s = .next { s with result := some (.divider (min 255 (fRef / (f + 1)))) }

/-- R101: the actual frequency is at most the requested one exactly in the unclamped case, and the divider is
then the smallest with that property. -/
def Obligations.ActualFrequencyIsBoundedUnlessClamped : Prop :=
  ∀ fRef f : Nat, 0 < f → 0 < fRef →
    (fRef / (f + 1) ≤ 255 →
      fRef / (calcDivider fRef f + 1) ≤ f ∧
      ∀ d, fRef / (d + 1) ≤ f → calcDivider fRef f ≤ d) ∧
    (255 < fRef / (f + 1) →
      calcDivider fRef f = 255 ∧ fRef / (calcDivider fRef f + 1) = fRef / 256 ∧ f < fRef / 256)

/-- R102, R103: SET_CLOCK(f) writes the divider, then enables the clock with a read-modify-write of CON;
SET_CLOCK(0) only clears the enable bit and keeps the divider of s.clk. Nothing else changes. -/
def Obligations.SetClockWritesDividerAndEnable : Prop :=
  ∀ (s : State) (f : Nat), s.Ready → s.initialized = true →
    (0 < f → f < 2 ^ 32 →
      exec (.setClock f) s = .next { s.afterReads 1 with
        clk := { requested := some f
                 divider := some (calcDivider s.cfg.fRef f)
                 actual := some (s.cfg.fRef / (calcDivider s.cfg.fRef f + 1))
                 enabled := some true }
        trace := s.trace ++
          [ .write .PRE (BitVec.ofNat 32 (calcDivider s.cfg.fRef f)),
            .read .CON (s.drawAt 0),
            .write .CON (s.drawAt 0 ||| s.cfg.layout.con.ENCLK.mask) ]
        result := some .done }) ∧
    exec (.setClock 0) s = .next { s.afterReads 1 with
      clk := { requested := some 0, divider := s.clk.divider, actual := some 0, enabled := some false }
      trace := s.trace ++
        [ .read .CON (s.drawAt 0), .write .CON (s.drawAt 0 &&& ~~~s.cfg.layout.con.ENCLK.mask) ]
      result := some .done }

/-- R77, under the default layout: the values of the CON masks; R16: get after put reads back a value that fits
the field. R11: under every layout the index, block count and divider fields hold 63, 4095 and 255 and every
value below. -/
def Obligations.FieldPutThenGet : Prop :=
  Layout.s3c2440.con.ENCLK.mask = 0x00000001#32 ∧ Layout.s3c2440.con.SDRESET.mask = 0x00000100#32 ∧
  (∀ (f : Field) (v : Word) (x : Nat), f.lo + f.width ≤ 32 → x < 2 ^ f.width →
    f.get (f.put v x) = x ∧ ∀ b, (b < f.lo ∨ f.lo + f.width ≤ b) → (f.put v x).getLsbD b = v.getLsbD b) ∧
  (∀ (l : Layout) (v : Word) (x : Nat),
    (x ≤ 63 → l.ccon.INDEX.get (l.ccon.INDEX.put v x) = x) ∧
    (x ≤ 4095 → l.dcon.BLKNUM.get (l.dcon.BLKNUM.put v x) = x) ∧
    (x ≤ 255 → l.preDIV.get (l.preDIV.put v x) = x))

/-! ### Command -/

/-- R113, under any layout: the order TOUT, CRCFAIL only if the descriptor checks CRC, RSPFIN only if a response is
expected, SENT only if none is. R78: under the default layout these are bits 10, 12, 9 and 11. -/
def Obligations.CommandStatusIsTestedInOrder : Prop :=
  (∀ (l : Layout) (d : CommandDesc) (v : Word), cmdVerdict l d v =
    if l.csta.TOUT.get v = 1 then some .timeout
    else if l.csta.CRCFAIL.get v = 1 ∧ d.crc = true then some .commError
    else if d.present = true ∧ l.csta.RSPFIN.get v = 1 then some .respond
    else if d.present = false ∧ l.csta.SENT.get v = 1 then some .sent
    else none) ∧
  (∀ (d : CommandDesc) (v : Word), cmdVerdict Layout.s3c2440 d v =
    if v.getLsbD 10 then some .timeout
    else if v.getLsbD 12 && d.crc then some .commError
    else if d.present && v.getLsbD 9 then some .respond
    else if !d.present && v.getLsbD 11 then some .sent
    else none)

/-- R110, R111, R114, R116, R118: a call whose poll n + 1 is the first with a terminal status: the argument, the
launch, n + 1 reads with n delays between, the response reads, one clear; the outcome; the slot; nothing else
changes. That a Success without a response leaves the slot unpopulated (R42, where R110 L13 stores an empty
out.resp) is the model's choice, log 15. -/
def Obligations.SendCommandEndsAtTheFirstTerminalStatus : Prop :=
  ∀ (s : State) (d : CommandDesc) (n : Nat) (v : CmdVerdict), s.Ready → d.wellFormed = true →
    n < s.cfg.cmdPollMax →
    (∀ m, m < n → cmdVerdict s.cfg.layout d (s.drawAt m) = none) →
    cmdVerdict s.cfg.layout d (s.drawAt n) = some v →
    exec (.sendCommand d) s =
      .next { afterCommand s d n v with result := some (.command (outcomeOf s d (n + 1) v)) }

/-- R115, R116: CMD_POLL_MAX reads without a terminal status give Timeout, with CMD_POLL_MAX - 1 delays. -/
def Obligations.SendCommandTimesOutWhenTheBudgetIsSpent : Prop :=
  ∀ (s : State) (d : CommandDesc), s.Ready → d.wellFormed = true →
    (∀ m, m < s.cfg.cmdPollMax → cmdVerdict s.cfg.layout d (s.drawAt m) = none) →
    exec (.sendCommand d) s = .next { s.afterReads s.cfg.cmdPollMax with
      i := s.cfg.cmdPollMax
      resp := none
      trace := s.trace ++ [.write .CARG (BitVec.ofNat 32 d.arg), .write .CCON (d.ccon s.cfg.layout)]
        ++ pollEvents s s.cfg.cmdPollMax ++ [.write .CSTA s.cfg.cmdstaClear]
      result := some (.command .timeout) }

/-- R42, R186, R211: a reader of the response slot gets the word, or the fault; the fault stops every later step.
(The read as an arrival is log 21; the fault's record in a next state, and as its result, is log 2.) -/
def Obligations.ReadingAnUnpopulatedResponseFaults : Prop :=
  ∀ (s : State) (j : Nat) (rest : List Arrival), s.fault = none → s.arrivals = .readResponse j :: rest →
    (∀ ws w, s.resp = some ws → ws[j]? = some w →
      step s = .next { s with arrivals := rest, result := some (.responseWord w) }) ∧
    ((s.resp = none ∨ ∃ ws, s.resp = some ws ∧ ws.length ≤ j) →
      ∃ t, step s = .next t ∧ t = { s with
          arrivals := rest, fault := some .readUnpopulatedResponse
          result := some (.faulted .readUnpopulatedResponse) } ∧
        step t = .fault .readUnpopulatedResponse)

/-! ### Data -/

/-- R131, R143, under any layout: busy is TXON or RXON; RXCRCFAIL, DTOUT, DATFIN in this order; RFDET and FFCNT / 4.
R78: under the default layout these are bits 1 and 0; 6, 5 and 4; 12 and [6:0]. -/
def Obligations.DataStatusIsTestedInOrder : Prop :=
  (∀ (l : Layout) (v : Word),
    (transferBusy l v = false ↔ l.dsta.TXON.get v = 0 ∧ l.dsta.RXON.get v = 0) ∧
    dataVerdict l v =
      (if l.dsta.RXCRCFAIL.get v = 1 then some .commError
       else if l.dsta.DTOUT.get v = 1 then some .timeout
       else if l.dsta.DATFIN.get v = 1 then some .finished
       else none) ∧
    (fifoHasData l v = true ↔ l.fsta.RFDET.get v = 1) ∧ fifoWords l v = l.fsta.FFCNT.get v / 4) ∧
  (∀ v : Word,
    transferBusy Layout.s3c2440 v = (v.getLsbD 1 || v.getLsbD 0) ∧
    dataVerdict Layout.s3c2440 v =
      (if v.getLsbD 6 then some .commError
       else if v.getLsbD 5 then some .timeout
       else if v.getLsbD 4 then some .finished
       else none) ∧
    fifoHasData Layout.s3c2440 v = v.getLsbD 12 ∧
    fifoWords Layout.s3c2440 v = v.toNat % 128 / 4)

/-- R136: a write-direction descriptor, whatever its other fields: Unsupported and no event. -/
def Obligations.ArmTransferRejectsWrites : Prop :=
  ∀ (s : State) (d : DataDesc), s.Ready → d.dir = .write →
    exec (.armTransfer d) s = .next { s with result := some (.transfer .unsupported) }

/-- R130, R131, R132, R134: n busy checks, each followed by a round, then a quiet one: the three programming
writes in order, and Success. -/
def Obligations.ArmTransferProgramsAfterTheRounds : Prop :=
  ∀ (s : State) (d : DataDesc) (n : Nat), s.Ready → d.dir = .read → d.accepted s.cfg = true →
    n ≤ s.cfg.armRetryMax →
    (∀ m, m < n → transferBusy s.cfg.layout (s.drawAt (2 * m)) = true) →
    transferBusy s.cfg.layout (s.drawAt (2 * n)) = false →
    exec (.armTransfer d) s = .next { s.afterReads (2 * n + 1) with
      k := n
      trace := s.trace ++ roundEvents s n ++ [.read .DSTA (s.drawAt (2 * n))] ++
        [ .write .DCON (d.dcon s.cfg.layout),
          .write .BSIZE (BitVec.ofNat 32 d.blockSize),
          .write .DTIMER s.cfg.dataTimeout ]
      result := some (.transfer .success) }

/-- R133, R137: busy at every check: ARM_RETRY_MAX rounds, one more check, CommError and no programming write. -/
def Obligations.ArmTransferGivesUpOnAStuckTransfer : Prop :=
  ∀ (s : State) (d : DataDesc), s.Ready → d.dir = .read → d.accepted s.cfg = true →
    (∀ m, m ≤ s.cfg.armRetryMax → transferBusy s.cfg.layout (s.drawAt (2 * m)) = true) →
    exec (.armTransfer d) s = .next { s.afterReads (2 * s.cfg.armRetryMax + 1) with
      k := s.cfg.armRetryMax
      trace := s.trace ++ roundEvents s s.cfg.armRetryMax
        ++ [.read .DSTA (s.drawAt (2 * s.cfg.armRetryMax))]
      result := some (.transfer .commError) }

/-- R140 to R145, R147: every run that does not fault. (That the operation runs by itself on a descriptor nothing has
armed, here and in the statements below, is log 31.) The first n iterations find no terminal status and iteration
n, counting from 0, ends the poll. Each iteration reads FSTA, bursts FFCNT / 4 words of that value and pauses
exactly when its RFDET is 1, and reads DSTA (`iterationEvents`). CommError, Timeout and the spent budget make no
final drain; DATFIN makes one of m words, whatever RFDET says, without a pause. All words go to the buffer in
order; then the two clears; nothing else changes. -/
def Obligations.WaitAndDrainReadsABurstAndTheResidue : Prop :=
  ∀ (s : State) (d : DataDesc) (n : Nat), s.Ready → d.dir = .read → d.accepted s.cfg = true →
    n < s.cfg.dataPollMax → (∀ m, m < n → dataVerdict s.cfg.layout (dataStatus s m) = none) →
    4 * (drainedWords s (n + 1)).length ≤ d.bufCapacity →
    (∀ o : OutcomeKind,
      (dataVerdict s.cfg.layout (dataStatus s n) = some .commError ∧ o = .commError ∨
        dataVerdict s.cfg.layout (dataStatus s n) = some .timeout ∧ o = .timeout ∨
        dataVerdict s.cfg.layout (dataStatus s n) = none ∧ n + 1 = s.cfg.dataPollMax ∧ o = .timeout) →
      exec (.waitAndDrain d) s = .next { s.afterReads (iterationAt s (n + 1)) with
        i := n + 1
        w := (drainedWords s (n + 1)).length
        mem := storeWords s.cfg.bufEndian d s.mem 0 (drainedWords s (n + 1))
        trace := s.trace ++ (List.range (n + 1)).flatMap (iterationEvents s)
          ++ [.write .FSTA s.cfg.fstaClear, .write .DSTA s.cfg.dstaClear]
        result := some (.transfer o) }) ∧
    (∀ a m : Nat, dataVerdict s.cfg.layout (dataStatus s n) = some .finished →
      iterationAt s (n + 1) = a → fifoWords s.cfg.layout (s.drawAt a) = m →
      4 * ((drainedWords s (n + 1)).length + m) ≤ d.bufCapacity →
      exec (.waitAndDrain d) s = .next { s.afterReads (a + m + 1) with
        i := n + 1
        w := (drainedWords s (n + 1)).length + m
        mem := storeWords s.cfg.bufEndian d s.mem 0 (drainedWords s (n + 1) ++ capturedWords s (a + 1) m)
        trace := s.trace ++ (List.range (n + 1)).flatMap (iterationEvents s)
          ++ [.read .FSTA (s.drawAt a)] ++ burstEvents s (a + 1) (drainedWords s (n + 1)).length m
          ++ [.write .FSTA s.cfg.fstaClear, .write .DSTA s.cfg.dstaClear]
        result := some (.transfer .success) })

/-- R143, R145, R147, R150: WAIT_AND_DRAIN always ends; unless it faults, every DSTA value but the last is not
terminal, the last one decides the outcome, with none it is Timeout after DATA_POLL_MAX iterations, and the two
clears are its only writes, at the end. -/
def Obligations.WaitAndDrainIsDecidedByTheLastStatus : Prop :=
  ∀ (s : State) (d : DataDesc), s.Ready → d.dir = .read → d.accepted s.cfg = true →
    ∃ t, exec (.waitAndDrain d) s = .next t ∧ (t.fault = none →
      ∃ es vs v,
        t.trace = s.trace ++ es ++ [.write .FSTA s.cfg.fstaClear, .write .DSTA s.cfg.dstaClear] ∧
        (∀ r x, Event.write r x ∉ es) ∧
        readsOf .DSTA es = vs ++ [v] ∧
        (∀ u ∈ vs, dataVerdict s.cfg.layout u = none) ∧
        t.i = vs.length + 1 ∧ t.i ≤ s.cfg.dataPollMax ∧
        (dataVerdict s.cfg.layout v = some .commError → t.result = some (.transfer .commError)) ∧
        (dataVerdict s.cfg.layout v = some .timeout → t.result = some (.transfer .timeout)) ∧
        (dataVerdict s.cfg.layout v = some .finished → t.result = some (.transfer .success)) ∧
        (dataVerdict s.cfg.layout v = none →
          t.result = some (.transfer .timeout) ∧ t.i = s.cfg.dataPollMax))

/-- R53, R148, R149: the first s.w words read from DAT stand in the buffer in read order and byte order, s.w is
their number, no word past the capacity is stored, and every other byte of memory is as before. -/
def Obligations.WaitAndDrainStoresTheWordsInOrder : Prop :=
  ∀ (s : State) (d : DataDesc), s.Ready → d.dir = .read → d.accepted s.cfg = true →
    ∃ t es, exec (.waitAndDrain d) s = .next t ∧ t.trace = s.trace ++ es ∧
      t.w ≤ (readsOf .DAT es).length ∧ (t.fault = none → t.w = (readsOf .DAT es).length) ∧
      4 * t.w ≤ d.bufCapacity ∧
      (∀ i j, i < t.w → j < 4 →
        t.mem.read (wordAddr d i + j) = ((readsOf .DAT es)[i]?).map (wordByte s.cfg.bufEndian · j)) ∧
      (∀ a, (a < wordAddr d 0 ∨ wordAddr d t.w ≤ a) → t.mem.read a = s.mem.read a)

/-- R146, R186: a burst of the poll, at any iteration n, or the final drain has more words than the capacity holds
after those stored before: the c words that fit are stored, the next one is read and not stored, the fault is
recorded, no clear is written, and no later step goes on. (That the state with the record is a next state, that
pc stays at the line, and that the result is the fault, is log 2.) -/
def Obligations.WaitAndDrainFaultsPastTheCapacity : Prop :=
  ∀ (s : State) (d : DataDesc) (n a c : Nat), s.Ready → d.dir = .read → d.accepted s.cfg = true →
    n < s.cfg.dataPollMax → (∀ m, m < n → dataVerdict s.cfg.layout (dataStatus s m) = none) →
    c < fifoWords s.cfg.layout (s.drawAt a) →
    (iterationAt s n = a → fifoHasData s.cfg.layout (s.drawAt a) = true →
      d.bufCapacity / 4 = (drainedWords s n).length + c →
      ∃ t, exec (.waitAndDrain d) s = .next t ∧
        t = { s.afterReads (a + c + 2) with
          i := n + 1
          w := d.bufCapacity / 4
          mem := storeWords s.cfg.bufEndian d s.mem 0 (drainedWords s n ++ capturedWords s (a + 1) c)
          trace := s.trace ++ (List.range n).flatMap (iterationEvents s) ++ [.read .FSTA (s.drawAt a)]
            ++ burstEvents s (a + 1) (drainedWords s n).length c ++ [.read .DAT (s.drawAt (a + c + 1))]
          fault := some (.bufferOverrun (d.bufCapacity / 4))
          pc := { op := .waitAndDrain, line := 3, resumed := false }
          result := some (.faulted (.bufferOverrun (d.bufCapacity / 4))) } ∧
        step t = .fault (.bufferOverrun (d.bufCapacity / 4))) ∧
    (dataVerdict s.cfg.layout (dataStatus s n) = some .finished → iterationAt s (n + 1) = a →
      d.bufCapacity / 4 = (drainedWords s (n + 1)).length + c →
      ∃ t, exec (.waitAndDrain d) s = .next t ∧
        t = { s.afterReads (a + c + 2) with
          i := n + 1
          w := d.bufCapacity / 4
          mem := storeWords s.cfg.bufEndian d s.mem 0 (drainedWords s (n + 1) ++ capturedWords s (a + 1) c)
          trace := s.trace ++ (List.range (n + 1)).flatMap (iterationEvents s) ++ [.read .FSTA (s.drawAt a)]
            ++ burstEvents s (a + 1) (drainedWords s (n + 1)).length c ++ [.read .DAT (s.drawAt (a + c + 1))]
          fault := some (.bufferOverrun (d.bufCapacity / 4))
          pc := { op := .waitAndDrain, line := 7, resumed := false }
          result := some (.faulted (.bufferOverrun (d.bufCapacity / 4))) } ∧
        step t = .fault (.bufferOverrun (d.bufCapacity / 4)))

/-- R146: whenever WAIT_AND_DRAIN faults, the index is s.w, it lies past the capacity, the last event is the read
of the word that was not stored, and no register has been written. -/
def Obligations.OverrunLeavesNoExitClear : Prop :=
  ∀ (s t : State) (d : DataDesc) (f : Fault), s.Ready → exec (.waitAndDrain d) s = .next t → t.fault = some f →
    f = .bufferOverrun t.w ∧ d.bufCapacity < 4 * t.w + 4 ∧
    ∃ es v, t.trace = s.trace ++ es ++ [.read .DAT v] ∧ ∀ r x, Event.write r x ∉ es

/-! ### Orchestrator and host operations -/

/-- R166: three clears in order, Done, and nothing else changes. -/
def Obligations.ClearAllStatusWritesThreeMasks : Prop :=
  ∀ s : State, s.Ready →
    exec .clearAllStatus s = .next { s with
      trace := s.trace ++
        [.write .CSTA s.cfg.cmdstaClear, .write .DSTA s.cfg.dstaClear, .write .FSTA s.cfg.fstaClear]
      result := some .done }

/-- R171: one read-modify-write that sets CON.SDRESET; s.clk and all else stay. -/
def Obligations.ControllerResetSetsSdreset : Prop :=
  ∀ s : State, s.Ready →
    exec .controllerReset s = .next { s.afterReads 1 with
      trace := s.trace ++
        [.read .CON (s.drawAt 0), .write .CON (s.drawAt 0 ||| s.cfg.layout.con.SDRESET.mask)]
      result := some .done }

/-- R172: one write of the stop value to DCON. -/
def Obligations.IssueStopWritesTheStopValue : Prop :=
  ∀ s : State, s.Ready →
    exec .issueStop s = .next { s with
      trace := s.trace ++ [.write .DCON s.cfg.dconStopValue]
      result := some .done }

/-- R168, R185: INITIALIZE brings up, masks every interrupt and marks the engine initialized; a second one is
refused with no event. -/
def Obligations.InitializeMasksInterruptsOnce : Prop :=
  ∀ s : State, s.Ready →
    (s.initialized = false → exec .initEngine s = .next { s with
      initialized := true
      trace := s.trace ++ [.bringUp, .write .IMSK 0#32]
      result := some .done }) ∧
    (s.initialized = true → exec .initEngine s = .next (turnedAway .alreadyInitialized s))

/-- R170, R205: RESET is a controller reset and the settle delay; no engine record changes, s.clk among them. -/
def Obligations.ResetSettlesAndKeepsTheRecords : Prop :=
  ∀ s : State, s.Ready → s.initialized = true →
    exec .resetEngine s = .next { s.afterReads 1 with
      trace := s.trace ++
        [ .read .CON (s.drawAt 0), .write .CON (s.drawAt 0 ||| s.cfg.layout.con.SDRESET.mask),
          .delay .settleDelay ]
      result := some .done }

/-- R160, R161 without data: EXECUTE is CLEAR_ALL_STATUS, then SEND_COMMAND, and its result is the command's
outcome. -/
def Obligations.ExecuteWithoutDataIsClearThenCommand : Prop :=
  ∀ (s : State) (cmd : CommandDesc), s.Ready → s.initialized = true → cmd.wellFormed = true →
    ∃ s1 s2 c, exec .clearAllStatus s = .next s1 ∧ exec (.sendCommand cmd) s1 = .next s2 ∧
      s2.result = some (.command c) ∧
      exec (.execute cmd none) s = .next { s2 with
        last := some { final := c.status, cmd := some c, data := none }
        result := some (.transaction { final := c.status, cmd := some c, data := none }) }

/-- R160 to R165, R182 (c) with a read: the stages clear, arm, command, wait-and-drain run in this order, each on
the state the one before left; a setup failure ends the call; the command's outcome does not gate the data
phase; the data outcome is final. When the last stage faults the call ends there (the record's place in pc, the
stack and in_call is log 2). -/
def Obligations.ExecuteRunsItsStagesInOrder : Prop :=
  ∀ (s : State) (cmd : CommandDesc) (d : DataDesc), s.Ready → s.initialized = true →
    cmd.wellFormed = true → d.dir = .read → d.accepted s.cfg = true →
    ∃ s1 s2 a, exec .clearAllStatus s = .next s1 ∧ exec (.armTransfer d) s1 = .next s2 ∧
      s2.result = some (.transfer a) ∧
      (a ≠ .success → exec (.execute cmd (some d)) s = .next { s2 with
        last := some { final := a, cmd := none, data := some a }
        result := some (.transaction { final := a, cmd := none, data := some a }) }) ∧
      (a = .success → ∃ s3 s4 c, exec (.sendCommand cmd) s2 = .next s3 ∧ s3.result = some (.command c) ∧
        exec (.waitAndDrain d) s3 = .next s4 ∧
        (s4.fault = none → ∃ t, s4.result = some (.transfer t) ∧
          exec (.execute cmd (some d)) s = .next { s4 with
            last := some { final := t, cmd := some c, data := some t }
            result := some (.transaction { final := t, cmd := some c, data := some t }) }))

/-- The model's choice (log 2, from R186): when the last stage faults, the call ends there with the fault's record
and result, and pc, the stack and in_call stay as they are at the faulting line. -/
def Obligations.ExecuteEndsWhereTheDrainFaults : Prop :=
  ∀ (s s1 s2 s3 s4 : State) (cmd : CommandDesc) (d : DataDesc), s.Ready → s.initialized = true →
    cmd.wellFormed = true → d.dir = .read → d.accepted s.cfg = true →
    exec .clearAllStatus s = .next s1 → exec (.armTransfer d) s1 = .next s2 →
    s2.result = some (.transfer .success) → exec (.sendCommand cmd) s2 = .next s3 →
    exec (.waitAndDrain d) s3 = .next s4 → s4.fault ≠ none →
    exec (.execute cmd (some d)) s = .next { s4 with
      inCall := true
      stack := { op := .execute, line := 7, resumed := false } :: s4.stack }

/-- R162, R183: a write-direction transaction: the three clears, then Unsupported; no command is sent. -/
def Obligations.ExecuteRejectsWritesAfterTheClears : Prop :=
  ∀ (s : State) (cmd : CommandDesc) (d : DataDesc), s.Ready → s.initialized = true →
    cmd.wellFormed = true → d.dir = .write →
    exec (.execute cmd (some d)) s = .next { s with
      last := some { final := .unsupported, cmd := none, data := some .unsupported }
      trace := s.trace ++
        [.write .CSTA s.cfg.cmdstaClear, .write .DSTA s.cfg.dstaClear, .write .FSTA s.cfg.fstaClear]
      result := some (.transaction { final := .unsupported, cmd := none, data := some .unsupported }) }

/-- R183: EXECUTE's final outcome is Unsupported exactly for a write-direction data descriptor. -/
def Obligations.UnsupportedOnlyForWrites : Prop :=
  ∀ (s t : State) (cmd : CommandDesc) (data : Option DataDesc) (o : TransactionOutcome), s.Ready →
    s.initialized = true → exec (.execute cmd data) s = .next t → t.result = some (.transaction o) →
    (o.final = .unsupported ↔ ∃ d, data = some d ∧ d.dir = .write)

/-- R160 L1, R185, R188 (a): EXECUTE refuses an ill-formed command descriptor before it looks at the data
descriptor, and then one that is not accepted, with no event. -/
def Obligations.ExecuteRefusesIllFormedDescriptors : Prop :=
  ∀ (s : State) (cmd : CommandDesc) (data : Option DataDesc), s.Ready → s.initialized = true →
    (cmd.wellFormed = false → exec (.execute cmd data) s = .next (turnedAway .illFormedCommand s)) ∧
    (cmd.wellFormed = true → ∀ d, data = some d → d.accepted s.cfg = false →
      exec (.execute cmd data) s = .next (turnedAway .illFormedData s))

/-- R193, R65, R194, R185: during a call every instruction is refused Reentrant: a host call (R193), an internal call
(log 14), and a control word, which would access the register block from outside the call (R65; that this is a
refusal, and this one, is log 27). RESET, SET_CLOCK and EXECUTE before INITIALIZE are refused NotInitialized. A
refusal has no effect but the mark. A configuration of R185's list refuses every instruction. (The order of these checks is log 13.) That a DATA_TIMEOUT_VALUE out of R14's range, 2^23 or more
under the default layout, is refused likewise is the model's choice, log 22. -/
def Obligations.CallsOutOfTurnAreRefused : Prop :=
  ∀ (s : State) (f : Nat) (cmd : CommandDesc) (data : Option DataDesc), s.fault = none →
    (s.cfg.legal = true → (s.inCall = true ∨ s.pc.op ≠ .idle) →
      ∀ i : Instr, exec i s = .next (turnedAway .reentrant s)) ∧
    (s.Ready → s.initialized = false →
      exec .resetEngine s = .next (turnedAway .notInitialized s) ∧
      exec (.setClock f) s = .next (turnedAway .notInitialized s) ∧
      exec (.execute cmd data) s = .next (turnedAway .notInitialized s)) ∧
    ((s.cfg.regBase.toNat % 4 ≠ 0 ∨ s.cfg.fRef = 0 ∨ s.cfg.cmdPollMax = 0 ∨ s.cfg.dataPollMax = 0 ∨
        s.cfg.armRetryMax = 0 ∨ 2 ^ s.cfg.layout.dtimerVALUE.width ≤ s.cfg.dataTimeout.toNat ∨
        (s.cfg.layout = Layout.s3c2440 ∧ 2 ^ 23 ≤ s.cfg.dataTimeout.toNat)) →
      ∀ i : Instr, exec i s = .next (turnedAway .badConfig s))

/-- The model's choice (log 16, from 30_encoding.md R84): an internal operation called with an ill-formed descriptor,
and WAIT_AND_DRAIN with a write one, is refused with no event. -/
def Obligations.InternalCallsRefuseIllFormedDescriptors : Prop :=
  ∀ (s : State) (cmd : CommandDesc) (d : DataDesc), s.Ready →
    (cmd.wellFormed = false → exec (.sendCommand cmd) s = .next (turnedAway .illFormedCommand s)) ∧
    (d.accepted s.cfg = false → exec (.armTransfer d) s = .next (turnedAway .illFormedData s)) ∧
    ((d.dir = .write ∨ d.accepted s.cfg = false) →
      exec (.waitAndDrain d) s = .next (turnedAway .illFormedData s))

/-- R72, R75, R76 (that these rows are writes is log 8): between two calls a control word is written to its
register, and nothing else changes; during a call it is refused (R65), which CallsOutOfTurnAreRefused says. Under the default layout and stop value it is the word of its encoding;
under any layout and stop value it is the word its fields compose. -/
def Obligations.ControlWordsAreWrittenWhole : Prop :=
  (∀ (s : State) (index : BitVec 6) (wide : Bool) (n : BitVec 12), s.Ready →
    s.cfg.layout = Layout.s3c2440 → s.cfg.dconStopValue = 0x00004000#32 →
    exec (.cconNoresp index) s =
      .next { s with trace := s.trace ++ [.write .CCON (encode (.cconNoresp index)).word] } ∧
    exec (.cconShort index) s =
      .next { s with trace := s.trace ++ [.write .CCON (encode (.cconShort index)).word] } ∧
    exec (.cconLong index) s =
      .next { s with trace := s.trace ++ [.write .CCON (encode (.cconLong index)).word] } ∧
    exec (.dconRead wide n) s =
      .next { s with trace := s.trace ++ [.write .DCON (encode (.dconRead wide n)).word] } ∧
    exec .dconStop s = .next { s with trace := s.trace ++ [.write .DCON (encode .dconStop).word] }) ∧
  (∀ (s : State) (d : CommandDesc) (b : DataDesc), s.Ready →
    d.index ≤ 63 → b.blockCount ≤ 4095 →
    exec (if d.present then (if d.long then .cconLong (BitVec.ofNat 6 d.index)
            else .cconShort (BitVec.ofNat 6 d.index)) else .cconNoresp (BitVec.ofNat 6 d.index)) s =
      .next { s with trace := s.trace ++ [.write .CCON (d.ccon s.cfg.layout)] } ∧
    exec (.dconRead (b.width == 4) (BitVec.ofNat 12 b.blockCount)) s =
      .next { s with trace := s.trace ++ [.write .DCON (b.dcon s.cfg.layout)] } ∧
    exec .dconStop s = .next { s with trace := s.trace ++ [.write .DCON s.cfg.dconStopValue] })

/-! ### The whole machine -/

/-- R6, R8: with a request that decodes to i as the next arrival, a step is exec of i on the state from which
the arrival has been taken (log 5). R22: with one that runs line by line, the step is the start of i's call, and
IdleEngineWaits says the steps after it (log 18). R185: with a host request that decodes to nothing, whole or line
by line, a step is the BadRequest refusal (before Reentrant and NotInitialized, log 13; under a refused
configuration BadConfig, log 28); with another request that decodes to nothing it is neverIssued, whatever the
configuration and whatever call is in progress (log 9). -/
def Obligations.StepRunsTheDecodedInstruction : Prop :=
  ∀ (s : State) (r : Request) (rest : List Arrival), s.fault = none →
    (∀ i, decode r = .ok i →
      (s.arrivals = .request r :: rest → step s = exec i { s with arrivals := rest }) ∧
      (s.arrivals = .lineByLine r :: rest → step s = .next (start i { s with arrivals := rest }))) ∧
    (∀ e, decode r = .error e → (s.arrivals = .request r :: rest ∨ s.arrivals = .lineByLine r :: rest) →
      (∀ w o, r = .host w o →
        (s.cfg.legal = true → step s = .next (turnedAway .badRequest { s with arrivals := rest })) ∧
        (s.cfg.legal = false → step s = .next (turnedAway .badConfig { s with arrivals := rest }))) ∧
      ((∀ w o, r ≠ .host w o) → step s = .refused .neverIssued))

/-- R22, R199: with no arrival, a step of an idle engine changes nothing, and a step of one with a call in
progress is one line of it (log 5). -/
def Obligations.IdleEngineWaits : Prop :=
  ∀ s : State, s.fault = none → s.arrivals = [] →
    step s = .next (line s) ∧ (s.pc = Pos.idle → step s = .next s)

/-- R186: a recorded fault ends every step and every instruction with that fault. -/
def Obligations.RecordedFaultStopsTheEngine : Prop :=
  ∀ (s : State) (f : Fault), s.fault = some f → step s = .fault f ∧ ∀ i : Instr, exec i s = .fault f

/-- R51, R200: the engine records after power-on, for every parameter set. -/
def Obligations.PowerOnRecords : Prop :=
  ∀ c : Config,
    (State.powerOn c).pc = Pos.idle ∧ (State.powerOn c).stack = [] ∧
    (State.powerOn c).initialized = false ∧ (State.powerOn c).inCall = false ∧
    (State.powerOn c).clk = { requested := none, divider := none, actual := none, enabled := none } ∧
    (State.powerOn c).resp = none ∧ (State.powerOn c).last = none ∧
    (State.powerOn c).i = 0 ∧ (State.powerOn c).k = 0 ∧ (State.powerOn c).w = 0 ∧
    (State.powerOn c).fault = none ∧ (State.powerOn c).refusal = none ∧ (State.powerOn c).cfg = c

/-- The records' invariant holds at power-on, for every parameter set. -/
def Obligations.RecordsAreConsistentAtPowerOn : Prop := ∀ c : Config, (State.powerOn c).Inv

/-- R22, R24, R42, R44, R47, R48, R193, R194: every step keeps the records consistent, whole calls and single
lines alike. -/
def Obligations.StepKeepsTheRecordsConsistent : Prop :=
  ∀ s t : State, s.Inv → step s = .next t → t.Inv

/-- R22, R190: at most three routines are nested. -/
def Obligations.CallsNestAtMostThreeDeep : Prop :=
  ∀ s : State, s.Inv → s.stack.length + 1 ≤ 3

/-- R22, R110, R130, R140, R160, R214: from an idle engine, running a call line by line ends after finitely many
lines, and leaves exactly the state that exec gives for the whole call. (The variables between lines are the
model's own and are left out of the comparison, log 18.) -/
def Obligations.SequencerRunsWholeCalls : Prop :=
  ∀ (i : Instr) (s : State), s.fault = none → s.Idle →
    ∃ n t, exec i s = .next t ∧ { lines n (start i s) with locals := Locals.clear } = t ∧
      (t.fault = none → (lines n (start i s)).pc = Pos.idle)

/-- R10, R24, R61, R185, R186, R203: a step adds to the trace and changes none of its past, changes no parameter,
never takes initialized, a refusal mark or a fault back, and makes no answer of the environment come again. -/
def Obligations.StepTakesNothingBack : Prop :=
  ∀ s t : State, step s = .next t →
    (∃ es, t.trace = s.trace ++ es) ∧ t.cfg = s.cfg ∧ (s.initialized = true → t.initialized = true) ∧
    (∀ r, s.refusal = some r → t.refusal = some r) ∧ s.fault = none ∧ s.draws ≤ t.draws

/-- R9, R18: the values of an instruction's reads are the environment's answers, in order, whatever they are, and
it takes no more answers than it makes reads. -/
def Obligations.ReadsAreTheEnvironmentsAnswers : Prop :=
  ∀ (i : Instr) (s t : State), exec i s = .next t →
    ∃ es, t.trace = s.trace ++ es ∧ t.draws = s.draws + (readValues es).length ∧
      t.supply = s.supply.drop (readValues es).length ∧
      ∀ k, k < (readValues es).length → (readValues es)[k]? = some (s.drawAt k)

/-- R40, R105, R119, R135, R150, R171, R172, R187: which registers each instruction reads and writes, with which
clear masks, and which delays it makes; IMSK is written only by INITIALIZE, and with 0; DCNT is never touched. -/
def Obligations.InstructionsTouchOnlyTheirRegisters : Prop :=
  ∀ (i : Instr) (s t : State), exec i s = .next t →
    ∃ es, t.trace = s.trace ++ es ∧ ∀ e ∈ es, mayEmit s.cfg i e = true

/-- R214: the loop bounds: CSTA polls, busy checks, data iterations; one read of FSTA for each data iteration and
one for the final drain; and, under the default layout, at most 31 words for each read of FSTA. -/
def Obligations.LoopsAreBounded : Prop :=
  ∀ (i : Instr) (s t : State), exec i s = .next t →
    ∃ es, t.trace = s.trace ++ es ∧
      (readsOf .CSTA es).length ≤ s.cfg.cmdPollMax ∧
      (readsOf .DSTA es).length ≤ (s.cfg.armRetryMax + 1) + s.cfg.dataPollMax ∧
      (∀ d, i = .armTransfer d → (readsOf .DSTA es).length ≤ s.cfg.armRetryMax + 1) ∧
      (∀ d, i = .waitAndDrain d → (readsOf .DSTA es).length ≤ s.cfg.dataPollMax) ∧
      (readsOf .FSTA es).length ≤ s.cfg.dataPollMax + 1 ∧
      (∀ d, i = .waitAndDrain d → (readsOf .FSTA es).length ≤ (readsOf .DSTA es).length + 1) ∧
      (s.cfg.layout = Layout.s3c2440 →
        (readsOf .DAT es).length ≤ 31 * (readsOf .FSTA es).length ∧
        (readsOf .DAT es).length ≤ 31 * (s.cfg.dataPollMax + 1))

/-- R52, R56, R59, under the default layout: every register access is a 32-bit access at a multiple of 4 in the
register block, and every buffer store one at a multiple of 4 inside the buffer. For a REG_BASE above 2^32 - 0x44
the register's address is the sum as a natural number, which is the model's choice, log 29; up to that REG_BASE
every access ends at or below 2^32. -/
def Obligations.AccessesAreAlignedWords : Prop :=
  ∀ (i : Instr) (s t : State) (d : DataDesc), s.cfg.layout = Layout.s3c2440 → s.cfg.legal = true →
    exec i s = .next t → (∀ b, bufferOf i = some b → b = d) →
    ∃ es, t.trace = s.trace ++ es ∧
      ∀ e ∈ es, ∀ a, Event.access s.cfg d e = some a → a.bytes = 4 ∧ a.addr % 4 = 0 ∧
        ((∃ r v, (e = .read r v ∨ e = .write r v) ∧ s.cfg.regBase.toNat ≤ a.addr ∧
            a.addr + 4 ≤ s.cfg.regBase.toNat + 0x44) ∨
         (∃ n w, e = .store n w ∧ bufferOf i = some d ∧ d.buf ≤ a.addr ∧
            a.addr + 4 ≤ d.buf + d.bufCapacity)) ∧
        (s.cfg.regBase.toNat + 0x44 ≤ 2 ^ 32 → a.addr + 4 ≤ 2 ^ 32)

/-- R52: no instruction changes a byte of memory outside the buffer of its data descriptor, and one without a
buffer changes none. -/
def Obligations.MemoryOutsideTheBufferIsKept : Prop :=
  ∀ (i : Instr) (s t : State), exec i s = .next t →
    ∀ a, (∀ d, bufferOf i = some d → a < d.buf ∨ d.buf + d.bufCapacity ≤ a) → t.mem.read a = s.mem.read a

/-- R105, R140, R110, R130, R168, R170, R171: the records each instruction may write; all others keep their value,
the call records too unless it faults. -/
def Obligations.InstructionsKeepOtherRecords : Prop :=
  ∀ (i : Instr) (s t : State), exec i s = .next t →
    t.cfg = s.cfg ∧ t.arrivals = s.arrivals ∧ t.locals = s.locals ∧
    (i ≠ .initEngine → t.initialized = s.initialized) ∧
    ((∀ f, i ≠ .setClock f) → t.clk = s.clk) ∧
    ((∀ c d, i ≠ .execute c d) →
      t.last = s.last ∧ t.stack = s.stack ∧
      ((∀ c, i ≠ .sendCommand c) → t.resp = s.resp) ∧
      ((∀ d, i ≠ .armTransfer d) → t.k = s.k) ∧
      ((∀ d, i ≠ .waitAndDrain d) → t.w = s.w ∧ t.mem = s.mem) ∧
      ((∀ c, i ≠ .sendCommand c) → (∀ d, i ≠ .waitAndDrain d) → t.i = s.i)) ∧
    (t.fault = none → t.pc = s.pc ∧ t.stack = s.stack ∧ t.inCall = s.inCall)

/-- R86, under the default layout: a status value is decided by the named bits alone. -/
def Obligations.OtherStatusBitsAreIgnored : Prop :=
  ∀ (d : CommandDesc) (v : Word),
    cmdVerdict Layout.s3c2440 d v = cmdVerdict Layout.s3c2440 d (v &&& 0x00001E00#32) ∧
    transferBusy Layout.s3c2440 v = transferBusy Layout.s3c2440 (v &&& 0x00000003#32) ∧
    dataVerdict Layout.s3c2440 v = dataVerdict Layout.s3c2440 (v &&& 0x00000070#32) ∧
    fifoHasData Layout.s3c2440 v = fifoHasData Layout.s3c2440 (v &&& 0x00001000#32) ∧
    fifoWords Layout.s3c2440 v = fifoWords Layout.s3c2440 (v &&& 0x0000007F#32)

/-- 10_state.md R40 (95 E4, V-O6): clearing all status twice gives the same later results as clearing it once:
the outcome, the response and the words drained depend only on the values read. -/
def Obligations.ClearingTwiceChangesNoResult : Prop :=
  ∀ (s s1 s2 : State), s.Ready → exec .clearAllStatus s = .next s1 → exec .clearAllStatus s1 = .next s2 →
    (∀ cmd t1 t2, exec (.sendCommand cmd) s1 = .next t1 → exec (.sendCommand cmd) s2 = .next t2 →
      t1.result = t2.result ∧ t1.resp = t2.resp) ∧
    (∀ d t1 t2, exec (.armTransfer d) s1 = .next t1 → exec (.armTransfer d) s2 = .next t2 →
      t1.result = t2.result ∧ t1.k = t2.k) ∧
    (∀ d t1 t2, exec (.waitAndDrain d) s1 = .next t1 → exec (.waitAndDrain d) s2 = .next t2 →
      t1.result = t2.result ∧ t1.mem = t2.mem ∧ t1.w = t2.w)

/-- R88, R89: the pseudo-instructions are their expansions, and CAP defaults to count times size. -/
def Obligations.PseudoInstructionsExpand : Prop :=
  (∀ addr buf width, (ScriptLine.READ1 addr buf width).instr =
    some (.execute { index := 17, arg := addr, present := true, long := false, crc := true }
      (some { dir := .read, blockCount := 1, blockSize := 512, buf := buf, bufCapacity := 512,
              width := width }))) ∧
  ScriptLine.SETCLKOFF.instr = some (.setClock 0) ∧
  (∀ index arg, (ScriptLine.CMD index arg).instr =
    some (.execute { index := index, arg := arg, present := false, long := false, crc := false } none)) ∧
  (∀ index arg sh count size width buf,
    (ScriptLine.EXECREAD index arg sh count size width buf none).instr =
      (ScriptLine.EXECREAD index arg sh count size width buf (some (count * size))).instr)

/-- R180: the codes of the outcome kinds. -/
def Obligations.OutcomeKindsHaveTheirCodes : Prop :=
  OutcomeKind.success.code = 0 ∧ OutcomeKind.timeout.code = 1 ∧ OutcomeKind.commError.code = 2 ∧
  OutcomeKind.unsupported.code = 3 ∧ ∀ a b : OutcomeKind, a.code = b.code → a = b
end

