-- ==== Sys2Proof/Laws/State.lean ====
section
/-! SUPPORT. One lemma per field per update of State: what each named operation of Machine/Ops.lean leaves in
each field. -/

namespace Sys2Proof.Machine

variable (s : State)

/-! ### emit -/

@[simp] theorem emit_cfg (e : Event) : (emit e s).cfg = s.cfg := rfl
@[simp] theorem emit_initialized (e : Event) : (emit e s).initialized = s.initialized := rfl
@[simp] theorem emit_inCall (e : Event) : (emit e s).inCall = s.inCall := rfl
@[simp] theorem emit_pc (e : Event) : (emit e s).pc = s.pc := rfl
@[simp] theorem emit_stack (e : Event) : (emit e s).stack = s.stack := rfl
@[simp] theorem emit_clk (e : Event) : (emit e s).clk = s.clk := rfl
@[simp] theorem emit_resp (e : Event) : (emit e s).resp = s.resp := rfl
@[simp] theorem emit_last (e : Event) : (emit e s).last = s.last := rfl
@[simp] theorem emit_i (e : Event) : (emit e s).i = s.i := rfl
@[simp] theorem emit_k (e : Event) : (emit e s).k = s.k := rfl
@[simp] theorem emit_w (e : Event) : (emit e s).w = s.w := rfl
@[simp] theorem emit_fault (e : Event) : (emit e s).fault = s.fault := rfl
@[simp] theorem emit_refusal (e : Event) : (emit e s).refusal = s.refusal := rfl
@[simp] theorem emit_mem (e : Event) : (emit e s).mem = s.mem := rfl
@[simp] theorem emit_trace (e : Event) : (emit e s).trace = s.trace ++ [e] := rfl
@[simp] theorem emit_result (e : Event) : (emit e s).result = s.result := rfl
@[simp] theorem emit_supply (e : Event) : (emit e s).supply = s.supply := rfl
@[simp] theorem emit_draws (e : Event) : (emit e s).draws = s.draws := rfl
@[simp] theorem emit_arrivals (e : Event) : (emit e s).arrivals = s.arrivals := rfl
@[simp] theorem emit_locals (e : Event) : (emit e s).locals = s.locals := rfl

/-! ### regRead -/

@[simp] theorem regRead_cfg (r : Reg) : (regRead r s).cfg = s.cfg := rfl
@[simp] theorem regRead_initialized (r : Reg) : (regRead r s).initialized = s.initialized := rfl
@[simp] theorem regRead_inCall (r : Reg) : (regRead r s).inCall = s.inCall := rfl
@[simp] theorem regRead_pc (r : Reg) : (regRead r s).pc = s.pc := rfl
@[simp] theorem regRead_stack (r : Reg) : (regRead r s).stack = s.stack := rfl
@[simp] theorem regRead_clk (r : Reg) : (regRead r s).clk = s.clk := rfl
@[simp] theorem regRead_resp (r : Reg) : (regRead r s).resp = s.resp := rfl
@[simp] theorem regRead_last (r : Reg) : (regRead r s).last = s.last := rfl
@[simp] theorem regRead_i (r : Reg) : (regRead r s).i = s.i := rfl
@[simp] theorem regRead_k (r : Reg) : (regRead r s).k = s.k := rfl
@[simp] theorem regRead_w (r : Reg) : (regRead r s).w = s.w := rfl
@[simp] theorem regRead_fault (r : Reg) : (regRead r s).fault = s.fault := rfl
@[simp] theorem regRead_refusal (r : Reg) : (regRead r s).refusal = s.refusal := rfl
@[simp] theorem regRead_mem (r : Reg) : (regRead r s).mem = s.mem := rfl
@[simp] theorem regRead_trace (r : Reg) : (regRead r s).trace = s.trace ++ [.read r s.draw] := rfl
@[simp] theorem regRead_result (r : Reg) : (regRead r s).result = s.result := rfl
@[simp] theorem regRead_supply (r : Reg) : (regRead r s).supply = s.supply.tail := rfl
@[simp] theorem regRead_draws (r : Reg) : (regRead r s).draws = s.draws + 1 := rfl
@[simp] theorem regRead_arrivals (r : Reg) : (regRead r s).arrivals = s.arrivals := rfl
@[simp] theorem regRead_locals (r : Reg) : (regRead r s).locals = s.locals := rfl

/-! ### regWrite -/

@[simp] theorem regWrite_cfg (r : Reg) (v : Word) : (regWrite r v s).cfg = s.cfg := rfl
@[simp] theorem regWrite_initialized (r : Reg) (v : Word) : (regWrite r v s).initialized = s.initialized := rfl
@[simp] theorem regWrite_inCall (r : Reg) (v : Word) : (regWrite r v s).inCall = s.inCall := rfl
@[simp] theorem regWrite_pc (r : Reg) (v : Word) : (regWrite r v s).pc = s.pc := rfl
@[simp] theorem regWrite_stack (r : Reg) (v : Word) : (regWrite r v s).stack = s.stack := rfl
@[simp] theorem regWrite_clk (r : Reg) (v : Word) : (regWrite r v s).clk = s.clk := rfl
@[simp] theorem regWrite_resp (r : Reg) (v : Word) : (regWrite r v s).resp = s.resp := rfl
@[simp] theorem regWrite_last (r : Reg) (v : Word) : (regWrite r v s).last = s.last := rfl
@[simp] theorem regWrite_i (r : Reg) (v : Word) : (regWrite r v s).i = s.i := rfl
@[simp] theorem regWrite_k (r : Reg) (v : Word) : (regWrite r v s).k = s.k := rfl
@[simp] theorem regWrite_w (r : Reg) (v : Word) : (regWrite r v s).w = s.w := rfl
@[simp] theorem regWrite_fault (r : Reg) (v : Word) : (regWrite r v s).fault = s.fault := rfl
@[simp] theorem regWrite_refusal (r : Reg) (v : Word) : (regWrite r v s).refusal = s.refusal := rfl
@[simp] theorem regWrite_mem (r : Reg) (v : Word) : (regWrite r v s).mem = s.mem := rfl
@[simp] theorem regWrite_trace (r : Reg) (v : Word) : (regWrite r v s).trace = s.trace ++ [.write r v] := rfl
@[simp] theorem regWrite_result (r : Reg) (v : Word) : (regWrite r v s).result = s.result := rfl
@[simp] theorem regWrite_supply (r : Reg) (v : Word) : (regWrite r v s).supply = s.supply := rfl
@[simp] theorem regWrite_draws (r : Reg) (v : Word) : (regWrite r v s).draws = s.draws := rfl
@[simp] theorem regWrite_arrivals (r : Reg) (v : Word) : (regWrite r v s).arrivals = s.arrivals := rfl
@[simp] theorem regWrite_locals (r : Reg) (v : Word) : (regWrite r v s).locals = s.locals := rfl

/-! ### regSet -/

@[simp] theorem regSet_cfg (r : Reg) (m : Word) : (regSet r m s).cfg = s.cfg := rfl
@[simp] theorem regSet_initialized (r : Reg) (m : Word) : (regSet r m s).initialized = s.initialized := rfl
@[simp] theorem regSet_inCall (r : Reg) (m : Word) : (regSet r m s).inCall = s.inCall := rfl
@[simp] theorem regSet_pc (r : Reg) (m : Word) : (regSet r m s).pc = s.pc := rfl
@[simp] theorem regSet_stack (r : Reg) (m : Word) : (regSet r m s).stack = s.stack := rfl
@[simp] theorem regSet_clk (r : Reg) (m : Word) : (regSet r m s).clk = s.clk := rfl
@[simp] theorem regSet_resp (r : Reg) (m : Word) : (regSet r m s).resp = s.resp := rfl
@[simp] theorem regSet_last (r : Reg) (m : Word) : (regSet r m s).last = s.last := rfl
@[simp] theorem regSet_i (r : Reg) (m : Word) : (regSet r m s).i = s.i := rfl
@[simp] theorem regSet_k (r : Reg) (m : Word) : (regSet r m s).k = s.k := rfl
@[simp] theorem regSet_w (r : Reg) (m : Word) : (regSet r m s).w = s.w := rfl
@[simp] theorem regSet_fault (r : Reg) (m : Word) : (regSet r m s).fault = s.fault := rfl
@[simp] theorem regSet_refusal (r : Reg) (m : Word) : (regSet r m s).refusal = s.refusal := rfl
@[simp] theorem regSet_mem (r : Reg) (m : Word) : (regSet r m s).mem = s.mem := rfl
@[simp] theorem regSet_trace (r : Reg) (m : Word) : (regSet r m s).trace = s.trace ++ [.read r s.draw] ++ [.write r (s.draw ||| m)] := rfl
@[simp] theorem regSet_result (r : Reg) (m : Word) : (regSet r m s).result = s.result := rfl
@[simp] theorem regSet_supply (r : Reg) (m : Word) : (regSet r m s).supply = s.supply.tail := rfl
@[simp] theorem regSet_draws (r : Reg) (m : Word) : (regSet r m s).draws = s.draws + 1 := rfl
@[simp] theorem regSet_arrivals (r : Reg) (m : Word) : (regSet r m s).arrivals = s.arrivals := rfl
@[simp] theorem regSet_locals (r : Reg) (m : Word) : (regSet r m s).locals = s.locals := rfl

/-! ### regClr -/

@[simp] theorem regClr_cfg (r : Reg) (m : Word) : (regClr r m s).cfg = s.cfg := rfl
@[simp] theorem regClr_initialized (r : Reg) (m : Word) : (regClr r m s).initialized = s.initialized := rfl
@[simp] theorem regClr_inCall (r : Reg) (m : Word) : (regClr r m s).inCall = s.inCall := rfl
@[simp] theorem regClr_pc (r : Reg) (m : Word) : (regClr r m s).pc = s.pc := rfl
@[simp] theorem regClr_stack (r : Reg) (m : Word) : (regClr r m s).stack = s.stack := rfl
@[simp] theorem regClr_clk (r : Reg) (m : Word) : (regClr r m s).clk = s.clk := rfl
@[simp] theorem regClr_resp (r : Reg) (m : Word) : (regClr r m s).resp = s.resp := rfl
@[simp] theorem regClr_last (r : Reg) (m : Word) : (regClr r m s).last = s.last := rfl
@[simp] theorem regClr_i (r : Reg) (m : Word) : (regClr r m s).i = s.i := rfl
@[simp] theorem regClr_k (r : Reg) (m : Word) : (regClr r m s).k = s.k := rfl
@[simp] theorem regClr_w (r : Reg) (m : Word) : (regClr r m s).w = s.w := rfl
@[simp] theorem regClr_fault (r : Reg) (m : Word) : (regClr r m s).fault = s.fault := rfl
@[simp] theorem regClr_refusal (r : Reg) (m : Word) : (regClr r m s).refusal = s.refusal := rfl
@[simp] theorem regClr_mem (r : Reg) (m : Word) : (regClr r m s).mem = s.mem := rfl
@[simp] theorem regClr_trace (r : Reg) (m : Word) : (regClr r m s).trace = s.trace ++ [.read r s.draw] ++ [.write r (s.draw &&& ~~~m)] := rfl
@[simp] theorem regClr_result (r : Reg) (m : Word) : (regClr r m s).result = s.result := rfl
@[simp] theorem regClr_supply (r : Reg) (m : Word) : (regClr r m s).supply = s.supply.tail := rfl
@[simp] theorem regClr_draws (r : Reg) (m : Word) : (regClr r m s).draws = s.draws + 1 := rfl
@[simp] theorem regClr_arrivals (r : Reg) (m : Word) : (regClr r m s).arrivals = s.arrivals := rfl
@[simp] theorem regClr_locals (r : Reg) (m : Word) : (regClr r m s).locals = s.locals := rfl

/-! ### delay -/

@[simp] theorem delay_cfg (k : DelayKind) : (delay k s).cfg = s.cfg := rfl
@[simp] theorem delay_initialized (k : DelayKind) : (delay k s).initialized = s.initialized := rfl
@[simp] theorem delay_inCall (k : DelayKind) : (delay k s).inCall = s.inCall := rfl
@[simp] theorem delay_pc (k : DelayKind) : (delay k s).pc = s.pc := rfl
@[simp] theorem delay_stack (k : DelayKind) : (delay k s).stack = s.stack := rfl
@[simp] theorem delay_clk (k : DelayKind) : (delay k s).clk = s.clk := rfl
@[simp] theorem delay_resp (k : DelayKind) : (delay k s).resp = s.resp := rfl
@[simp] theorem delay_last (k : DelayKind) : (delay k s).last = s.last := rfl
@[simp] theorem delay_i (k : DelayKind) : (delay k s).i = s.i := rfl
@[simp] theorem delay_k (k : DelayKind) : (delay k s).k = s.k := rfl
@[simp] theorem delay_w (k : DelayKind) : (delay k s).w = s.w := rfl
@[simp] theorem delay_fault (k : DelayKind) : (delay k s).fault = s.fault := rfl
@[simp] theorem delay_refusal (k : DelayKind) : (delay k s).refusal = s.refusal := rfl
@[simp] theorem delay_mem (k : DelayKind) : (delay k s).mem = s.mem := rfl
@[simp] theorem delay_trace (k : DelayKind) : (delay k s).trace = s.trace ++ [.delay k] := rfl
@[simp] theorem delay_result (k : DelayKind) : (delay k s).result = s.result := rfl
@[simp] theorem delay_supply (k : DelayKind) : (delay k s).supply = s.supply := rfl
@[simp] theorem delay_draws (k : DelayKind) : (delay k s).draws = s.draws := rfl
@[simp] theorem delay_arrivals (k : DelayKind) : (delay k s).arrivals = s.arrivals := rfl
@[simp] theorem delay_locals (k : DelayKind) : (delay k s).locals = s.locals := rfl

/-! ### bringUp -/

@[simp] theorem bringUp_cfg : (bringUp s).cfg = s.cfg := rfl
@[simp] theorem bringUp_initialized : (bringUp s).initialized = s.initialized := rfl
@[simp] theorem bringUp_inCall : (bringUp s).inCall = s.inCall := rfl
@[simp] theorem bringUp_pc : (bringUp s).pc = s.pc := rfl
@[simp] theorem bringUp_stack : (bringUp s).stack = s.stack := rfl
@[simp] theorem bringUp_clk : (bringUp s).clk = s.clk := rfl
@[simp] theorem bringUp_resp : (bringUp s).resp = s.resp := rfl
@[simp] theorem bringUp_last : (bringUp s).last = s.last := rfl
@[simp] theorem bringUp_i : (bringUp s).i = s.i := rfl
@[simp] theorem bringUp_k : (bringUp s).k = s.k := rfl
@[simp] theorem bringUp_w : (bringUp s).w = s.w := rfl
@[simp] theorem bringUp_fault : (bringUp s).fault = s.fault := rfl
@[simp] theorem bringUp_refusal : (bringUp s).refusal = s.refusal := rfl
@[simp] theorem bringUp_mem : (bringUp s).mem = s.mem := rfl
@[simp] theorem bringUp_trace : (bringUp s).trace = s.trace ++ [.bringUp] := rfl
@[simp] theorem bringUp_result : (bringUp s).result = s.result := rfl
@[simp] theorem bringUp_supply : (bringUp s).supply = s.supply := rfl
@[simp] theorem bringUp_draws : (bringUp s).draws = s.draws := rfl
@[simp] theorem bringUp_arrivals : (bringUp s).arrivals = s.arrivals := rfl
@[simp] theorem bringUp_locals : (bringUp s).locals = s.locals := rfl

/-! ### bufStore -/

@[simp] theorem bufStore_cfg (d : DataDesc) (i : Nat) (w : Word) : (bufStore d i w s).cfg = s.cfg := rfl
@[simp] theorem bufStore_initialized (d : DataDesc) (i : Nat) (w : Word) : (bufStore d i w s).initialized = s.initialized := rfl
@[simp] theorem bufStore_inCall (d : DataDesc) (i : Nat) (w : Word) : (bufStore d i w s).inCall = s.inCall := rfl
@[simp] theorem bufStore_pc (d : DataDesc) (i : Nat) (w : Word) : (bufStore d i w s).pc = s.pc := rfl
@[simp] theorem bufStore_stack (d : DataDesc) (i : Nat) (w : Word) : (bufStore d i w s).stack = s.stack := rfl
@[simp] theorem bufStore_clk (d : DataDesc) (i : Nat) (w : Word) : (bufStore d i w s).clk = s.clk := rfl
@[simp] theorem bufStore_resp (d : DataDesc) (i : Nat) (w : Word) : (bufStore d i w s).resp = s.resp := rfl
@[simp] theorem bufStore_last (d : DataDesc) (i : Nat) (w : Word) : (bufStore d i w s).last = s.last := rfl
@[simp] theorem bufStore_i (d : DataDesc) (i : Nat) (w : Word) : (bufStore d i w s).i = s.i := rfl
@[simp] theorem bufStore_k (d : DataDesc) (i : Nat) (w : Word) : (bufStore d i w s).k = s.k := rfl
@[simp] theorem bufStore_w (d : DataDesc) (i : Nat) (w : Word) : (bufStore d i w s).w = s.w := rfl
@[simp] theorem bufStore_fault (d : DataDesc) (i : Nat) (w : Word) : (bufStore d i w s).fault = s.fault := rfl
@[simp] theorem bufStore_refusal (d : DataDesc) (i : Nat) (w : Word) : (bufStore d i w s).refusal = s.refusal := rfl
@[simp] theorem bufStore_mem (d : DataDesc) (i : Nat) (w : Word) : (bufStore d i w s).mem = s.mem.writeWord s.cfg.bufEndian (wordAddr d i) w := rfl
@[simp] theorem bufStore_trace (d : DataDesc) (i : Nat) (w : Word) : (bufStore d i w s).trace = s.trace ++ [.store i w] := rfl
@[simp] theorem bufStore_result (d : DataDesc) (i : Nat) (w : Word) : (bufStore d i w s).result = s.result := rfl
@[simp] theorem bufStore_supply (d : DataDesc) (i : Nat) (w : Word) : (bufStore d i w s).supply = s.supply := rfl
@[simp] theorem bufStore_draws (d : DataDesc) (i : Nat) (w : Word) : (bufStore d i w s).draws = s.draws := rfl
@[simp] theorem bufStore_arrivals (d : DataDesc) (i : Nat) (w : Word) : (bufStore d i w s).arrivals = s.arrivals := rfl
@[simp] theorem bufStore_locals (d : DataDesc) (i : Nat) (w : Word) : (bufStore d i w s).locals = s.locals := rfl

/-! ### refuse -/

@[simp] theorem refuse_cfg (r : RefuseReason) : (refuse r s).cfg = s.cfg := rfl
@[simp] theorem refuse_initialized (r : RefuseReason) : (refuse r s).initialized = s.initialized := rfl
@[simp] theorem refuse_inCall (r : RefuseReason) : (refuse r s).inCall = s.inCall := rfl
@[simp] theorem refuse_pc (r : RefuseReason) : (refuse r s).pc = s.pc := rfl
@[simp] theorem refuse_stack (r : RefuseReason) : (refuse r s).stack = s.stack := rfl
@[simp] theorem refuse_clk (r : RefuseReason) : (refuse r s).clk = s.clk := rfl
@[simp] theorem refuse_resp (r : RefuseReason) : (refuse r s).resp = s.resp := rfl
@[simp] theorem refuse_last (r : RefuseReason) : (refuse r s).last = s.last := rfl
@[simp] theorem refuse_i (r : RefuseReason) : (refuse r s).i = s.i := rfl
@[simp] theorem refuse_k (r : RefuseReason) : (refuse r s).k = s.k := rfl
@[simp] theorem refuse_w (r : RefuseReason) : (refuse r s).w = s.w := rfl
@[simp] theorem refuse_fault (r : RefuseReason) : (refuse r s).fault = s.fault := rfl
@[simp] theorem refuse_refusal (r : RefuseReason) : (refuse r s).refusal = some (s.refusal.getD r) := rfl
@[simp] theorem refuse_mem (r : RefuseReason) : (refuse r s).mem = s.mem := rfl
@[simp] theorem refuse_trace (r : RefuseReason) : (refuse r s).trace = s.trace := rfl
@[simp] theorem refuse_result (r : RefuseReason) : (refuse r s).result = some (.refused r) := rfl
@[simp] theorem refuse_supply (r : RefuseReason) : (refuse r s).supply = s.supply := rfl
@[simp] theorem refuse_draws (r : RefuseReason) : (refuse r s).draws = s.draws := rfl
@[simp] theorem refuse_arrivals (r : RefuseReason) : (refuse r s).arrivals = s.arrivals := rfl
@[simp] theorem refuse_locals (r : RefuseReason) : (refuse r s).locals = s.locals := rfl

/-! ### raiseFault -/

@[simp] theorem raiseFault_cfg (f : Fault) (p : Pos) : (raiseFault f p s).cfg = s.cfg := rfl
@[simp] theorem raiseFault_initialized (f : Fault) (p : Pos) : (raiseFault f p s).initialized = s.initialized := rfl
@[simp] theorem raiseFault_inCall (f : Fault) (p : Pos) : (raiseFault f p s).inCall = s.inCall := rfl
@[simp] theorem raiseFault_pc (f : Fault) (p : Pos) : (raiseFault f p s).pc = p := rfl
@[simp] theorem raiseFault_stack (f : Fault) (p : Pos) : (raiseFault f p s).stack = s.stack := rfl
@[simp] theorem raiseFault_clk (f : Fault) (p : Pos) : (raiseFault f p s).clk = s.clk := rfl
@[simp] theorem raiseFault_resp (f : Fault) (p : Pos) : (raiseFault f p s).resp = s.resp := rfl
@[simp] theorem raiseFault_last (f : Fault) (p : Pos) : (raiseFault f p s).last = s.last := rfl
@[simp] theorem raiseFault_i (f : Fault) (p : Pos) : (raiseFault f p s).i = s.i := rfl
@[simp] theorem raiseFault_k (f : Fault) (p : Pos) : (raiseFault f p s).k = s.k := rfl
@[simp] theorem raiseFault_w (f : Fault) (p : Pos) : (raiseFault f p s).w = s.w := rfl
@[simp] theorem raiseFault_fault (f : Fault) (p : Pos) : (raiseFault f p s).fault = some f := rfl
@[simp] theorem raiseFault_refusal (f : Fault) (p : Pos) : (raiseFault f p s).refusal = s.refusal := rfl
@[simp] theorem raiseFault_mem (f : Fault) (p : Pos) : (raiseFault f p s).mem = s.mem := rfl
@[simp] theorem raiseFault_trace (f : Fault) (p : Pos) : (raiseFault f p s).trace = s.trace := rfl
@[simp] theorem raiseFault_result (f : Fault) (p : Pos) : (raiseFault f p s).result = some (.faulted f) := rfl
@[simp] theorem raiseFault_supply (f : Fault) (p : Pos) : (raiseFault f p s).supply = s.supply := rfl
@[simp] theorem raiseFault_draws (f : Fault) (p : Pos) : (raiseFault f p s).draws = s.draws := rfl
@[simp] theorem raiseFault_arrivals (f : Fault) (p : Pos) : (raiseFault f p s).arrivals = s.arrivals := rfl
@[simp] theorem raiseFault_locals (f : Fault) (p : Pos) : (raiseFault f p s).locals = s.locals := rfl

/-! ### hostReturn -/

@[simp] theorem hostReturn_cfg (r : CallResult) : (hostReturn r s).cfg = s.cfg := rfl
@[simp] theorem hostReturn_initialized (r : CallResult) : (hostReturn r s).initialized = s.initialized := rfl
@[simp] theorem hostReturn_inCall (r : CallResult) : (hostReturn r s).inCall = false := rfl
@[simp] theorem hostReturn_pc (r : CallResult) : (hostReturn r s).pc = s.pc := rfl
@[simp] theorem hostReturn_stack (r : CallResult) : (hostReturn r s).stack = s.stack := rfl
@[simp] theorem hostReturn_clk (r : CallResult) : (hostReturn r s).clk = s.clk := rfl
@[simp] theorem hostReturn_resp (r : CallResult) : (hostReturn r s).resp = s.resp := rfl
@[simp] theorem hostReturn_last (r : CallResult) : (hostReturn r s).last = s.last := rfl
@[simp] theorem hostReturn_i (r : CallResult) : (hostReturn r s).i = s.i := rfl
@[simp] theorem hostReturn_k (r : CallResult) : (hostReturn r s).k = s.k := rfl
@[simp] theorem hostReturn_w (r : CallResult) : (hostReturn r s).w = s.w := rfl
@[simp] theorem hostReturn_fault (r : CallResult) : (hostReturn r s).fault = s.fault := rfl
@[simp] theorem hostReturn_refusal (r : CallResult) : (hostReturn r s).refusal = s.refusal := rfl
@[simp] theorem hostReturn_mem (r : CallResult) : (hostReturn r s).mem = s.mem := rfl
@[simp] theorem hostReturn_trace (r : CallResult) : (hostReturn r s).trace = s.trace := rfl
@[simp] theorem hostReturn_result (r : CallResult) : (hostReturn r s).result = some r := rfl
@[simp] theorem hostReturn_supply (r : CallResult) : (hostReturn r s).supply = s.supply := rfl
@[simp] theorem hostReturn_draws (r : CallResult) : (hostReturn r s).draws = s.draws := rfl
@[simp] theorem hostReturn_arrivals (r : CallResult) : (hostReturn r s).arrivals = s.arrivals := rfl
@[simp] theorem hostReturn_locals (r : CallResult) : (hostReturn r s).locals = s.locals := rfl

/-! ### refuseInCall -/

@[simp] theorem refuseInCall_cfg (r : RefuseReason) : (refuseInCall r s).cfg = s.cfg := rfl
@[simp] theorem refuseInCall_initialized (r : RefuseReason) : (refuseInCall r s).initialized = s.initialized := rfl
@[simp] theorem refuseInCall_inCall (r : RefuseReason) : (refuseInCall r s).inCall = false := rfl
@[simp] theorem refuseInCall_pc (r : RefuseReason) : (refuseInCall r s).pc = s.pc := rfl
@[simp] theorem refuseInCall_stack (r : RefuseReason) : (refuseInCall r s).stack = s.stack := rfl
@[simp] theorem refuseInCall_clk (r : RefuseReason) : (refuseInCall r s).clk = s.clk := rfl
@[simp] theorem refuseInCall_resp (r : RefuseReason) : (refuseInCall r s).resp = s.resp := rfl
@[simp] theorem refuseInCall_last (r : RefuseReason) : (refuseInCall r s).last = s.last := rfl
@[simp] theorem refuseInCall_i (r : RefuseReason) : (refuseInCall r s).i = s.i := rfl
@[simp] theorem refuseInCall_k (r : RefuseReason) : (refuseInCall r s).k = s.k := rfl
@[simp] theorem refuseInCall_w (r : RefuseReason) : (refuseInCall r s).w = s.w := rfl
@[simp] theorem refuseInCall_fault (r : RefuseReason) : (refuseInCall r s).fault = s.fault := rfl
@[simp] theorem refuseInCall_refusal (r : RefuseReason) : (refuseInCall r s).refusal = some (s.refusal.getD r) := rfl
@[simp] theorem refuseInCall_mem (r : RefuseReason) : (refuseInCall r s).mem = s.mem := rfl
@[simp] theorem refuseInCall_trace (r : RefuseReason) : (refuseInCall r s).trace = s.trace := rfl
@[simp] theorem refuseInCall_result (r : RefuseReason) : (refuseInCall r s).result = some (.refused r) := rfl
@[simp] theorem refuseInCall_supply (r : RefuseReason) : (refuseInCall r s).supply = s.supply := rfl
@[simp] theorem refuseInCall_draws (r : RefuseReason) : (refuseInCall r s).draws = s.draws := rfl
@[simp] theorem refuseInCall_arrivals (r : RefuseReason) : (refuseInCall r s).arrivals = s.arrivals := rfl
@[simp] theorem refuseInCall_locals (r : RefuseReason) : (refuseInCall r s).locals = s.locals := rfl

/-! ### handBack -/

@[simp] theorem handBack_cfg (r : CallResult) : (handBack r s).cfg = s.cfg := rfl
@[simp] theorem handBack_initialized (r : CallResult) : (handBack r s).initialized = s.initialized := rfl
@[simp] theorem handBack_inCall (r : CallResult) : (handBack r s).inCall = s.inCall := rfl
@[simp] theorem handBack_pc (r : CallResult) : (handBack r s).pc = s.pc := rfl
@[simp] theorem handBack_stack (r : CallResult) : (handBack r s).stack = s.stack := rfl
@[simp] theorem handBack_clk (r : CallResult) : (handBack r s).clk = s.clk := rfl
@[simp] theorem handBack_resp (r : CallResult) : (handBack r s).resp = s.resp := rfl
@[simp] theorem handBack_last (r : CallResult) : (handBack r s).last = s.last := rfl
@[simp] theorem handBack_i (r : CallResult) : (handBack r s).i = s.i := rfl
@[simp] theorem handBack_k (r : CallResult) : (handBack r s).k = s.k := rfl
@[simp] theorem handBack_w (r : CallResult) : (handBack r s).w = s.w := rfl
@[simp] theorem handBack_fault (r : CallResult) : (handBack r s).fault = s.fault := rfl
@[simp] theorem handBack_refusal (r : CallResult) : (handBack r s).refusal = s.refusal := rfl
@[simp] theorem handBack_mem (r : CallResult) : (handBack r s).mem = s.mem := rfl
@[simp] theorem handBack_trace (r : CallResult) : (handBack r s).trace = s.trace := rfl
@[simp] theorem handBack_result (r : CallResult) : (handBack r s).result = some r := rfl
@[simp] theorem handBack_supply (r : CallResult) : (handBack r s).supply = s.supply := rfl
@[simp] theorem handBack_draws (r : CallResult) : (handBack r s).draws = s.draws := rfl
@[simp] theorem handBack_arrivals (r : CallResult) : (handBack r s).arrivals = s.arrivals := rfl
@[simp] theorem handBack_locals (r : CallResult) : (handBack r s).locals = s.locals := rfl

/-! ### The power-on state -/

@[simp] theorem powerOn_cfg (c : Config) : (State.powerOn c).cfg = c := rfl
@[simp] theorem powerOn_fault (c : Config) : (State.powerOn c).fault = none := rfl
@[simp] theorem powerOn_arrivals (c : Config) : (State.powerOn c).arrivals = [] := rfl

/-! ### afterReads -/

@[simp] theorem afterReads_cfg (n : Nat) : (s.afterReads n).cfg = s.cfg := rfl
@[simp] theorem afterReads_initialized (n : Nat) : (s.afterReads n).initialized = s.initialized := rfl
@[simp] theorem afterReads_inCall (n : Nat) : (s.afterReads n).inCall = s.inCall := rfl
@[simp] theorem afterReads_pc (n : Nat) : (s.afterReads n).pc = s.pc := rfl
@[simp] theorem afterReads_stack (n : Nat) : (s.afterReads n).stack = s.stack := rfl
@[simp] theorem afterReads_clk (n : Nat) : (s.afterReads n).clk = s.clk := rfl
@[simp] theorem afterReads_resp (n : Nat) : (s.afterReads n).resp = s.resp := rfl
@[simp] theorem afterReads_last (n : Nat) : (s.afterReads n).last = s.last := rfl
@[simp] theorem afterReads_i (n : Nat) : (s.afterReads n).i = s.i := rfl
@[simp] theorem afterReads_k (n : Nat) : (s.afterReads n).k = s.k := rfl
@[simp] theorem afterReads_w (n : Nat) : (s.afterReads n).w = s.w := rfl
@[simp] theorem afterReads_fault (n : Nat) : (s.afterReads n).fault = s.fault := rfl
@[simp] theorem afterReads_refusal (n : Nat) : (s.afterReads n).refusal = s.refusal := rfl
@[simp] theorem afterReads_mem (n : Nat) : (s.afterReads n).mem = s.mem := rfl
@[simp] theorem afterReads_trace (n : Nat) : (s.afterReads n).trace = s.trace := rfl
@[simp] theorem afterReads_result (n : Nat) : (s.afterReads n).result = s.result := rfl
@[simp] theorem afterReads_supply (n : Nat) : (s.afterReads n).supply = s.supply.drop n := rfl
@[simp] theorem afterReads_draws (n : Nat) : (s.afterReads n).draws = s.draws + n := rfl
@[simp] theorem afterReads_arrivals (n : Nat) : (s.afterReads n).arrivals = s.arrivals := rfl
@[simp] theorem afterReads_locals (n : Nat) : (s.afterReads n).locals = s.locals := rfl

/-! ### issueStop -/

@[simp] theorem issueStop_cfg : (issueStop s).cfg = s.cfg := by simp [issueStop]
@[simp] theorem issueStop_initialized : (issueStop s).initialized = s.initialized := by simp [issueStop]
@[simp] theorem issueStop_inCall : (issueStop s).inCall = s.inCall := by simp [issueStop]
@[simp] theorem issueStop_pc : (issueStop s).pc = s.pc := by simp [issueStop]
@[simp] theorem issueStop_stack : (issueStop s).stack = s.stack := by simp [issueStop]
@[simp] theorem issueStop_clk : (issueStop s).clk = s.clk := by simp [issueStop]
@[simp] theorem issueStop_resp : (issueStop s).resp = s.resp := by simp [issueStop]
@[simp] theorem issueStop_last : (issueStop s).last = s.last := by simp [issueStop]
@[simp] theorem issueStop_i : (issueStop s).i = s.i := by simp [issueStop]
@[simp] theorem issueStop_k : (issueStop s).k = s.k := by simp [issueStop]
@[simp] theorem issueStop_w : (issueStop s).w = s.w := by simp [issueStop]
@[simp] theorem issueStop_fault : (issueStop s).fault = s.fault := by simp [issueStop]
@[simp] theorem issueStop_refusal : (issueStop s).refusal = s.refusal := by simp [issueStop]
@[simp] theorem issueStop_mem : (issueStop s).mem = s.mem := by simp [issueStop]
@[simp] theorem issueStop_trace :
    (issueStop s).trace = s.trace ++ [.write .DCON s.cfg.dconStopValue] := by
  simp [issueStop]
@[simp] theorem issueStop_result : (issueStop s).result = s.result := by simp [issueStop]
@[simp] theorem issueStop_supply : (issueStop s).supply = s.supply := by simp [issueStop]
@[simp] theorem issueStop_draws : (issueStop s).draws = s.draws := by simp [issueStop]
@[simp] theorem issueStop_arrivals : (issueStop s).arrivals = s.arrivals := by simp [issueStop]
@[simp] theorem issueStop_locals : (issueStop s).locals = s.locals := by simp [issueStop]
@[simp] theorem issueStop_draw : (issueStop s).draw = s.draw := rfl

/-! ### controllerReset -/

@[simp] theorem controllerReset_cfg : (controllerReset s).cfg = s.cfg := by simp [controllerReset]
@[simp] theorem controllerReset_initialized :
    (controllerReset s).initialized = s.initialized := by
  simp [controllerReset]
@[simp] theorem controllerReset_inCall : (controllerReset s).inCall = s.inCall := by simp [controllerReset]
@[simp] theorem controllerReset_pc : (controllerReset s).pc = s.pc := by simp [controllerReset]
@[simp] theorem controllerReset_stack : (controllerReset s).stack = s.stack := by simp [controllerReset]
@[simp] theorem controllerReset_clk : (controllerReset s).clk = s.clk := by simp [controllerReset]
@[simp] theorem controllerReset_resp : (controllerReset s).resp = s.resp := by simp [controllerReset]
@[simp] theorem controllerReset_last : (controllerReset s).last = s.last := by simp [controllerReset]
@[simp] theorem controllerReset_i : (controllerReset s).i = s.i := by simp [controllerReset]
@[simp] theorem controllerReset_k : (controllerReset s).k = s.k := by simp [controllerReset]
@[simp] theorem controllerReset_w : (controllerReset s).w = s.w := by simp [controllerReset]
@[simp] theorem controllerReset_fault : (controllerReset s).fault = s.fault := by simp [controllerReset]
@[simp] theorem controllerReset_refusal : (controllerReset s).refusal = s.refusal := by simp [controllerReset]
@[simp] theorem controllerReset_mem : (controllerReset s).mem = s.mem := by simp [controllerReset]
@[simp] theorem controllerReset_trace :
    (controllerReset s).trace = s.trace ++ [.read .CON s.draw, .write .CON (s.draw ||| s.cfg.layout.con.SDRESET.mask)] := by
  simp [controllerReset]
@[simp] theorem controllerReset_result : (controllerReset s).result = s.result := by simp [controllerReset]
@[simp] theorem controllerReset_supply :
    (controllerReset s).supply = s.supply.tail := by
  simp [controllerReset]
@[simp] theorem controllerReset_draws : (controllerReset s).draws = s.draws + 1 := by simp [controllerReset]
@[simp] theorem controllerReset_arrivals :
    (controllerReset s).arrivals = s.arrivals := by
  simp [controllerReset]
@[simp] theorem controllerReset_locals : (controllerReset s).locals = s.locals := by simp [controllerReset]

/-! ### stopRound -/

@[simp] theorem stopRound_cfg : (stopRound s).cfg = s.cfg := by simp [stopRound]
@[simp] theorem stopRound_initialized : (stopRound s).initialized = s.initialized := by simp [stopRound]
@[simp] theorem stopRound_inCall : (stopRound s).inCall = s.inCall := by simp [stopRound]
@[simp] theorem stopRound_pc : (stopRound s).pc = s.pc := by simp [stopRound]
@[simp] theorem stopRound_stack : (stopRound s).stack = s.stack := by simp [stopRound]
@[simp] theorem stopRound_clk : (stopRound s).clk = s.clk := by simp [stopRound]
@[simp] theorem stopRound_resp : (stopRound s).resp = s.resp := by simp [stopRound]
@[simp] theorem stopRound_last : (stopRound s).last = s.last := by simp [stopRound]
@[simp] theorem stopRound_i : (stopRound s).i = s.i := by simp [stopRound]
@[simp] theorem stopRound_k : (stopRound s).k = s.k + 1 := by simp [stopRound]
@[simp] theorem stopRound_w : (stopRound s).w = s.w := by simp [stopRound]
@[simp] theorem stopRound_fault : (stopRound s).fault = s.fault := by simp [stopRound]
@[simp] theorem stopRound_refusal : (stopRound s).refusal = s.refusal := by simp [stopRound]
@[simp] theorem stopRound_mem : (stopRound s).mem = s.mem := by simp [stopRound]
@[simp] theorem stopRound_trace :
    (stopRound s).trace = s.trace ++ [.write .DCON s.cfg.dconStopValue, .read .CON s.draw,
      .write .CON (s.draw ||| s.cfg.layout.con.SDRESET.mask), .delay .settleDelay] := by
  simp [stopRound]
@[simp] theorem stopRound_result : (stopRound s).result = s.result := by simp [stopRound]
@[simp] theorem stopRound_supply : (stopRound s).supply = s.supply.tail := by simp [stopRound]
@[simp] theorem stopRound_draws : (stopRound s).draws = s.draws + 1 := by simp [stopRound]
@[simp] theorem stopRound_arrivals : (stopRound s).arrivals = s.arrivals := by simp [stopRound]
@[simp] theorem stopRound_locals : (stopRound s).locals = s.locals := by simp [stopRound]

/-! ### programTransfer -/

@[simp] theorem programTransfer_cfg (d : DataDesc) :
    (programTransfer d s).cfg = s.cfg := by
  simp [programTransfer]
@[simp] theorem programTransfer_initialized (d : DataDesc) :
    (programTransfer d s).initialized = s.initialized := by
  simp [programTransfer]
@[simp] theorem programTransfer_inCall (d : DataDesc) :
    (programTransfer d s).inCall = s.inCall := by
  simp [programTransfer]
@[simp] theorem programTransfer_pc (d : DataDesc) :
    (programTransfer d s).pc = s.pc := by
  simp [programTransfer]
@[simp] theorem programTransfer_stack (d : DataDesc) :
    (programTransfer d s).stack = s.stack := by
  simp [programTransfer]
@[simp] theorem programTransfer_clk (d : DataDesc) :
    (programTransfer d s).clk = s.clk := by
  simp [programTransfer]
@[simp] theorem programTransfer_resp (d : DataDesc) :
    (programTransfer d s).resp = s.resp := by
  simp [programTransfer]
@[simp] theorem programTransfer_last (d : DataDesc) :
    (programTransfer d s).last = s.last := by
  simp [programTransfer]
@[simp] theorem programTransfer_i (d : DataDesc) : (programTransfer d s).i = s.i := by simp [programTransfer]
@[simp] theorem programTransfer_k (d : DataDesc) : (programTransfer d s).k = s.k := by simp [programTransfer]
@[simp] theorem programTransfer_w (d : DataDesc) : (programTransfer d s).w = s.w := by simp [programTransfer]
@[simp] theorem programTransfer_fault (d : DataDesc) :
    (programTransfer d s).fault = s.fault := by
  simp [programTransfer]
@[simp] theorem programTransfer_refusal (d : DataDesc) :
    (programTransfer d s).refusal = s.refusal := by
  simp [programTransfer]
@[simp] theorem programTransfer_mem (d : DataDesc) :
    (programTransfer d s).mem = s.mem := by
  simp [programTransfer]
@[simp] theorem programTransfer_trace (d : DataDesc) :
    (programTransfer d s).trace = s.trace ++ [.write .DCON (d.dcon s.cfg.layout), .write .BSIZE (zext32 d.blockSize),
      .write .DTIMER s.cfg.dataTimeout] := by
  simp [programTransfer]
@[simp] theorem programTransfer_result (d : DataDesc) :
    (programTransfer d s).result = s.result := by
  simp [programTransfer]
@[simp] theorem programTransfer_supply (d : DataDesc) :
    (programTransfer d s).supply = s.supply := by
  simp [programTransfer]
@[simp] theorem programTransfer_draws (d : DataDesc) :
    (programTransfer d s).draws = s.draws := by
  simp [programTransfer]
@[simp] theorem programTransfer_arrivals (d : DataDesc) :
    (programTransfer d s).arrivals = s.arrivals := by
  simp [programTransfer]
@[simp] theorem programTransfer_locals (d : DataDesc) :
    (programTransfer d s).locals = s.locals := by
  simp [programTransfer]

/-! ### exitClears -/

@[simp] theorem exitClears_cfg : (exitClears s).cfg = s.cfg := by simp [exitClears]
@[simp] theorem exitClears_initialized : (exitClears s).initialized = s.initialized := by simp [exitClears]
@[simp] theorem exitClears_inCall : (exitClears s).inCall = s.inCall := by simp [exitClears]
@[simp] theorem exitClears_pc : (exitClears s).pc = s.pc := by simp [exitClears]
@[simp] theorem exitClears_stack : (exitClears s).stack = s.stack := by simp [exitClears]
@[simp] theorem exitClears_clk : (exitClears s).clk = s.clk := by simp [exitClears]
@[simp] theorem exitClears_resp : (exitClears s).resp = s.resp := by simp [exitClears]
@[simp] theorem exitClears_last : (exitClears s).last = s.last := by simp [exitClears]
@[simp] theorem exitClears_i : (exitClears s).i = s.i := by simp [exitClears]
@[simp] theorem exitClears_k : (exitClears s).k = s.k := by simp [exitClears]
@[simp] theorem exitClears_w : (exitClears s).w = s.w := by simp [exitClears]
@[simp] theorem exitClears_fault : (exitClears s).fault = s.fault := by simp [exitClears]
@[simp] theorem exitClears_refusal : (exitClears s).refusal = s.refusal := by simp [exitClears]
@[simp] theorem exitClears_mem : (exitClears s).mem = s.mem := by simp [exitClears]
@[simp] theorem exitClears_trace :
    (exitClears s).trace = s.trace ++ [.write .FSTA s.cfg.fstaClear, .write .DSTA s.cfg.dstaClear] := by
  simp [exitClears]
@[simp] theorem exitClears_result : (exitClears s).result = s.result := by simp [exitClears]
@[simp] theorem exitClears_supply : (exitClears s).supply = s.supply := by simp [exitClears]
@[simp] theorem exitClears_draws : (exitClears s).draws = s.draws := by simp [exitClears]
@[simp] theorem exitClears_arrivals : (exitClears s).arrivals = s.arrivals := by simp [exitClears]
@[simp] theorem exitClears_locals : (exitClears s).locals = s.locals := by simp [exitClears]

/-! ### clearAllStatus -/

@[simp] theorem clearAllStatus_cfg : (clearAllStatus s).cfg = s.cfg := by simp [clearAllStatus]
@[simp] theorem clearAllStatus_initialized :
    (clearAllStatus s).initialized = s.initialized := by
  simp [clearAllStatus]
@[simp] theorem clearAllStatus_inCall : (clearAllStatus s).inCall = s.inCall := by simp [clearAllStatus]
@[simp] theorem clearAllStatus_pc : (clearAllStatus s).pc = s.pc := by simp [clearAllStatus]
@[simp] theorem clearAllStatus_stack : (clearAllStatus s).stack = s.stack := by simp [clearAllStatus]
@[simp] theorem clearAllStatus_clk : (clearAllStatus s).clk = s.clk := by simp [clearAllStatus]
@[simp] theorem clearAllStatus_resp : (clearAllStatus s).resp = s.resp := by simp [clearAllStatus]
@[simp] theorem clearAllStatus_last : (clearAllStatus s).last = s.last := by simp [clearAllStatus]
@[simp] theorem clearAllStatus_i : (clearAllStatus s).i = s.i := by simp [clearAllStatus]
@[simp] theorem clearAllStatus_k : (clearAllStatus s).k = s.k := by simp [clearAllStatus]
@[simp] theorem clearAllStatus_w : (clearAllStatus s).w = s.w := by simp [clearAllStatus]
@[simp] theorem clearAllStatus_fault : (clearAllStatus s).fault = s.fault := by simp [clearAllStatus]
@[simp] theorem clearAllStatus_refusal : (clearAllStatus s).refusal = s.refusal := by simp [clearAllStatus]
@[simp] theorem clearAllStatus_mem : (clearAllStatus s).mem = s.mem := by simp [clearAllStatus]
@[simp] theorem clearAllStatus_trace :
    (clearAllStatus s).trace = s.trace ++ [.write .CSTA s.cfg.cmdstaClear, .write .DSTA s.cfg.dstaClear,
      .write .FSTA s.cfg.fstaClear] := by
  simp [clearAllStatus]
@[simp] theorem clearAllStatus_result : (clearAllStatus s).result = s.result := by simp [clearAllStatus]
@[simp] theorem clearAllStatus_supply : (clearAllStatus s).supply = s.supply := by simp [clearAllStatus]
@[simp] theorem clearAllStatus_draws : (clearAllStatus s).draws = s.draws := by simp [clearAllStatus]
@[simp] theorem clearAllStatus_arrivals : (clearAllStatus s).arrivals = s.arrivals := by simp [clearAllStatus]
@[simp] theorem clearAllStatus_locals : (clearAllStatus s).locals = s.locals := by simp [clearAllStatus]

/-! ### launchCommand -/

@[simp] theorem launchCommand_cfg (d : CommandDesc) :
    (launchCommand d s).cfg = s.cfg := by
  simp [launchCommand]
@[simp] theorem launchCommand_initialized (d : CommandDesc) :
    (launchCommand d s).initialized = s.initialized := by
  simp [launchCommand]
@[simp] theorem launchCommand_inCall (d : CommandDesc) :
    (launchCommand d s).inCall = s.inCall := by
  simp [launchCommand]
@[simp] theorem launchCommand_pc (d : CommandDesc) : (launchCommand d s).pc = s.pc := by simp [launchCommand]
@[simp] theorem launchCommand_stack (d : CommandDesc) :
    (launchCommand d s).stack = s.stack := by
  simp [launchCommand]
@[simp] theorem launchCommand_clk (d : CommandDesc) :
    (launchCommand d s).clk = s.clk := by
  simp [launchCommand]
@[simp] theorem launchCommand_resp (d : CommandDesc) :
    (launchCommand d s).resp = none := by
  simp [launchCommand]
@[simp] theorem launchCommand_last (d : CommandDesc) :
    (launchCommand d s).last = s.last := by
  simp [launchCommand]
@[simp] theorem launchCommand_i (d : CommandDesc) : (launchCommand d s).i = 1 := by simp [launchCommand]
@[simp] theorem launchCommand_k (d : CommandDesc) : (launchCommand d s).k = s.k := by simp [launchCommand]
@[simp] theorem launchCommand_w (d : CommandDesc) : (launchCommand d s).w = s.w := by simp [launchCommand]
@[simp] theorem launchCommand_fault (d : CommandDesc) :
    (launchCommand d s).fault = s.fault := by
  simp [launchCommand]
@[simp] theorem launchCommand_refusal (d : CommandDesc) :
    (launchCommand d s).refusal = s.refusal := by
  simp [launchCommand]
@[simp] theorem launchCommand_mem (d : CommandDesc) :
    (launchCommand d s).mem = s.mem := by
  simp [launchCommand]
@[simp] theorem launchCommand_trace (d : CommandDesc) :
    (launchCommand d s).trace = s.trace ++ [.write .CARG d.carg, .write .CCON (d.ccon s.cfg.layout)] := by
  simp [launchCommand]
@[simp] theorem launchCommand_result (d : CommandDesc) :
    (launchCommand d s).result = s.result := by
  simp [launchCommand]
@[simp] theorem launchCommand_supply (d : CommandDesc) :
    (launchCommand d s).supply = s.supply := by
  simp [launchCommand]
@[simp] theorem launchCommand_draws (d : CommandDesc) :
    (launchCommand d s).draws = s.draws := by
  simp [launchCommand]
@[simp] theorem launchCommand_arrivals (d : CommandDesc) :
    (launchCommand d s).arrivals = s.arrivals := by
  simp [launchCommand]
@[simp] theorem launchCommand_locals (d : CommandDesc) :
    (launchCommand d s).locals = s.locals := by
  simp [launchCommand]

end Sys2Proof.Machine
end

