-- ==== Sys2Proof/Laws/Memory.lean ====
section
/-! SUPPORT. Data memory: reading after writing, and that every memory operation keeps the canonical form. -/

namespace Sys2Proof.Machine

/-- Every address listed is at least b. -/
def Memory.from_ (b : Nat) (m : Memory) : Prop := ∀ c ∈ m, b ≤ c.1

theorem Memory.wf_cons (c : Host.Cell) (m : Memory) :
    Memory.wf (c :: m) = true ↔ Memory.from_ (c.1 + 1) m ∧ Memory.wf m = true := by
  induction m generalizing c with
  | nil => simp [Memory.wf, Memory.from_]
  | cons d m ih =>
    simp only [Memory.wf, Bool.and_eq_true, decide_eq_true_eq]
    constructor
    · rintro ⟨hlt, hwf⟩
      refine ⟨?_, hwf⟩
      have hd := ((ih d).1 hwf).1
      intro e he
      rcases List.mem_cons.1 he with rfl | he
      · omega
      · have := hd e he; omega
    · rintro ⟨hfrom, hwf⟩
      exact ⟨by have := hfrom d (by simp); omega, hwf⟩

theorem Memory.from_write {b a : Nat} {v : Byte} {m : Memory} (hm : Memory.from_ b m) (ha : b ≤ a) :
    Memory.from_ b (m.write a v) := by
  induction m with
  | nil => intro c hc; simp [Memory.write] at hc; subst hc; exact ha
  | cons d m ih =>
    have hd : b ≤ d.1 := hm d (by simp)
    have hrest : Memory.from_ b m := fun e he => hm e (by simp [he])
    obtain ⟨k, x⟩ := d
    unfold Memory.write
    intro e he
    split at he
    · simp only [List.mem_cons] at he
      rcases he with rfl | rfl | he
      · exact ha
      · exact hd
      · exact hrest e he
    · split at he
      · rcases List.mem_cons.1 he with rfl | he
        · exact ha
        · exact hrest e he
      · rcases List.mem_cons.1 he with rfl | he
        · exact hd
        · exact ih hrest e he

/-- Writing a byte keeps the canonical form. -/
theorem Memory.wf_write {m : Memory} (a : Nat) (v : Byte) (h : m.wf = true) : (m.write a v).wf = true := by
  induction m with
  | nil => rfl
  | cons d m ih =>
    obtain ⟨k, x⟩ := d
    obtain ⟨hfrom, hwf⟩ := (Memory.wf_cons _ _).1 h
    unfold Memory.write
    split
    · rename_i hlt
      refine (Memory.wf_cons _ _).2 ⟨?_, h⟩
      intro e he
      rcases List.mem_cons.1 he with rfl | he
      · exact hlt
      · have := hfrom e he; simp at this ⊢; omega
    · split
      · rename_i heq
        subst heq
        exact (Memory.wf_cons _ _).2 ⟨hfrom, hwf⟩
      · exact (Memory.wf_cons _ _).2 ⟨Memory.from_write hfrom (by simp; omega), ih hwf⟩

/-- Writing a word keeps the canonical form. -/
theorem Memory.wf_writeWord {m : Memory} (e : Endian) (a : Nat) (w : Word) (h : m.wf = true) :
    (m.writeWord e a w).wf = true := by
  unfold Memory.writeWord
  exact Memory.wf_write _ _ (Memory.wf_write _ _ (Memory.wf_write _ _ (Memory.wf_write _ _ h)))

/-- A byte reads back as written. -/
@[simp] theorem Memory.read_write_same (m : Memory) (a : Nat) (v : Byte) : (m.write a v).read a = some v := by
  induction m with
  | nil => simp [Memory.write, Memory.read]
  | cons d m ih =>
    obtain ⟨k, x⟩ := d
    unfold Memory.write
    split
    · simp [Memory.read]
    · split
      · simp [Memory.read]
      · rename_i h
        simp [Memory.read, ih, Ne.symm h]

/-- A byte write leaves every other address alone. -/
theorem Memory.read_write_other (m : Memory) {a b : Nat} (v : Byte) (h : b ≠ a) :
    (m.write a v).read b = m.read b := by
  induction m with
  | nil => simp [Memory.write, Memory.read, Ne.symm h]
  | cons d m ih =>
    obtain ⟨k, x⟩ := d
    unfold Memory.write
    split
    · simp [Memory.read, Ne.symm h]
    · split
      · rename_i _ heq
        subst heq
        simp [Memory.read, Ne.symm h]
      · simp [Memory.read, ih]

/-- A word write leaves every byte outside its four alone. -/
theorem Memory.read_writeWord_other (m : Memory) (e : Endian) {a b : Nat} (w : Word)
    (h : b < a ∨ a + 4 ≤ b) : (m.writeWord e a w).read b = m.read b := by
  unfold Memory.writeWord
  rw [Memory.read_write_other _ _ (by omega), Memory.read_write_other _ _ (by omega),
    Memory.read_write_other _ _ (by omega), Memory.read_write_other _ _ (by omega)]

/-- Byte j of a word just written. -/
theorem Memory.read_writeWord_same (m : Memory) (e : Endian) (a : Nat) (w : Word) {j : Nat} (h : j < 4) :
    (m.writeWord e a w).read (a + j) = some (wordByte e w j) := by
  unfold Memory.writeWord
  match j, h with
  | 3, _ => simp
  | 2, _ =>
    rw [Memory.read_write_other _ _ (by omega)]
    simp
  | 1, _ =>
    rw [Memory.read_write_other _ _ (by omega), Memory.read_write_other _ _ (by omega)]
    simp
  | 0, _ =>
    rw [Memory.read_write_other _ _ (by omega), Memory.read_write_other _ _ (by omega),
      Memory.read_write_other _ _ (by omega)]
    simp

/-- The power-on memory is in canonical form. -/
theorem powerOn_mem_wf (c : Config) : (State.powerOn c).mem.wf = true := rfl

end Sys2Proof.Machine
end

