-- ==== Sys2Proof/Laws/Ops.lean ====
section
/-! SUPPORT. What a piece of a run does to the trace and to the environment's answers (`Ran`), which records it
leaves alone (`Keeps`, `KeepsAll`), and the entries of a call, each said once. -/

namespace Sys2Proof.Machine

/-! ### The environment's answers -/

theorem drawAt_zero (s : State) : s.drawAt 0 = s.draw := by
  unfold State.drawAt State.draw
  cases s.supply <;> simp

theorem drawAt_add (s t : State) (n k : Nat) (hs : t.supply = s.supply.drop n) (hd : t.draws = s.draws + n) :
    t.drawAt k = s.drawAt (n + k) := by
  simp [State.drawAt, hs, hd, Nat.add_assoc]

@[simp] theorem afterReads_drawAt (s : State) (n k : Nat) : (s.afterReads n).drawAt k = s.drawAt (n + k) :=
  drawAt_add s _ n k rfl rfl

theorem draw_congr {s t : State} (h1 : t.supply = s.supply) (h2 : t.draws = s.draws) : t.draw = s.draw := by
  simp [State.draw, h1, h2]

@[simp] theorem draw_emit (e : Event) (s : State) : (emit e s).draw = s.draw := rfl
@[simp] theorem draw_regWrite (r : Reg) (v : Word) (s : State) : (regWrite r v s).draw = s.draw := rfl
@[simp] theorem draw_delay (k : DelayKind) (s : State) : (delay k s).draw = s.draw := rfl

@[simp] theorem drawAt_regRead (r : Reg) (s : State) (k : Nat) : (regRead r s).drawAt k = s.drawAt (k + 1) := by
  rw [drawAt_add s (regRead r s) 1 k (by simp [List.drop_one]) (by simp), Nat.add_comm]
@[simp] theorem drawAt_emit (e : Event) (s : State) (k : Nat) : (emit e s).drawAt k = s.drawAt k := rfl
@[simp] theorem drawAt_regWrite (r : Reg) (v : Word) (s : State) (k : Nat) :
    (regWrite r v s).drawAt k = s.drawAt k := rfl
@[simp] theorem drawAt_delay (d : DelayKind) (s : State) (k : Nat) : (delay d s).drawAt k = s.drawAt k := rfl

@[simp] theorem readValues_append (as bs : List Event) :
    readValues (as ++ bs) = readValues as ++ readValues bs := by
  induction as with
  | nil => rfl
  | cons e as ih => cases e <;> simp [readValues, ih]

@[simp] theorem readsOf_append (r : Reg) (as bs : List Event) :
    readsOf r (as ++ bs) = readsOf r as ++ readsOf r bs := by
  induction as with
  | nil => rfl
  | cons e as ih => cases e <;> simp [readsOf, ih]; split <;> simp

/-- From s to t the run produced the events es, and its reads took the environment's answers in order. -/
structure Ran (s t : State) (es : List Event) : Prop where
  trace : t.trace = s.trace ++ es
  reads : ∀ k, k < (readValues es).length → (readValues es)[k]? = some (s.drawAt k)
  supply : t.supply = s.supply.drop (readValues es).length
  draws : t.draws = s.draws + (readValues es).length

theorem Ran.refl (s : State) : Ran s s [] :=
  ⟨by simp, by simp [readValues], by simp [readValues], by simp [readValues]⟩

theorem Ran.trans {s t u : State} {as bs : List Event} (h1 : Ran s t as) (h2 : Ran t u bs) :
    Ran s u (as ++ bs) where
  trace := by rw [h2.trace, h1.trace, List.append_assoc]
  reads := by
    intro k hk
    rw [readValues_append] at hk ⊢
    rw [List.length_append] at hk
    by_cases hlt : k < (readValues as).length
    · rw [List.getElem?_append_left hlt]
      exact h1.reads k hlt
    · have h3 := h2.reads (k - (readValues as).length) (by omega)
      rw [List.getElem?_append_right (by omega), h3,
        drawAt_add s t _ _ h1.supply h1.draws]
      congr 2; omega
  supply := by rw [h2.supply, h1.supply, List.drop_drop, readValues_append, List.length_append]
  draws := by rw [h2.draws, h1.draws, readValues_append, List.length_append]; omega

/-- Fields that `Ran` does not speak of may change. -/
theorem Ran.congr {s t u : State} {es : List Event} (h : Ran s t es) (h1 : u.trace = t.trace)
    (h2 : u.supply = t.supply) (h3 : u.draws = t.draws) : Ran s u es :=
  ⟨h1.trans h.trace, h.reads, h2.trans h.supply, h3.trans h.draws⟩

theorem Ran.congr_left {s t u : State} {es : List Event} (h : Ran s t es) (h1 : u.trace = s.trace)
    (h2 : u.supply = s.supply) (h3 : u.draws = s.draws) : Ran u t es where
  trace := by rw [h.trace, h1]
  reads := by
    intro k hk
    rw [h.reads k hk]
    simp [State.drawAt, h2, h3]
  supply := by rw [h.supply, h2]
  draws := by rw [h.draws, h3]

theorem Ran.newEvents {s t : State} {es : List Event} (h : Ran s t es) : newEvents s t = es := by
  simp [Machine.newEvents, h.trace]

theorem ran_regRead (r : Reg) (s : State) : Ran s (regRead r s) [.read r s.draw] where
  trace := rfl
  reads := by
    intro k hk
    simp [readValues] at hk ⊢
    subst hk
    simp [drawAt_zero]
  supply := by simp [readValues, List.drop_one]
  draws := rfl

theorem ran_emit (e : Event) (s : State) (h : readValues [e] = []) : Ran s (emit e s) [e] :=
  ⟨rfl, by simp [h], by simp [h], by simp [h]⟩

theorem ran_regWrite (r : Reg) (v : Word) (s : State) : Ran s (regWrite r v s) [.write r v] :=
  ran_emit _ _ rfl

theorem ran_delay (k : DelayKind) (s : State) : Ran s (delay k s) [.delay k] := ran_emit _ _ rfl

theorem ran_bringUp (s : State) : Ran s (bringUp s) [.bringUp] := ran_emit _ _ rfl

theorem ran_regSet (r : Reg) (m : Word) (s : State) :
    Ran s (regSet r m s) [.read r s.draw, .write r (s.draw ||| m)] :=
  (ran_regRead r s).trans (ran_regWrite _ _ _)

theorem ran_regClr (r : Reg) (m : Word) (s : State) :
    Ran s (regClr r m s) [.read r s.draw, .write r (s.draw &&& ~~~m)] :=
  (ran_regRead r s).trans (ran_regWrite _ _ _)

theorem ran_bufStore (d : DataDesc) (i : Nat) (w : Word) (s : State) : Ran s (bufStore d i w s) [.store i w] :=
  ⟨rfl, by simp [readValues], by simp [readValues], by simp [readValues]⟩

/-! ### What stays -/

/-- The records no routine below a host operation writes, whether it ends or faults. -/
structure Keeps (s t : State) : Prop where
  cfg : t.cfg = s.cfg
  initialized : t.initialized = s.initialized
  inCall : t.inCall = s.inCall
  stack : t.stack = s.stack
  clk : t.clk = s.clk
  last : t.last = s.last
  refusal : t.refusal = s.refusal
  arrivals : t.arrivals = s.arrivals
  locals : t.locals = s.locals

/-- The records a routine that ends without a fault leaves alone. -/
structure KeepsAll (s t : State) : Prop extends Keeps s t where
  pc : t.pc = s.pc
  fault : t.fault = s.fault
  result : t.result = s.result

theorem Keeps.refl (s : State) : Keeps s s := by constructor <;> rfl

theorem Keeps.trans {s t u : State} (h1 : Keeps s t) (h2 : Keeps t u) : Keeps s u where
  cfg := h2.cfg.trans h1.cfg
  initialized := h2.initialized.trans h1.initialized
  inCall := h2.inCall.trans h1.inCall
  stack := h2.stack.trans h1.stack
  clk := h2.clk.trans h1.clk
  last := h2.last.trans h1.last
  refusal := h2.refusal.trans h1.refusal
  arrivals := h2.arrivals.trans h1.arrivals
  locals := h2.locals.trans h1.locals

theorem KeepsAll.refl (s : State) : KeepsAll s s := ⟨Keeps.refl s, rfl, rfl, rfl⟩

theorem KeepsAll.trans {s t u : State} (h1 : KeepsAll s t) (h2 : KeepsAll t u) : KeepsAll s u where
  toKeeps := h1.toKeeps.trans h2.toKeeps
  pc := h2.pc.trans h1.pc
  fault := h2.fault.trans h1.fault
  result := h2.result.trans h1.result

theorem keepsAll_emit (e : Event) (s : State) : KeepsAll s (emit e s) :=
  ⟨⟨rfl, rfl, rfl, rfl, rfl, rfl, rfl, rfl, rfl⟩, rfl, rfl, rfl⟩
theorem keepsAll_regRead (r : Reg) (s : State) : KeepsAll s (regRead r s) :=
  ⟨⟨rfl, rfl, rfl, rfl, rfl, rfl, rfl, rfl, rfl⟩, rfl, rfl, rfl⟩
theorem keepsAll_regWrite (r : Reg) (v : Word) (s : State) : KeepsAll s (regWrite r v s) := keepsAll_emit _ s
theorem keepsAll_delay (k : DelayKind) (s : State) : KeepsAll s (delay k s) := keepsAll_emit _ s
theorem keepsAll_regSet (r : Reg) (m : Word) (s : State) : KeepsAll s (regSet r m s) :=
  (keepsAll_regRead r s).trans (keepsAll_regWrite _ _ _)
theorem keepsAll_i (s : State) (n : Nat) : KeepsAll s { s with i := n } :=
  ⟨⟨rfl, rfl, rfl, rfl, rfl, rfl, rfl, rfl, rfl⟩, rfl, rfl, rfl⟩
theorem keepsAll_k (s : State) (n : Nat) : KeepsAll s { s with k := n } :=
  ⟨⟨rfl, rfl, rfl, rfl, rfl, rfl, rfl, rfl, rfl⟩, rfl, rfl, rfl⟩
theorem keepsAll_resp (s : State) (r : Option (List Word)) : KeepsAll s { s with resp := r } :=
  ⟨⟨rfl, rfl, rfl, rfl, rfl, rfl, rfl, rfl, rfl⟩, rfl, rfl, rfl⟩
theorem keepsAll_counters (s : State) (a b : Nat) : KeepsAll s { s with w := a, i := b } :=
  ⟨⟨rfl, rfl, rfl, rfl, rfl, rfl, rfl, rfl, rfl⟩, rfl, rfl, rfl⟩
theorem keepsAll_reads (s : State) (n : Nat) (es : List Event) :
    KeepsAll s { s.afterReads n with trace := es } :=
  ⟨⟨rfl, rfl, rfl, rfl, rfl, rfl, rfl, rfl, rfl⟩, rfl, rfl, rfl⟩

/-! ### The entries of a call -/

/-- A meaning of a faulted engine answers the fault. -/
theorem enter_fault {s : State} {f : Fault} (run : State → State) (h : s.fault = some f) :
    enter s run = .fault f := by simp [enter, h]

theorem enter_badConfig {s : State} (run : State → State) (h : s.fault = none) (hc : s.cfg.legal = false) :
    enter s run = .next (refuse .badConfig s) := by simp [enter, h, hc]

theorem enter_next {s : State} (run : State → State) (h : s.fault = none) (hc : s.cfg.legal = true) :
    enter s run = .next (run s) := by simp [enter, h, hc]

/-- Everything a meaning can answer. -/
theorem enter_cases (s : State) (run : State → State) :
    (∃ f, s.fault = some f ∧ enter s run = .fault f) ∨
    (s.fault = none ∧ s.cfg.legal = false ∧ enter s run = .next (refuse .badConfig s)) ∨
    (s.fault = none ∧ s.cfg.legal = true ∧ enter s run = .next (run s)) := by
  unfold enter
  cases h : s.fault with
  | some f => exact .inl ⟨f, rfl, rfl⟩
  | none => cases hc : s.cfg.legal <;> simp

/-- Everything the start of a host operation can do. -/
theorem hostCall_cases (b : Bool) (body : State → State) (s : State) :
    (s.busy = true ∧ hostCall b body s = refuse .reentrant s) ∨
    (s.busy = false ∧ b = true ∧ s.initialized = false ∧ hostCall b body s = refuse .notInitialized s) ∨
    (s.busy = false ∧ (b = true → s.initialized = true) ∧
      hostCall b body s = body { s with inCall := true }) := by
  unfold hostCall
  cases s.busy <;> cases b <;> cases s.initialized <;> simp

/-- Everything the start of an internal operation can do. -/
theorem internalCall_cases (body : State → State) (s : State) :
    (s.busy = true ∧ internalCall body s = refuse .reentrant s) ∨
    (s.busy = false ∧ internalCall body s = body s) := by
  unfold internalCall
  cases s.busy <;> simp

theorem State.Ready.busy {s : State} (h : s.Ready) : s.busy = false := by
  simp [State.busy, h.inCall, h.idle]

theorem enter_hostCall_ready {s : State} (h : s.Ready) {b : Bool} (body : State → State)
    (hi : b = true → s.initialized = true) :
    enter s (hostCall b body) = .next (body { s with inCall := true }) := by
  rw [enter_next _ h.fault h.legal]
  unfold hostCall
  rw [h.busy]
  cases b
  · simp
  · simp [hi rfl]

theorem enter_internalCall_ready {s : State} (h : s.Ready) (body : State → State) :
    enter s (internalCall body) = .next (body s) := by
  rw [enter_next _ h.fault h.legal]
  simp [internalCall, h.busy]

/-- Every next state of a host operation: a refusal, or its body's. -/
theorem enter_hostCall_next {b : Bool} {body : State → State} {s t : State}
    (h : enter s (hostCall b body) = .next t) :
    (∃ r, t = refuse r s) ∨
    (s.Ready ∧ (b = true → s.initialized = true) ∧ t = body { s with inCall := true }) := by
  rcases enter_cases s (hostCall b body) with ⟨f, _, he⟩ | ⟨_, _, he⟩ | ⟨hf, hl, he⟩ <;> rw [he] at h
  · simp at h
  · exact .inl ⟨_, by simpa using h.symm⟩
  · have ht : t = hostCall b body s := by simpa using h.symm
    rcases hostCall_cases b body s with ⟨_, hc⟩ | ⟨_, _, _, hc⟩ | ⟨hb, hi, hc⟩ <;> rw [hc] at ht
    · exact .inl ⟨_, ht⟩
    · exact .inl ⟨_, ht⟩
    · have h2 : s.inCall = false ∧ s.pc.op = .idle := by simpa [State.busy] using hb
      exact .inr ⟨⟨hf, hl, h2.1, h2.2⟩, hi, ht⟩

/-- Every next state of an internal operation: a refusal, or its body's. -/
theorem enter_internalCall_next {body : State → State} {s t : State}
    (h : enter s (internalCall body) = .next t) : (∃ r, t = refuse r s) ∨ (s.Ready ∧ t = body s) := by
  rcases enter_cases s (internalCall body) with ⟨f, _, he⟩ | ⟨_, _, he⟩ | ⟨hf, hl, he⟩ <;> rw [he] at h
  · simp at h
  · exact .inl ⟨_, by simpa using h.symm⟩
  · have ht : t = internalCall body s := by simpa using h.symm
    rcases internalCall_cases body s with ⟨_, hc⟩ | ⟨hb, hc⟩ <;> rw [hc] at ht
    · exact .inl ⟨_, ht⟩
    · have h2 : s.inCall = false ∧ s.pc.op = .idle := by simpa [State.busy] using hb
      exact .inr ⟨⟨hf, hl, h2.1, h2.2⟩, ht⟩

/-- Everything a control word can do. -/
theorem controlWord_cases (r : Reg) (v : Word) (s : State) :
    (s.busy = true ∧ controlWord r v s = refuse .reentrant s) ∨
    (s.busy = false ∧ controlWord r v s = regWrite r v s) :=
  internalCall_cases _ s

theorem enter_controlWord_ready {s : State} (h : s.Ready) (r : Reg) (v : Word) :
    enter s (controlWord r v) = .next (regWrite r v s) :=
  enter_internalCall_ready h _

/-- Every next state of a control word: a refusal, or the write. -/
theorem enter_controlWord_next {r : Reg} {v : Word} {s t : State} (h : enter s (controlWord r v) = .next t) :
    (∃ e, t = refuse e s) ∨ (s.Ready ∧ t = regWrite r v s) :=
  enter_internalCall_next h

/-- Every next state of what enters: a refusal, or its run's. -/
theorem enter_next_cases {run : State → State} {s t : State} (h : enter s run = .next t) :
    (∃ r, t = refuse r s) ∨ (s.fault = none ∧ s.cfg.legal = true ∧ t = run s) := by
  rcases enter_cases s run with ⟨f, _, he⟩ | ⟨_, _, he⟩ | ⟨hf, hl, he⟩ <;> rw [he] at h
  · simp at h
  · exact .inl ⟨_, by simpa using h.symm⟩
  · exact .inr ⟨hf, hl, by simpa using h.symm⟩

theorem legal_bounds {c : Config} (h : c.legal = true) :
    0 < c.cmdPollMax ∧ 0 < c.dataPollMax ∧ 0 < c.armRetryMax ∧ 0 < c.fRef ∧ c.regBase.toNat % 4 = 0 := by
  simp only [Config.legal, Bool.and_eq_true, beq_iff_eq, decide_eq_true_eq] at h
  exact ⟨h.1.1.1.2, h.1.1.2, h.1.2, h.1.1.1.1.2, h.1.1.1.1.1⟩

/-- Reading a word of the response slot: everything it can do. -/
theorem readResponse_cases (j : Nat) (s : State) :
    (∃ ws w, s.resp = some ws ∧ ws[j]? = some w ∧
      readResponse j s = { s with result := some (.responseWord w) }) ∨
    ((s.resp = none ∨ ∃ ws, s.resp = some ws ∧ ws.length ≤ j) ∧
      readResponse j s = raiseFault .readUnpopulatedResponse s.pc s) := by
  unfold readResponse
  cases hr : s.resp with
  | none => simp
  | some ws =>
    cases hj : ws[j]? with
    | some w => exact .inl ⟨ws, w, rfl, hj, by simp [hj]⟩
    | none => exact .inr ⟨.inr ⟨ws, rfl, List.getElem?_eq_none_iff.1 hj⟩, by simp [hj]⟩

end Sys2Proof.Machine
end

