-- ==== Sys2Proof/Laws/Command.lean ====
section
/-! SUPPORT. What SEND_COMMAND and its parts do, each said once: the capture and the poll loop as equations, and
the relation `CommandRan` that every run of the operation satisfies. -/

namespace Sys2Proof.Machine

/-- Advancing the environment past the n + 1st answer, one at a time. -/
theorem regRead_eq (r : Reg) (s : State) :
    regRead r s = { s.afterReads 1 with trace := s.trace ++ [.read r (s.drawAt 0)] } := by
  simp [regRead, State.afterReads, drawAt_zero, List.drop_one]

/-- The capture of n words from RSPj on. -/
theorem captureFrom_eq (n j : Nat) (s : State) :
    captureFrom n j s = (capturedWords s 0 n,
      { s.afterReads n with
        trace := s.trace ++ (List.range n).map fun m => Event.read (rspReg (j + m)) (s.drawAt m) }) := by
  induction n generalizing j s with
  | zero => simp [captureFrom, capturedWords, State.afterReads]
  | succ n ih =>
    rw [captureFrom, ih, regRead_eq]
    simp only [capturedWords, List.range_succ_eq_map, List.map_cons, List.map_map, Function.comp_def,
      Prod.mk.injEq, List.cons.injEq, State.mk.injEq]
    refine ⟨⟨by simp [drawAt_zero], ?_⟩, ?_⟩
    · apply List.map_congr_left
      intro m _
      rw [drawAt_add s _ 1 (0 + m) (by simp) (by simp)]
      congr 1; omega
    · simp only [State.afterReads, List.drop_drop, List.append_assoc, true_and, and_true]
      refine ⟨?_, ?_, ?_⟩
      · simp only [List.singleton_append, Nat.add_zero, List.append_cancel_left_eq, List.cons.injEq, true_and]
        apply List.map_congr_left
        intro m _
        have h1 : j + 1 + m = j + (m + 1) := by omega
        rw [h1]
        congr 1
        rw [drawAt_add s _ 1 m (by simp) (by simp)]
        congr 1; omega
      · congr 1; omega
      · omega

/-- The poll events, the first poll split off. -/
theorem pollEvents_succ (s t : State) (n : Nat) (h1 : t.supply = s.supply.drop 1) (h2 : t.draws = s.draws + 1) :
    pollEvents s (n + 2) =
      Event.read .CSTA (s.drawAt 0) :: Event.delay .cmdPollDelay :: pollEvents t (n + 1) := by
  have h : ∀ m, s.drawAt (m + 1) = t.drawAt m := fun m => by
    rw [drawAt_add s t 1 m h1 h2]; congr 1; omega
  simp [pollEvents, List.range_succ_eq_map, List.flatMap_map, h]

theorem pollEvents_one (s : State) : pollEvents s 1 = [Event.read .CSTA (s.drawAt 0)] := by
  simp [pollEvents, List.range_succ]

/-- The state at the start of the next poll. -/
def nextPoll (s : State) : State :=
  { delay .cmdPollDelay (regRead .CSTA s) with i := s.i + 1 }

theorem nextPoll_drawAt (s : State) (m : Nat) : (nextPoll s).drawAt m = s.drawAt (m + 1) := by
  rw [drawAt_add s (nextPoll s) 1 m (by simp [nextPoll, List.drop_one]) (by simp [nextPoll])]
  congr 1; omega

/-- A poll that is not terminal and not the last allowed one. -/
theorem pollCommand_next (d : CommandDesc) (left : Nat) (s : State)
    (h : cmdVerdict s.cfg.layout d s.draw = none) :
    pollCommand d (left + 2) s = pollCommand d (left + 1) (nextPoll s) := by
  rw [pollCommand, h]
  rfl

/-- What a terminal status makes of the poll loop's state. -/
def pollEnd (d : CommandDesc) (s : State) : CmdVerdict → CommandOutcome × State
  | .timeout => (.timeout, s)
  | .commError => (.commError, s)
  | .respond => captureResponse d s
  | .sent => (.success [], s)

/-- A terminal poll. -/
theorem pollCommand_end (d : CommandDesc) (left : Nat) (s : State) (v : CmdVerdict)
    (h : cmdVerdict s.cfg.layout d s.draw = some v) :
    pollCommand d (left + 1) s = pollEnd d (regRead .CSTA s) v := by
  rw [pollCommand, h]
  cases v <;> rfl

/-- n + 1 polls of which the last is the first terminal one (41_command.md R112, R113). -/
theorem pollCommand_terminal (d : CommandDesc) (n left : Nat) (s : State) (v : CmdVerdict) (hn : n < left)
    (h0 : ∀ m, m < n → cmdVerdict s.cfg.layout d (s.drawAt m) = none)
    (hv : cmdVerdict s.cfg.layout d (s.drawAt n) = some v) :
    pollCommand d left s = pollEnd d { s.afterReads (n + 1) with
      i := s.i + n, trace := s.trace ++ pollEvents s (n + 1) } v := by
  induction n generalizing left s with
  | zero =>
    obtain ⟨left, rfl⟩ : ∃ k, left = k + 1 := ⟨left - 1, by omega⟩
    rw [pollCommand_end d left s v (by rw [← drawAt_zero]; exact hv), pollEvents_one, regRead_eq]
    rfl
  | succ n ih =>
    obtain ⟨left, rfl⟩ : ∃ k, left = k + 2 := ⟨left - 2, by omega⟩
    rw [pollCommand_next d left s (by rw [← drawAt_zero]; exact h0 0 (by omega)),
      ih (left + 1) (nextPoll s) (by omega)
        (fun m hm => by rw [nextPoll_drawAt]; exact h0 (m + 1) (by omega))
        (by rw [nextPoll_drawAt]; exact hv)]
    congr 1
    rw [pollEvents_succ s (nextPoll s) n (by simp [nextPoll, List.drop_one]) (by simp [nextPoll])]
    ext1 <;> simp [nextPoll, ← List.drop_one, List.drop_drop, drawAt_zero] <;> omega

/-- The budget spent with no terminal status (R115). -/
theorem pollCommand_budget (d : CommandDesc) (left : Nat) (s : State)
    (h0 : ∀ m, m < left + 1 → cmdVerdict s.cfg.layout d (s.drawAt m) = none) :
    pollCommand d (left + 1) s = (.timeout, { s.afterReads (left + 1) with
      i := s.i + left, trace := s.trace ++ pollEvents s (left + 1) }) := by
  induction left generalizing s with
  | zero =>
    rw [pollCommand, ← drawAt_zero, h0 0 (by omega), pollEvents_one, regRead_eq]
    rfl
  | succ left ih =>
    rw [pollCommand_next d left s (by rw [← drawAt_zero]; exact h0 0 (by omega)),
      ih (nextPoll s) (fun m hm => by rw [nextPoll_drawAt]; exact h0 (m + 1) (by omega))]
    congr 1
    rw [pollEvents_succ s (nextPoll s) left (by simp [nextPoll, List.drop_one]) (by simp [nextPoll])]
    ext1 <;> simp [nextPoll, ← List.drop_one, List.drop_drop, drawAt_zero] <;> omega

/-- The first number below n with a property, or none. -/
theorem first_or_none (p : Nat → Prop) (n : Nat) :
    (∃ m, m < n ∧ p m ∧ ∀ k, k < m → ¬ p k) ∨ ∀ k, k < n → ¬ p k := by
  induction n with
  | zero => exact .inr (by omega)
  | succ n ih =>
    rcases ih with ⟨m, hm, hp, hk⟩ | h
    · exact .inl ⟨m, by omega, hp, hk⟩
    · by_cases hn : p n
      · exact .inl ⟨n, by omega, hn, h⟩
      · refine .inr fun k hk => ?_
        rcases Nat.lt_succ_iff_lt_or_eq.1 hk with h1 | rfl
        · exact h k h1
        · exact hn

/-- Either some poll within the budget is the first terminal one, or none is. -/
theorem poll_cases (s : State) (d : CommandDesc) (n : Nat) :
    (∃ m v, m < n ∧ (∀ k, k < m → cmdVerdict s.cfg.layout d (s.drawAt k) = none) ∧
      cmdVerdict s.cfg.layout d (s.drawAt m) = some v) ∨
    ∀ k, k < n → cmdVerdict s.cfg.layout d (s.drawAt k) = none := by
  rcases first_or_none (fun m => cmdVerdict s.cfg.layout d (s.drawAt m) ≠ none) n with ⟨m, hm, hp, hk⟩ | h
  · obtain ⟨v, hv⟩ := Option.ne_none_iff_exists'.1 hp
    exact .inl ⟨m, v, hm, fun k hk' => not_not.1 (hk k hk'), hv⟩
  · exact .inr fun k hk => not_not.1 (h k hk)

/-- The words SEND_COMMAND captures on its way out. -/
theorem pollEnd_respond (d : CommandDesc) (s : State) :
    pollEnd d s .respond = (.success (capturedWords s 0 (if d.long then 4 else 1)),
      { s.afterReads (if d.long then 4 else 1) with
        trace := s.trace ++ captureEvents s 0 (if d.long then 4 else 1) }) := by
  simp [pollEnd, captureResponse, captureFrom_eq, captureEvents]

end Sys2Proof.Machine
end

