-- ==== Sys2Proof/Laws/Data.lean ====
section
/-! SUPPORT. What ARM_TRANSFER and WAIT_AND_DRAIN and their parts do, each said once: the busy loop and a burst
as equations, `Drained`, which every run of the data poll satisfies whether it ends or faults, and the poll iteration
by iteration. -/

namespace Sys2Proof.Machine

/-! ### ARM_TRANSFER -/

/-- The state after a busy check that finds a transfer active and the round that follows it. -/
def nextRound (s : State) : State := stopRound (regRead .DSTA s)

theorem nextRound_drawAt (s : State) (m : Nat) : (nextRound s).drawAt m = s.drawAt (m + 2) := by
  rw [drawAt_add s (nextRound s) 2 m
    (by simp [nextRound, stopRound, controllerReset, issueStop, ← List.drop_one, List.drop_drop])
    (by simp [nextRound, stopRound, controllerReset, issueStop])]
  congr 1; omega

theorem quiesce_busy (d : DataDesc) (left : Nat) (s : State) (h : transferBusy s.cfg.layout s.draw = true) :
    quiesce d (left + 1) s = quiesce d left (nextRound s) := by
  rw [quiesce]; simp [h, nextRound]

theorem quiesce_stuck_end (d : DataDesc) (s : State) (h : transferBusy s.cfg.layout s.draw = true) :
    quiesce d 0 s = (.commError, regRead .DSTA s) := by
  rw [quiesce]; simp [h]

theorem quiesce_quiet (d : DataDesc) (left : Nat) (s : State) (h : transferBusy s.cfg.layout s.draw = false) :
    quiesce d left s = (.success, programTransfer d (regRead .DSTA s)) := by
  unfold quiesce; simp [h]

/-- n rounds, one after another. -/
def roundsState : Nat → State → State
  | 0, s => s
  | n + 1, s => roundsState n (nextRound s)

theorem roundEvents_succ (s : State) (n : Nat) :
    roundEvents s (n + 1) = roundEvents s 1 ++ roundEvents (nextRound s) n := by
  have hc : (nextRound s).cfg = s.cfg := by simp [nextRound, stopRound, controllerReset, issueStop]
  have h : ∀ m, (nextRound s).drawAt (2 * m) = s.drawAt (2 * (m + 1)) := fun m => by
    rw [nextRound_drawAt]; congr 1
  have h' : ∀ m, (nextRound s).drawAt (2 * m + 1) = s.drawAt (2 * (m + 1) + 1) := fun m => by
    rw [nextRound_drawAt]; congr 1
  simp [roundEvents, List.range_succ_eq_map, List.flatMap_map, h, h', hc]

theorem nextRound_trace (s : State) : (nextRound s).trace = s.trace ++ roundEvents s 1 := by
  have h1 : (regRead .DSTA s).draw = s.drawAt 1 := by
    rw [← drawAt_zero, drawAt_add s (regRead .DSTA s) 1 0 (by simp [List.drop_one]) (by simp)]
  have h2 : (regWrite .DCON s.cfg.dconStopValue (regRead .DSTA s)).draw = s.drawAt 1 := h1
  simp [nextRound, stopRound, controllerReset, issueStop, roundEvents, List.range_succ, drawAt_zero, h2]

/-- n rounds as one equation. -/
theorem roundsState_eq (n : Nat) (s : State) :
    roundsState n s = { s.afterReads (2 * n) with k := s.k + n, trace := s.trace ++ roundEvents s n } := by
  induction n generalizing s with
  | zero => ext1 <;> simp [roundsState, roundEvents]
  | succ n ih =>
    rw [roundsState, ih, roundEvents_succ]
    ext1 <;> simp [nextRound_trace, State.afterReads] <;>
      simp [nextRound, stopRound, controllerReset, issueStop, ← List.drop_one, List.drop_drop] <;>
      omega

/-- n busy checks with their rounds, then a quiet one (42_data.md R130 to R134). -/
theorem quiesce_after (d : DataDesc) (n left : Nat) (s : State) (hn : n ≤ left)
    (hb : ∀ m, m < n → transferBusy s.cfg.layout (s.drawAt (2 * m)) = true)
    (hq : transferBusy s.cfg.layout (s.drawAt (2 * n)) = false) :
    quiesce d left s = (.success, programTransfer d (regRead .DSTA (roundsState n s))) := by
  induction n generalizing left s with
  | zero => exact quiesce_quiet d left s (by rw [← drawAt_zero]; exact hq)
  | succ n ih =>
    obtain ⟨left, rfl⟩ : ∃ k, left = k + 1 := ⟨left - 1, by omega⟩
    rw [quiesce_busy d left s (by rw [← drawAt_zero]; exact hb 0 (by omega))]
    exact ih left (nextRound s) (by omega)
      (fun m hm => by rw [nextRound_drawAt]; exact hb (m + 1) (by omega))
      (by rw [nextRound_drawAt]; exact hq)

/-- Busy at every check (R133, R137). -/
theorem quiesce_stuck (d : DataDesc) (left : Nat) (s : State)
    (hb : ∀ m, m ≤ left → transferBusy s.cfg.layout (s.drawAt (2 * m)) = true) :
    quiesce d left s = (.commError, regRead .DSTA (roundsState left s)) := by
  induction left generalizing s with
  | zero => exact quiesce_stuck_end d s (by rw [← drawAt_zero]; exact hb 0 (by omega))
  | succ left ih =>
    rw [quiesce_busy d left s (by rw [← drawAt_zero]; exact hb 0 (by omega))]
    exact ih (nextRound s) (fun m hm => by rw [nextRound_drawAt]; exact hb (m + 1) (by omega))

/-- Either some check within the rounds allowed is quiet after n busy ones, or every check is busy. -/
theorem busy_cases (s : State) (left : Nat) :
    (∃ n, n ≤ left ∧ (∀ m, m < n → transferBusy s.cfg.layout (s.drawAt (2 * m)) = true) ∧
      transferBusy s.cfg.layout (s.drawAt (2 * n)) = false) ∨
    ∀ m, m ≤ left → transferBusy s.cfg.layout (s.drawAt (2 * m)) = true := by
  rcases first_or_none (fun m => transferBusy s.cfg.layout (s.drawAt (2 * m)) = false) (left + 1) with
    ⟨n, hn, hp, hk⟩ | h
  · exact .inl ⟨n, by omega, fun m hm => by simpa using hk m hm, hp⟩
  · exact .inr fun m hm => by simpa using h m (by omega)

/-! ### Bursts -/

/-- The state after one word has been read and stored. -/
def nextWord (d : DataDesc) (s : State) : State :=
  { bufStore d s.w s.draw (regRead .DAT s) with w := s.w + 1 }

theorem nextWord_drawAt (d : DataDesc) (s : State) (m : Nat) : (nextWord d s).drawAt m = s.drawAt (m + 1) := by
  rw [drawAt_add s (nextWord d s) 1 m (by simp [nextWord, List.drop_one]) (by simp [nextWord])]
  congr 1; omega

theorem burst_fits_one (d : DataDesc) (p : Pos) (n : Nat) (s : State) (h : 4 * s.w + 4 ≤ d.bufCapacity) :
    burst d p (n + 1) s = burst d p n (nextWord d s) := by
  rw [burst]; simp [Nat.not_lt.2 h, nextWord]

theorem burst_overrun_one (d : DataDesc) (p : Pos) (n : Nat) (s : State) (h : d.bufCapacity < 4 * s.w + 4) :
    burst d p (n + 1) s = .overrun (raiseFault (.bufferOverrun s.w) p (regRead .DAT s)) := by
  rw [burst]; simp [h]

theorem burstEvents_succ (s : State) (a i n : Nat) :
    burstEvents s a i (n + 1) =
      [.read .DAT (s.drawAt a), .store i (s.drawAt a)] ++ burstEvents s (a + 1) (i + 1) n := by
  simp [burstEvents, List.range_succ_eq_map, List.flatMap_map, Nat.add_assoc, Nat.add_comm 1]

theorem burstEvents_shift (s t : State) (a b i n : Nat) (h : ∀ m, t.drawAt (a + m) = s.drawAt (b + m)) :
    burstEvents t a i n = burstEvents s b i n := by
  simp [burstEvents, h]

theorem capturedWords_succ (s : State) (a n : Nat) :
    capturedWords s a (n + 1) = s.drawAt a :: capturedWords s (a + 1) n := by
  simp [capturedWords, List.range_succ_eq_map, Nat.add_assoc, Nat.add_comm 1]

theorem capturedWords_shift (s t : State) (a b n : Nat) (h : ∀ m, t.drawAt (a + m) = s.drawAt (b + m)) :
    capturedWords t a n = capturedWords s b n := by
  simp [capturedWords, h]

@[simp] theorem capturedWords_length (s : State) (a n : Nat) : (capturedWords s a n).length = n := by
  simp [capturedWords]

/-- The state after n words have been read and stored. -/
def afterWords (d : DataDesc) (n : Nat) (s : State) : State :=
  { s.afterReads n with
    w := s.w + n
    mem := storeWords s.cfg.bufEndian d s.mem s.w (capturedWords s 0 n)
    trace := s.trace ++ burstEvents s 0 s.w n }

@[simp] theorem afterWords_cfg (d : DataDesc) (n : Nat) (s : State) : (afterWords d n s).cfg = s.cfg := rfl
@[simp] theorem afterWords_initialized (d : DataDesc) (n : Nat) (s : State) : (afterWords d n s).initialized = s.initialized := rfl
@[simp] theorem afterWords_inCall (d : DataDesc) (n : Nat) (s : State) : (afterWords d n s).inCall = s.inCall := rfl
@[simp] theorem afterWords_pc (d : DataDesc) (n : Nat) (s : State) : (afterWords d n s).pc = s.pc := rfl
@[simp] theorem afterWords_stack (d : DataDesc) (n : Nat) (s : State) : (afterWords d n s).stack = s.stack := rfl
@[simp] theorem afterWords_clk (d : DataDesc) (n : Nat) (s : State) : (afterWords d n s).clk = s.clk := rfl
@[simp] theorem afterWords_resp (d : DataDesc) (n : Nat) (s : State) : (afterWords d n s).resp = s.resp := rfl
@[simp] theorem afterWords_last (d : DataDesc) (n : Nat) (s : State) : (afterWords d n s).last = s.last := rfl
@[simp] theorem afterWords_i (d : DataDesc) (n : Nat) (s : State) : (afterWords d n s).i = s.i := rfl
@[simp] theorem afterWords_k (d : DataDesc) (n : Nat) (s : State) : (afterWords d n s).k = s.k := rfl
@[simp] theorem afterWords_fault (d : DataDesc) (n : Nat) (s : State) : (afterWords d n s).fault = s.fault := rfl
@[simp] theorem afterWords_refusal (d : DataDesc) (n : Nat) (s : State) : (afterWords d n s).refusal = s.refusal := rfl
@[simp] theorem afterWords_result (d : DataDesc) (n : Nat) (s : State) : (afterWords d n s).result = s.result := rfl
@[simp] theorem afterWords_arrivals (d : DataDesc) (n : Nat) (s : State) : (afterWords d n s).arrivals = s.arrivals := rfl
@[simp] theorem afterWords_locals (d : DataDesc) (n : Nat) (s : State) : (afterWords d n s).locals = s.locals := rfl
@[simp] theorem afterWords_w (d : DataDesc) (n : Nat) (s : State) : (afterWords d n s).w = s.w + n := rfl
@[simp] theorem afterWords_mem (d : DataDesc) (n : Nat) (s : State) :
    (afterWords d n s).mem = storeWords s.cfg.bufEndian d s.mem s.w (capturedWords s 0 n) := rfl
@[simp] theorem afterWords_trace (d : DataDesc) (n : Nat) (s : State) :
    (afterWords d n s).trace = s.trace ++ burstEvents s 0 s.w n := rfl
@[simp] theorem afterWords_supply (d : DataDesc) (n : Nat) (s : State) :
    (afterWords d n s).supply = s.supply.drop n := rfl
@[simp] theorem afterWords_draws (d : DataDesc) (n : Nat) (s : State) : (afterWords d n s).draws = s.draws + n := rfl
@[simp] theorem afterWords_drawAt (d : DataDesc) (n : Nat) (s : State) (k : Nat) :
    (afterWords d n s).drawAt k = s.drawAt (n + k) := drawAt_add s _ n k rfl rfl
theorem afterWords_draw (d : DataDesc) (n : Nat) (s : State) : (afterWords d n s).draw = s.drawAt n := by
  rw [← drawAt_zero]; simp

theorem afterWords_zero (d : DataDesc) (s : State) : afterWords d 0 s = s := by
  ext1 <;> simp [afterWords, capturedWords, burstEvents, storeWords]

theorem afterWords_next (d : DataDesc) (n : Nat) (s : State) :
    afterWords d n (nextWord d s) = afterWords d (n + 1) s := by
  have hd : ∀ m, (nextWord d s).drawAt (0 + m) = s.drawAt (1 + m) := fun m => by
    rw [nextWord_drawAt]; congr 1; omega
  unfold afterWords
  rw [capturedWords_succ, burstEvents_succ, capturedWords_shift s (nextWord d s) 0 1 n hd,
    burstEvents_shift s (nextWord d s) 0 1 _ n hd]
  ext1 <;> simp [nextWord, storeWords, ← List.drop_one, List.drop_drop, drawAt_zero, State.afterReads] <;>
    omega

/-- A burst that fits the capacity (42_data.md R141). -/
theorem burst_fits (d : DataDesc) (p : Pos) (n : Nat) (s : State) (h : n = 0 ∨ 4 * (s.w + n) ≤ d.bufCapacity) :
    burst d p n s = .ok () (afterWords d n s) := by
  induction n generalizing s with
  | zero => rw [burst, afterWords_zero]
  | succ n ih =>
    rw [burst_fits_one d p n s (by omega), ih (nextWord d s) (by simp [nextWord]; omega), afterWords_next]

/-- A burst that does not: the words that fit, then the read of the one that does not, and the fault (R146). -/
theorem burst_overruns (d : DataDesc) (p : Pos) (n m : Nat) (s : State) (hm : m < n)
    (h1 : m = 0 ∨ 4 * (s.w + m) ≤ d.bufCapacity) (h2 : d.bufCapacity < 4 * (s.w + m) + 4) :
    burst d p n s = .overrun
      (raiseFault (.bufferOverrun (s.w + m)) p (regRead .DAT (afterWords d m s))) := by
  induction m generalizing n s with
  | zero =>
    obtain ⟨n, rfl⟩ : ∃ k, n = k + 1 := ⟨n - 1, by omega⟩
    rw [burst_overrun_one d p n s (by omega), afterWords_zero]
    rfl
  | succ m ih =>
    obtain ⟨n, rfl⟩ : ∃ k, n = k + 1 := ⟨n - 1, by omega⟩
    rw [burst_fits_one d p n s (by omega),
      ih n (nextWord d s) (by omega) (by simp [nextWord]; omega) (by simp [nextWord]; omega), afterWords_next]
    congr 3
    simp [nextWord]; omega

/-- Everything a burst can do: m words stored, all of the burst or up to the capacity. -/
theorem burst_cases (d : DataDesc) (p : Pos) (n : Nat) (s : State) :
    ((n = 0 ∨ 4 * (s.w + n) ≤ d.bufCapacity) ∧ burst d p n s = .ok () (afterWords d n s)) ∨
    ∃ m, m < n ∧ (m = 0 ∨ 4 * (s.w + m) ≤ d.bufCapacity) ∧ d.bufCapacity < 4 * (s.w + m) + 4 ∧
      burst d p n s = .overrun
        (raiseFault (.bufferOverrun (s.w + m)) p (regRead .DAT (afterWords d m s))) := by
  by_cases h : n = 0 ∨ 4 * (s.w + n) ≤ d.bufCapacity
  · exact .inl ⟨h, burst_fits d p n s h⟩
  · right
    by_cases h0 : d.bufCapacity < 4 * s.w + 4
    · exact ⟨0, by omega, .inl rfl, by omega, burst_overruns d p n 0 s (by omega) (.inl rfl) (by omega)⟩
    · refine ⟨d.bufCapacity / 4 - s.w, by omega, .inr (by omega), by omega, ?_⟩
      exact burst_overruns d p n _ s (by omega) (.inr (by omega)) (by omega)

/-- An iteration that finds n words, all within the capacity. -/
theorem drainOnce_fits (d : DataDesc) (n : Nat) (s : State) (h : fifoHasData s.cfg.layout (s.drawAt 0) = true)
    (hn : fifoWords s.cfg.layout (s.drawAt 0) = n) (hc : 4 * (s.w + n) ≤ d.bufCapacity) :
    drainOnce d s = .ok () (delay .drainPause (afterWords d n (regRead .FSTA s))) := by
  simp only [drainOnce, ← drawAt_zero, h, hn, burst_fits d loopBurstPos n (regRead .FSTA s) (.inr hc), if_true]

/-- An iteration that finds more words than the capacity holds after the first m. -/
theorem drainOnce_overruns (d : DataDesc) (m : Nat) (s : State)
    (h : fifoHasData s.cfg.layout (s.drawAt 0) = true) (hm : m < fifoWords s.cfg.layout (s.drawAt 0))
    (h1 : m = 0 ∨ 4 * (s.w + m) ≤ d.bufCapacity) (h2 : d.bufCapacity < 4 * (s.w + m) + 4) :
    drainOnce d s = .overrun (raiseFault (.bufferOverrun (s.w + m)) loopBurstPos
      (regRead .DAT (afterWords d m (regRead .FSTA s)))) := by
  simp only [drainOnce, ← drawAt_zero, h, burst_overruns d loopBurstPos _ m (regRead .FSTA s) hm h1 h2, if_true]
  rfl

/-- A final drain of n words, all within the capacity. -/
theorem finalDrain_fits (d : DataDesc) (n : Nat) (s : State)
    (hn : fifoWords s.cfg.layout (s.drawAt 0) = n) (hc : 4 * (s.w + n) ≤ d.bufCapacity) :
    finalDrain d s = .ok () (afterWords d n (regRead .FSTA s)) := by
  unfold finalDrain
  rw [← drawAt_zero, hn, burst_fits d finalBurstPos n (regRead .FSTA s) (.inr hc)]

/-! ### Stored words -/

theorem storeWords_append (e : Endian) (d : DataDesc) (m : Memory) (i : Nat) (as bs : List Word) :
    storeWords e d m i (as ++ bs) = storeWords e d (storeWords e d m i as) (i + as.length) bs := by
  induction as generalizing m i with
  | nil => simp [storeWords]
  | cons a as ih => simp [storeWords, ih, Nat.add_assoc, Nat.add_comm 1]

theorem storeWords_wf (e : Endian) (d : DataDesc) {m : Memory} (i : Nat) (ws : List Word) (h : m.wf = true) :
    (storeWords e d m i ws).wf = true := by
  induction ws generalizing m i with
  | nil => exact h
  | cons w ws ih => exact ih (i + 1) (Memory.wf_writeWord e _ w h)

/-- Outside the words stored, memory is as before. -/
theorem storeWords_other (e : Endian) (d : DataDesc) (m : Memory) (i : Nat) (ws : List Word) {a : Nat}
    (h : a < wordAddr d i ∨ wordAddr d (i + ws.length) ≤ a) : (storeWords e d m i ws).read a = m.read a := by
  induction ws generalizing m i with
  | nil => rfl
  | cons w ws ih =>
    simp only [List.length_cons, wordAddr] at h
    rw [storeWords, ih _ (i + 1) (by simp only [wordAddr]; omega)]
    exact Memory.read_writeWord_other m e w (by simp only [wordAddr]; omega)

/-- Byte j of stored word n. -/
theorem storeWords_same (e : Endian) (d : DataDesc) (m : Memory) (i : Nat) (ws : List Word) {n j : Nat}
    (hn : n < ws.length) (hj : j < 4) :
    (storeWords e d m i ws).read (wordAddr d (i + n) + j) = (ws[n]?).map (wordByte e · j) := by
  induction ws generalizing m i n with
  | nil => simp at hn
  | cons w ws ih =>
    rw [storeWords]
    cases n with
    | zero =>
      rw [storeWords_other e d _ (i + 1) ws (by simp only [wordAddr]; omega)]
      simpa using Memory.read_writeWord_same m e (wordAddr d i) w hj
    | succ n =>
      have := ih (m.writeWord e (wordAddr d i) w) (i + 1) (n := n) (by simpa using hn)
      rw [show i + (n + 1) = i + 1 + n by omega, this]
      simp

/-! ### The data poll -/

/-- From s to t the data path read words from DAT and stored the first of them; the events are its own, none of
them a register write; and the records outside its reach are as before. -/
structure Drained (d : DataDesc) (s t : State) (es : List Event) : Prop where
  ran : Ran s t es
  keeps : Keeps s t
  resp : t.resp = s.resp
  k : t.k = s.k
  count : s.w ≤ t.w ∧ t.w - s.w ≤ (readsOf .DAT es).length
  cap : t.w = s.w ∨ 4 * t.w ≤ d.bufCapacity
  mem : t.mem = storeWords s.cfg.bufEndian d s.mem s.w ((readsOf .DAT es).take (t.w - s.w))
  own : ∀ e ∈ es, (∃ r v, e = .read r v ∧ (r = .FSTA ∨ r = .DSTA ∨ r = .DAT)) ∨
    (∃ i v, e = .store i v ∧ s.w ≤ i ∧ i < t.w) ∨ e = .delay .drainPause

/-- A drain that has stored every word it read and has not faulted. -/
structure DrainedOk (d : DataDesc) (s t : State) (es : List Event) : Prop extends Drained d s t es where
  all : t.w = s.w + (readsOf .DAT es).length
  pc : t.pc = s.pc
  fault : t.fault = s.fault
  result : t.result = s.result

theorem Drained.refl (d : DataDesc) (s : State) : Drained d s s [] where
  ran := Ran.refl s
  keeps := Keeps.refl s
  resp := rfl
  k := rfl
  count := by simp [readsOf]
  cap := .inl rfl
  mem := by simp [storeWords]
  own := by simp

theorem DrainedOk.refl (d : DataDesc) (s : State) : DrainedOk d s s [] where
  toDrained := Drained.refl d s
  all := by simp [readsOf]
  pc := rfl
  fault := rfl
  result := rfl

/-- A complete drain, then another. -/
theorem DrainedOk.trans_left {d : DataDesc} {s t u : State} {as bs : List Event} (h1 : DrainedOk d s t as)
    (h2 : Drained d t u bs) : Drained d s u (as ++ bs) where
  ran := h1.ran.trans h2.ran
  keeps := h1.keeps.trans h2.keeps
  resp := h2.resp.trans h1.resp
  k := h2.k.trans h1.k
  count := by
    have := h1.all; have := h2.count
    rw [readsOf_append, List.length_append]; omega
  cap := by
    rcases h2.cap with h | h
    · rcases h1.cap with h' | h'
      · exact .inl (h.trans h')
      · exact .inr (by omega)
    · exact .inr h
  mem := by
    have ha := h1.all; have hc := h2.count
    have h3 : t.mem = storeWords s.cfg.bufEndian d s.mem s.w (readsOf .DAT as) := by
      rw [h1.mem, List.take_of_length_le (by omega)]
    have h4 : (readsOf .DAT as ++ readsOf .DAT bs).take (u.w - s.w) =
        readsOf .DAT as ++ (readsOf .DAT bs).take (u.w - t.w) := by
      rw [List.take_append, List.take_of_length_le (l := readsOf .DAT as) (by omega)]
      congr 2; omega
    rw [h2.mem, h3, h1.keeps.cfg, readsOf_append, h4, storeWords_append, ha]
  own := by
    have ha := h1.all; have hc := h2.count
    intro e he
    rcases List.mem_append.1 he with he | he
    · rcases h1.own e he with h | ⟨i, v, h, h', h''⟩ | h
      · exact .inl h
      · exact .inr (.inl ⟨i, v, h, h', by omega⟩)
      · exact .inr (.inr h)
    · rcases h2.own e he with h | ⟨i, v, h, h', h''⟩ | h
      · exact .inl h
      · exact .inr (.inl ⟨i, v, h, by omega, h''⟩)
      · exact .inr (.inr h)

theorem DrainedOk.trans {d : DataDesc} {s t u : State} {as bs : List Event} (h1 : DrainedOk d s t as)
    (h2 : DrainedOk d t u bs) : DrainedOk d s u (as ++ bs) where
  toDrained := h1.trans_left h2.toDrained
  all := by rw [h2.all, h1.all, readsOf_append, List.length_append, Nat.add_assoc]
  pc := h2.pc.trans h1.pc
  fault := h2.fault.trans h1.fault
  result := h2.result.trans h1.result

/-- A status read drains nothing. -/
theorem drainedOk_regRead (d : DataDesc) (r : Reg) (s : State) (h : r = .FSTA ∨ r = .DSTA) :
    DrainedOk d s (regRead r s) [.read r s.draw] where
  ran := ran_regRead r s
  keeps := by constructor <;> rfl
  resp := rfl
  k := rfl
  count := by simp
  cap := .inl rfl
  mem := by simp [storeWords]
  own := by
    intro e he
    exact .inl ⟨r, s.draw, by simpa using he, by rcases h with rfl | rfl <;> simp⟩
  all := by rcases h with rfl | rfl <;> simp [readsOf]
  pc := rfl
  fault := rfl
  result := rfl

theorem drainedOk_pause (d : DataDesc) (s : State) : DrainedOk d s (delay .drainPause s) [.delay .drainPause] where
  ran := ran_delay _ s
  keeps := by constructor <;> rfl
  resp := rfl
  k := rfl
  count := by simp
  cap := .inl rfl
  mem := by simp [storeWords]
  own := by simp
  all := by simp [readsOf]
  pc := rfl
  fault := rfl
  result := rfl

/-- The iteration number does not count. -/
theorem drainedOk_i (d : DataDesc) (s : State) (n : Nat) : DrainedOk d s { s with i := n } [] where
  ran := (Ran.refl s).congr rfl rfl rfl
  keeps := by constructor <;> rfl
  resp := rfl
  k := rfl
  count := by simp
  cap := .inl rfl
  mem := by simp [storeWords]
  own := by simp
  all := by simp [readsOf]
  pc := rfl
  fault := rfl
  result := rfl

@[simp] theorem readsOf_burst (s : State) (a i n : Nat) :
    readsOf .DAT (burstEvents s a i n) = capturedWords s a n := by
  induction n generalizing a i with
  | zero => rfl
  | succ n ih => rw [burstEvents_succ, capturedWords_succ]; simp [readsOf, ih]

theorem readsOf_burst_other (r : Reg) (s : State) (a i n : Nat) (h : r ≠ .DAT) :
    readsOf r (burstEvents s a i n) = [] := by
  induction n generalizing a i with
  | zero => rfl
  | succ n ih => rw [burstEvents_succ]; simp [readsOf, ih, Ne.symm h]

@[simp] theorem readValues_burst (s : State) (a i n : Nat) :
    readValues (burstEvents s a i n) = capturedWords s a n := by
  induction n generalizing a i with
  | zero => rfl
  | succ n ih => rw [burstEvents_succ, capturedWords_succ]; simp [readValues, ih]

theorem mem_burstEvents (s : State) (a i n : Nat) (e : Event) (h : e ∈ burstEvents s a i n) :
    (∃ v, e = .read .DAT v) ∨ ∃ m v, e = .store m v ∧ i ≤ m ∧ m < i + n := by
  simp only [burstEvents, List.mem_flatMap, List.mem_range, List.mem_cons, List.not_mem_nil, or_false] at h
  obtain ⟨j, hj, rfl | rfl⟩ := h
  · exact .inl ⟨_, rfl⟩
  · exact .inr ⟨_, _, rfl, by omega, by omega⟩

theorem capturedWords_get (s : State) (a n k : Nat) (h : k < n) :
    (capturedWords s a n)[k]? = some (s.drawAt (a + k)) := by
  simp [capturedWords, h]

/-- A burst within the capacity. -/
theorem drainedOk_afterWords (d : DataDesc) (n : Nat) (s : State)
    (h : n = 0 ∨ 4 * (s.w + n) ≤ d.bufCapacity) :
    DrainedOk d s (afterWords d n s) (burstEvents s 0 s.w n) where
  ran := by
    constructor
    · rfl
    · intro k hk
      simp at hk ⊢
      rw [capturedWords_get s 0 n k hk]; simp
    · simp [afterWords]
    · simp [afterWords]
  keeps := by constructor <;> rfl
  resp := rfl
  k := rfl
  count := by simp [afterWords]
  cap := by
    rcases h with rfl | h
    · exact .inl rfl
    · exact .inr h
  mem := by
    rw [readsOf_burst, List.take_of_length_le (by simp [afterWords])]
    rfl
  own := by
    intro e he
    rcases mem_burstEvents s 0 s.w n e he with ⟨v, rfl⟩ | ⟨m, v, rfl, h1, h2⟩
    · exact .inl ⟨.DAT, v, rfl, by simp⟩
    · exact .inr (.inl ⟨m, v, rfl, h1, h2⟩)
  all := by simp [afterWords]
  pc := rfl
  fault := rfl
  result := rfl

/-- The read of a word that is not stored, and the fault. -/
theorem drained_overrun (d : DataDesc) (f : Fault) (p : Pos) (s : State) :
    Drained d s (raiseFault f p (regRead .DAT s)) [.read .DAT s.draw] where
  ran := (ran_regRead .DAT s).congr rfl rfl rfl
  keeps := by constructor <;> rfl
  resp := rfl
  k := rfl
  count := by simp
  cap := .inl rfl
  mem := by simp [storeWords]
  own := by simp

/-- How a drain ends in a fault: the index is s.w, past the capacity, at one of the two burst lines. -/
structure Overran (d : DataDesc) (s t : State) (es : List Event) : Prop extends Drained d s t es where
  fault : t.fault = some (.bufferOverrun t.w)
  past : d.bufCapacity < 4 * t.w + 4
  at_ : t.pc = loopBurstPos ∨ t.pc = finalBurstPos
  result : t.result = some (.faulted (.bufferOverrun t.w))
  last : ∃ as v, es = as ++ [.read .DAT v]
  words : (readsOf .DAT es).length = t.w - s.w + 1

/-- A complete drain, then one that overruns. -/
theorem DrainedOk.then_overran {d : DataDesc} {s t u : State} {as bs : List Event} (h1 : DrainedOk d s t as)
    (h2 : Overran d t u bs) : Overran d s u (as ++ bs) where
  toDrained := h1.trans_left h2.toDrained
  fault := h2.fault
  past := h2.past
  at_ := h2.at_
  result := h2.result
  last := by obtain ⟨cs, v, rfl⟩ := h2.last; exact ⟨as ++ cs, v, by simp⟩
  words := by
    have := h1.all; have := h2.words; have := h2.count
    rw [readsOf_append, List.length_append]; omega

/-- Everything a burst can do, as a drain. -/
theorem burst_spec (d : DataDesc) (p : Pos) (n : Nat) (s : State) (hp : p = loopBurstPos ∨ p = finalBurstPos) :
    (∃ t, burst d p n s = .ok () t ∧ DrainedOk d s t (burstEvents s 0 s.w n) ∧ t.i = s.i) ∨
    ∃ t m, burst d p n s = .overrun t ∧ m < n ∧ t.i = s.i ∧
      Overran d s t (burstEvents s 0 s.w m ++ [.read .DAT (afterWords d m s).draw]) := by
  rcases burst_cases d p n s with ⟨h, hb⟩ | ⟨m, hm, h1, h2, hb⟩
  · exact .inl ⟨_, hb, drainedOk_afterWords d n s h, rfl⟩
  · refine .inr ⟨_, m, hb, hm, rfl, ?_⟩
    refine (drainedOk_afterWords d m s h1).then_overran ?_
    exact {
      toDrained := drained_overrun d _ p _
      fault := rfl
      past := h2
      at_ := hp
      result := rfl
      last := ⟨[], _, rfl⟩
      words := by simp [readsOf] }

/-! ### One iteration, the final drain and the whole poll -/

/-- One FIFO status read, no data status read, and at most a burst's words. -/
structure OneBurst (s t : State) (es : List Event) : Prop where
  i : t.i = s.i
  dsta : readsOf .DSTA es = []
  fsta : (readsOf .FSTA es).length = 1
  words : ∀ b, (∀ v, fifoWords s.cfg.layout v ≤ b) → (readsOf .DAT es).length ≤ b

/-- Everything a FIFO status read with the burst after it can do. -/
theorem readAndBurst_spec (d : DataDesc) (p : Pos) (s : State) (hp : p = loopBurstPos ∨ p = finalBurstPos) :
    (∃ t es, burst d p (fifoWords s.cfg.layout s.draw) (regRead .FSTA s) = .ok () t ∧ DrainedOk d s t es ∧
      OneBurst s t es) ∨
    ∃ t es, burst d p (fifoWords s.cfg.layout s.draw) (regRead .FSTA s) = .overrun t ∧ Overran d s t es ∧
      OneBurst s t es := by
  have h0 := drainedOk_regRead d .FSTA s (.inl rfl)
  rcases burst_spec d p (fifoWords s.cfg.layout s.draw) (regRead .FSTA s) hp with
    ⟨t, hb, ht, hi⟩ | ⟨t, m, hb, hm, hi, ht⟩
  · refine .inl ⟨t, _, hb, h0.trans ht, hi, ?_, ?_, ?_⟩
    · simp [readsOf, readsOf_burst_other]
    · simp [readsOf, readsOf_burst_other]
    · intro b h; simpa [readsOf] using h _
  · refine .inr ⟨t, _, hb, h0.then_overran ht, hi, ?_, ?_, ?_⟩
    · simp [readsOf, readsOf_burst_other]
    · simp [readsOf, readsOf_burst_other]
    · intro b h; have := h s.draw; simp [readsOf]; omega

/-- Everything R140 L2 and L3 can do. -/
theorem drainOnce_spec (d : DataDesc) (s : State) :
    (∃ t es, drainOnce d s = .ok () t ∧ DrainedOk d s t es ∧ OneBurst s t es) ∨
    ∃ t es, drainOnce d s = .overrun t ∧ Overran d s t es ∧ OneBurst s t es := by
  unfold drainOnce
  by_cases h : fifoHasData s.cfg.layout s.draw = true
  · rcases readAndBurst_spec d loopBurstPos s (.inl rfl) with ⟨t, es, hb, ht, ho⟩ | ⟨t, es, hb, ht, ho⟩
    · refine .inl ⟨delay .drainPause t, es ++ [.delay .drainPause], by simp [h, hb],
        ht.trans (drainedOk_pause d t), ho.i, ?_, ?_, ?_⟩
      · simp [readsOf, ho.dsta]
      · simp [readsOf, ho.fsta]
      · intro b hb; simpa [readsOf] using ho.words b hb
    · exact .inr ⟨t, es, by simp [h, hb], ht, ho⟩
  · exact .inl ⟨regRead .FSTA s, _, by simp [h], drainedOk_regRead d .FSTA s (.inl rfl), rfl,
      by simp [readsOf], by simp [readsOf], by simp [readsOf]⟩

/-- Everything R140 L7 can do. -/
theorem finalDrain_spec (d : DataDesc) (s : State) :
    (∃ t es, finalDrain d s = .ok () t ∧ DrainedOk d s t es ∧ OneBurst s t es) ∨
    ∃ t es, finalDrain d s = .overrun t ∧ Overran d s t es ∧ OneBurst s t es :=
  readAndBurst_spec d finalBurstPos s (.inr rfl)

/-- The outcome of the data poll for the last status it read (42_data.md R143, R145). -/
def pollOutcome : Option DataVerdict → OutcomeKind
  | some .commError => .commError
  | some .timeout => .timeout
  | some .finished => .success
  | none => .timeout

/-- The loop bounds of the data poll, `left` iterations being allowed (70_reset_and_hazards.md R214). -/
structure PollBounds (s : State) (es : List Event) (left : Nat) : Prop where
  dsta : (readsOf .DSTA es).length ≤ left
  fsta : (readsOf .FSTA es).length ≤ left + 1
  pairs : (readsOf .FSTA es).length ≤ (readsOf .DSTA es).length + 1
  words : ∀ b, (∀ v, fifoWords s.cfg.layout v ≤ b) →
    (readsOf .DAT es).length ≤ b * (readsOf .FSTA es).length

/-- A poll that ends without a fault: the statuses read before the last are not terminal, the last decides. -/
structure Polled (s t : State) (es : List Event) (left : Nat) (o : OutcomeKind) : Prop where
  decided : ∃ vs v, readsOf .DSTA es = vs ++ [v] ∧ (∀ u ∈ vs, dataVerdict s.cfg.layout u = none) ∧
    t.i = s.i + vs.length ∧ vs.length < left ∧ o = pollOutcome (dataVerdict s.cfg.layout v) ∧
    (dataVerdict s.cfg.layout v = none → vs.length + 1 = left)

/-- Everything the data poll can do (R140 to R146). -/
theorem pollData_spec (d : DataDesc) (left : Nat) (s : State) :
    (∃ t es o, pollData d (left + 1) s = .ok o t ∧ DrainedOk d s t es ∧ PollBounds s es (left + 1) ∧
      Polled s t es (left + 1) o) ∨
    ∃ t es, pollData d (left + 1) s = .overrun t ∧ Overran d s t es ∧ PollBounds s es (left + 1) := by
  induction left using Nat.strong_induction_on generalizing s with
  | _ left ih =>
  rw [pollData]
  rcases drainOnce_spec d s with ⟨s1, e1, h1, hd1, ho1⟩ | ⟨s1, e1, h1, hd1, ho1⟩
  · have hc := hd1.keeps.cfg
    have hd2 := hd1.trans (drainedOk_regRead d .DSTA s1 (.inr rfl))
    have hb2 : ∀ b, (∀ v, fifoWords s.cfg.layout v ≤ b) → (readsOf .DAT e1).length ≤ b := ho1.words
    have done : ∀ o v, dataVerdict s.cfg.layout s1.draw = v → o = pollOutcome v → (v = none → left = 0) →
        ∃ t es o', Drain.ok (α := OutcomeKind) o (regRead .DSTA s1) = .ok o' t ∧ DrainedOk d s t es ∧
          PollBounds s es (left + 1) ∧ Polled s t es (left + 1) o' := by
      intro o v hv ho hz
      refine ⟨_, _, o, rfl, hd2, ⟨?_, ?_, ?_, ?_⟩, ⟨[], s1.draw, ?_, by simp, ?_, by simp, by rw [hv, ho], ?_⟩⟩
      · simp [readsOf, ho1.dsta]
      · simp [readsOf, ho1.fsta]
      · simp [readsOf, ho1.fsta, ho1.dsta]
      · intro b hb; simpa [readsOf, ho1.fsta] using hb2 b hb
      · simp [readsOf, ho1.dsta]
      · simp [ho1.i]
      · intro h; simpa using hz (hv ▸ h)
    simp only [h1]
    rw [hc]
    cases hv : dataVerdict s.cfg.layout s1.draw with
    | none =>
      by_cases hl : left = 0
      · simp only [hl, if_true]
        exact .inl (by simpa [hl] using done .timeout none hv rfl (fun _ => hl))
      · obtain ⟨l, rfl⟩ : ∃ l, left = l + 1 := ⟨left - 1, by omega⟩
        simp only [hl, if_false]
        have hd3 := hd2.trans (drainedOk_i d (regRead .DSTA s1) ((regRead .DSTA s1).i + 1))
        rcases ih l (by omega) { regRead .DSTA s1 with i := (regRead .DSTA s1).i + 1 } with
          ⟨t, es, o, hp, hd4, hb4, ⟨vs, v, h4, h5, h6, h7, h8, h9⟩⟩ | ⟨t, es, hp, hd4, hb4⟩
        · refine .inl ⟨t, _, o, hp, hd3.trans hd4, ⟨?_, ?_, ?_, ?_⟩, ⟨s1.draw :: vs, v, ?_, ?_, ?_, ?_, ?_, ?_⟩⟩
          · have := hb4.dsta; simp [readsOf, ho1.dsta]; omega
          · have := hb4.fsta; simp [readsOf, ho1.fsta]; omega
          · have := hb4.pairs; simp [readsOf, ho1.fsta, ho1.dsta]; omega
          · intro b hb
            have := hb4.words b (by simpa [hc] using hb); have := hb2 b hb
            simp [readsOf, ho1.fsta, Nat.mul_add]; omega
          · simp [readsOf, ho1.dsta, h4]
          · simpa [hv, hc] using h5
          · rw [h6]; simp [ho1.i]; omega
          · simpa using h7
          · simpa [hc] using h8
          · simpa [hc] using h9
        · refine .inr ⟨t, _, hp, hd3.then_overran hd4, ⟨?_, ?_, ?_, ?_⟩⟩
          · have := hb4.dsta; simp [readsOf, ho1.dsta]; omega
          · have := hb4.fsta; simp [readsOf, ho1.fsta]; omega
          · have := hb4.pairs; simp [readsOf, ho1.fsta, ho1.dsta]; omega
          · intro b hb
            have := hb4.words b (by simpa [hc] using hb); have := hb2 b hb
            simp [readsOf, ho1.fsta, Nat.mul_add]; omega
    | some x =>
      cases x with
      | commError => exact .inl (done .commError _ hv rfl (by simp))
      | timeout => exact .inl (done .timeout _ hv rfl (by simp))
      | finished =>
        rcases finalDrain_spec d (regRead .DSTA s1) with ⟨t, e3, h3, hd3, ho3⟩ | ⟨t, e3, h3, hd3, ho3⟩
        · refine .inl ⟨t, _, .success, by simp [h3], hd2.trans hd3, ⟨?_, ?_, ?_, ?_⟩,
            ⟨[], s1.draw, ?_, by simp, ?_, by simp, by simp [hv, pollOutcome], by simp [hv]⟩⟩
          · simp [readsOf, ho1.dsta, ho3.dsta]
          · simp [readsOf, ho1.fsta, ho3.fsta]
          · simp [readsOf, ho1.fsta, ho3.fsta, ho1.dsta, ho3.dsta]
          · intro b hb
            have := ho3.words b (by simpa [hc] using hb); have := hb2 b hb
            simp [readsOf, ho1.fsta, ho3.fsta]; omega
          · simp [readsOf, ho1.dsta, ho3.dsta]
          · simp [ho3.i, ho1.i]
        · refine .inr ⟨t, _, by simp [h3], hd2.then_overran hd3, ⟨?_, ?_, ?_, ?_⟩⟩
          · simp [readsOf, ho1.dsta, ho3.dsta]
          · simp [readsOf, ho1.fsta, ho3.fsta]
          · simp [readsOf, ho1.fsta, ho3.fsta, ho1.dsta, ho3.dsta]
          · intro b hb
            have := ho3.words b (by simpa [hc] using hb); have := hb2 b hb
            simp [readsOf, ho1.fsta, ho3.fsta]; omega
  · refine .inr ⟨s1, e1, by simp [h1], hd1, ⟨?_, ?_, ?_, ?_⟩⟩
    · simp [ho1.dsta]
    · simp [ho1.fsta]
    · simp [ho1.fsta, ho1.dsta]
    · intro b hb; simpa [ho1.fsta] using ho1.words b hb

/-! ### The iterations one after another -/

@[simp] theorem atIteration_cfg (s : State) (d : DataDesc) (n : Nat) : (atIteration s d n).cfg = s.cfg := rfl
@[simp] theorem atIteration_w (s : State) (d : DataDesc) (n : Nat) :
    (atIteration s d n).w = (drainedWords s n).length := rfl
@[simp] theorem atIteration_i (s : State) (d : DataDesc) (n : Nat) : (atIteration s d n).i = n + 1 := rfl
@[simp] theorem atIteration_initialized (s : State) (d : DataDesc) (n : Nat) : (atIteration s d n).initialized = s.initialized := rfl
@[simp] theorem atIteration_inCall (s : State) (d : DataDesc) (n : Nat) : (atIteration s d n).inCall = s.inCall := rfl
@[simp] theorem atIteration_pc (s : State) (d : DataDesc) (n : Nat) : (atIteration s d n).pc = s.pc := rfl
@[simp] theorem atIteration_stack (s : State) (d : DataDesc) (n : Nat) : (atIteration s d n).stack = s.stack := rfl
@[simp] theorem atIteration_clk (s : State) (d : DataDesc) (n : Nat) : (atIteration s d n).clk = s.clk := rfl
@[simp] theorem atIteration_resp (s : State) (d : DataDesc) (n : Nat) : (atIteration s d n).resp = s.resp := rfl
@[simp] theorem atIteration_last (s : State) (d : DataDesc) (n : Nat) : (atIteration s d n).last = s.last := rfl
@[simp] theorem atIteration_k (s : State) (d : DataDesc) (n : Nat) : (atIteration s d n).k = s.k := rfl
@[simp] theorem atIteration_fault (s : State) (d : DataDesc) (n : Nat) : (atIteration s d n).fault = s.fault := rfl
@[simp] theorem atIteration_refusal (s : State) (d : DataDesc) (n : Nat) : (atIteration s d n).refusal = s.refusal := rfl
@[simp] theorem atIteration_result (s : State) (d : DataDesc) (n : Nat) : (atIteration s d n).result = s.result := rfl
@[simp] theorem atIteration_arrivals (s : State) (d : DataDesc) (n : Nat) : (atIteration s d n).arrivals = s.arrivals := rfl
@[simp] theorem atIteration_locals (s : State) (d : DataDesc) (n : Nat) : (atIteration s d n).locals = s.locals := rfl
@[simp] theorem atIteration_mem (s : State) (d : DataDesc) (n : Nat) :
    (atIteration s d n).mem = storeWords s.cfg.bufEndian d s.mem 0 (drainedWords s n) := rfl
@[simp] theorem atIteration_trace (s : State) (d : DataDesc) (n : Nat) :
    (atIteration s d n).trace = s.trace ++ (List.range n).flatMap (iterationEvents s) := rfl
@[simp] theorem atIteration_supply (s : State) (d : DataDesc) (n : Nat) :
    (atIteration s d n).supply = s.supply.drop (iterationAt s n) := rfl
@[simp] theorem atIteration_draws (s : State) (d : DataDesc) (n : Nat) :
    (atIteration s d n).draws = s.draws + iterationAt s n := rfl
@[simp] theorem atIteration_drawAt (s : State) (d : DataDesc) (n k : Nat) :
    (atIteration s d n).drawAt k = s.drawAt (iterationAt s n + k) := drawAt_add s _ _ k rfl rfl
@[simp] theorem atIteration_draw (s : State) (d : DataDesc) (n : Nat) :
    (atIteration s d n).draw = s.drawAt (iterationAt s n) := by rw [← drawAt_zero]; simp

theorem atIteration_zero (s : State) (d : DataDesc) : atIteration s d 0 = { s with w := 0, i := 1 } := by
  ext1 <;> simp [atIteration, iterationAt, drainedWords, storeWords]

theorem drainedWords_succ (s : State) (n : Nat) :
    drainedWords s (n + 1) =
      drainedWords s n ++ capturedWords s (iterationAt s n + 1) (burstLen s (iterationAt s n)) := by
  simp [drainedWords, List.range_succ]

@[simp] theorem drainedWords_length_succ (s : State) (n : Nat) :
    (drainedWords s (n + 1)).length = (drainedWords s n).length + burstLen s (iterationAt s n) := by
  simp [drainedWords_succ]

theorem drainedWords_mono (s : State) {m n : Nat} (h : m ≤ n) :
    (drainedWords s m).length ≤ (drainedWords s n).length := by
  induction h with
  | refl => exact Nat.le_refl _
  | step _ ih => rw [drainedWords_length_succ]; omega

/-- A burst of m words at iteration n, as answers of the state the call began in. -/
theorem afterWords_atIteration (s : State) (d : DataDesc) (n m : Nat) :
    afterWords d m (regRead .FSTA (atIteration s d n)) = { (atIteration s d n).afterReads (m + 1) with
      w := (drainedWords s n).length + m
      mem := storeWords s.cfg.bufEndian d s.mem 0 (drainedWords s n ++ capturedWords s (iterationAt s n + 1) m)
      trace := (atIteration s d n).trace ++ [.read .FSTA (s.drawAt (iterationAt s n))]
        ++ burstEvents s (iterationAt s n + 1) (drainedWords s n).length m } := by
  have h : ∀ k, (regRead .FSTA (atIteration s d n)).drawAt (0 + k) = s.drawAt (iterationAt s n + 1 + k) := fun k => by
    rw [drawAt_add (atIteration s d n) _ 1 (0 + k) (by simp) (by simp)]
    simp [Nat.add_assoc]
  unfold afterWords
  rw [capturedWords_shift s _ 0 _ m h, burstEvents_shift s _ 0 _ _ m h, storeWords_append]
  ext1 <;> simp [List.drop_drop]
  all_goals omega

/-- Iteration n, when its burst fits: its events, and the state after its transfer status is read. -/
theorem drainOnce_atIteration (s : State) (d : DataDesc) (n : Nat)
    (h : 4 * (drainedWords s (n + 1)).length ≤ d.bufCapacity) :
    ∃ t, drainOnce d (atIteration s d n) = .ok () t ∧ t.cfg = s.cfg ∧ t.draw = dataStatus s n ∧
      regRead .DSTA t = { atIteration s d (n + 1) with i := n + 1 } := by
  rw [drainedWords_length_succ] at h
  have he : (List.range (n + 1)).flatMap (iterationEvents s) =
      (List.range n).flatMap (iterationEvents s) ++ iterationEvents s n := by simp [List.range_succ]
  by_cases hf : fifoHasData s.cfg.layout (s.drawAt (iterationAt s n)) = true
  · have hl : fifoWords s.cfg.layout (s.drawAt (iterationAt s n)) = burstLen s (iterationAt s n) := by
      simp [burstLen, hf]
    have e := drainOnce_fits d (burstLen s (iterationAt s n)) (atIteration s d n) (by simpa using hf)
      (by simpa using hl) (by simpa using h)
    rw [afterWords_atIteration] at e
    obtain ⟨t, ht⟩ : ∃ t, t = delay .drainPause { (atIteration s d n).afterReads (burstLen s (iterationAt s n) + 1) with
        w := (drainedWords s n).length + burstLen s (iterationAt s n)
        mem := storeWords s.cfg.bufEndian d s.mem 0
          (drainedWords s n ++ capturedWords s (iterationAt s n + 1) (burstLen s (iterationAt s n)))
        trace := (atIteration s d n).trace ++ [.read .FSTA (s.drawAt (iterationAt s n))]
          ++ burstEvents s (iterationAt s n + 1) (drainedWords s n).length (burstLen s (iterationAt s n)) } := ⟨_, rfl⟩
    have q : t.draw = dataStatus s n := by
      rw [← drawAt_zero, drawAt_add (atIteration s d n) t (burstLen s (iterationAt s n) + 1) 0 (by rw [ht]; rfl) (by rw [ht]; rfl)]
      simp [dataStatus, Nat.add_assoc]
    refine ⟨t, by rw [e, ht], by rw [ht]; rfl, q, ?_⟩
    ext1 <;> simp [q, he, iterationEvents, drainedWords_succ, iterationAt, hf]
    all_goals simp [ht]
    all_goals omega
  · have e : drainOnce d (atIteration s d n) = .ok () (regRead .FSTA (atIteration s d n)) := by
      simp [drainOnce, hf]
    have hb : burstLen s (iterationAt s n) = 0 := by simp [burstLen, hf]
    have q : (regRead .FSTA (atIteration s d n)).draw = dataStatus s n := by
      rw [← drawAt_zero, drawAt_add (atIteration s d n) _ 1 0 (by simp) (by simp)]
      simp [dataStatus, hb]
    refine ⟨_, e, rfl, q, ?_⟩
    ext1 <;> simp [q, he, iterationEvents, drainedWords_succ, iterationAt, hb, hf]
    · simp [capturedWords]
    · omega

/-- The poll after n iterations that have not ended it. -/
theorem pollData_atIteration (s : State) (d : DataDesc) (n left : Nat)
    (hv : ∀ m, m < n → dataVerdict s.cfg.layout (dataStatus s m) = none)
    (h : 4 * (drainedWords s n).length ≤ d.bufCapacity) :
    pollData d (n + (left + 1)) { s with w := 0, i := 1 } = pollData d (left + 1) (atIteration s d n) := by
  induction n generalizing left with
  | zero => rw [atIteration_zero, Nat.zero_add]
  | succ n ih =>
    obtain ⟨t, e, hc, hd, ht⟩ := drainOnce_atIteration s d n h
    have := drainedWords_mono s (show n ≤ n + 1 by omega)
    rw [show n + 1 + (left + 1) = n + (left + 1 + 1) by omega, ih (left + 1) (fun m hm => hv m (by omega)) (by omega),
      pollData, e]
    simp only [hc, hd, hv n (by omega), Nat.add_one_ne_zero, if_false, ht]
    rfl

/-- The poll at iteration n, when its burst fits: what its transfer status decides. -/
theorem pollData_decides (s : State) (d : DataDesc) (n left : Nat)
    (h : 4 * (drainedWords s (n + 1)).length ≤ d.bufCapacity) :
    pollData d (left + 1) (atIteration s d n) =
      let t := { atIteration s d (n + 1) with i := n + 1 }
      match dataVerdict s.cfg.layout (dataStatus s n) with
      | some .commError => .ok .commError t
      | some .timeout => .ok .timeout t
      | some .finished =>
        match finalDrain d t with
        | .ok _ u => .ok .success u
        | .overrun u => .overrun u
      | none => if left = 0 then .ok .timeout t else pollData d left (atIteration s d (n + 1)) := by
  obtain ⟨t, e, hc, hd, ht⟩ := drainOnce_atIteration s d n h
  rw [pollData, e]
  simp only [hc, hd, ht]
  rfl

end Sys2Proof.Machine
end

