-- ==== Sys2Proof/Laws/Stages.lean ====
section
/-! SUPPORT. One law per stage of EXECUTE: everything SEND_COMMAND, ARM_TRANSFER and WAIT_AND_DRAIN can do to the
state, their events and their loop bounds. -/

namespace Sys2Proof.Machine

/-! ### Setting one field alone -/

theorem ran_of_same {s t : State} (h1 : t.trace = s.trace) (h2 : t.supply = s.supply) (h3 : t.draws = s.draws) :
    Ran s t [] := (Ran.refl s).congr h1 h2 h3

/-! ### SEND_COMMAND -/

/-- The events of SEND_COMMAND (41_command.md R119). -/
def CommandOwn (c : Config) (d : CommandDesc) (e : Event) : Prop :=
  (∃ v, e = .read .CSTA v) ∨ (∃ j v, e = .read (rspReg j) v) ∨ e = .delay .cmdPollDelay ∨
    e = .write .CARG d.carg ∨ e = .write .CCON (d.ccon c.layout) ∨ e = .write .CSTA c.cmdstaClear

/-- What a run of SEND_COMMAND from s to t with outcome o and events es satisfies. -/
structure CommandRan (d : CommandDesc) (s t : State) (o : CommandOutcome) (es : List Event) : Prop where
  ran : Ran s t es
  keeps : KeepsAll s t
  k : t.k = s.k
  w : t.w = s.w
  mem : t.mem = s.mem
  own : ∀ e ∈ es, CommandOwn s.cfg d e
  csta : (readsOf .CSTA es).length ≤ s.cfg.cmdPollMax
  dsta : readsOf .DSTA es = []
  fsta : readsOf .FSTA es = []
  dat : readsOf .DAT es = []
  resp : t.resp = o.slot
  outcome : coutOk o = true

theorem rspReg_ne (j : Nat) : rspReg j ≠ .CSTA ∧ rspReg j ≠ .DSTA ∧ rspReg j ≠ .FSTA ∧ rspReg j ≠ .DAT := by
  unfold rspReg; split <;> decide

/-- The reads of a register that no response register is, among a capture's. -/
theorem readsOf_capture (r : Reg) (s : State) (a n : Nat) (h : ∀ j, rspReg j ≠ r) :
    readsOf r (captureEvents s a n) = [] := by
  unfold captureEvents
  induction List.range n with
  | nil => rfl
  | cons x xs ih => simp [readsOf, h, ih]

@[simp] theorem readValues_capture (s : State) (a n : Nat) :
    readValues (captureEvents s a n) = capturedWords s a n := by
  unfold captureEvents capturedWords
  induction List.range n with
  | nil => rfl
  | cons x xs ih => simp [readValues, ih]

theorem ran_capture (s : State) (n : Nat) :
    Ran s { s.afterReads n with trace := s.trace ++ captureEvents s 0 n } (captureEvents s 0 n) where
  trace := rfl
  reads := by
    intro k hk
    simp at hk ⊢
    rw [capturedWords_get s 0 n k hk]; simp
  supply := by simp
  draws := by simp

/-- One poll or the capture: the shape of the poll loop's result. -/
structure PollRan (d : CommandDesc) (s : State) (left : Nat) (r : CommandOutcome × State) (es : List Event) : Prop where
  ran : Ran s r.2 es
  keeps : KeepsAll s r.2
  k : r.2.k = s.k
  w : r.2.w = s.w
  mem : r.2.mem = s.mem
  own : ∀ e ∈ es, (∃ v, e = .read .CSTA v) ∨ (∃ j v, e = .read (rspReg j) v) ∨ e = .delay .cmdPollDelay
  csta : (readsOf .CSTA es).length ≤ left
  dsta : readsOf .DSTA es = []
  fsta : readsOf .FSTA es = []
  dat : readsOf .DAT es = []
  outcome : coutOk r.1 = true

theorem pollRan_end (d : CommandDesc) (s : State) (left : Nat) (v : CmdVerdict) :
    ∃ es, PollRan d s (left + 1) (pollEnd d (regRead .CSTA s) v) es := by
  have h1 : ∀ o, coutOk o = true → PollRan d s (left + 1) (o, regRead .CSTA s) [.read .CSTA s.draw] := fun o ho =>
    ⟨ran_regRead .CSTA s, keepsAll_regRead .CSTA s, rfl, rfl, rfl, by simp,
      by simp [readsOf], by simp [readsOf], by simp [readsOf], by simp [readsOf], ho⟩
  cases v with
  | timeout => exact ⟨_, h1 _ rfl⟩
  | commError => exact ⟨_, h1 _ rfl⟩
  | sent => exact ⟨_, h1 _ rfl⟩
  | respond =>
    rw [pollEnd_respond]
    have h2 := (ran_regRead .CSTA s).trans
      (ran_capture (regRead .CSTA s) (if d.long then 4 else 1))
    refine ⟨_, h2, (keepsAll_regRead .CSTA s).trans (keepsAll_reads _ _ _), rfl, rfl, rfl, ?_, ?_, ?_, ?_, ?_, ?_⟩
    · intro e he
      simp only [captureEvents, List.cons_append, List.nil_append, List.mem_cons, List.mem_map] at he
      rcases he with rfl | ⟨j, _, rfl⟩
      · exact .inl ⟨_, rfl⟩
      · exact .inr (.inl ⟨_, _, rfl⟩)
    · rw [readsOf_append, readsOf_capture _ _ _ _ fun j => (rspReg_ne j).1]; simp [readsOf]
    · rw [readsOf_append, readsOf_capture _ _ _ _ fun j => (rspReg_ne j).2.1]; simp [readsOf]
    · rw [readsOf_append, readsOf_capture _ _ _ _ fun j => (rspReg_ne j).2.2.1]; simp [readsOf]
    · rw [readsOf_append, readsOf_capture _ _ _ _ fun j => (rspReg_ne j).2.2.2]; simp [readsOf]
    · cases d.long <;> simp [coutOk]

/-- Everything the command poll can do. -/
theorem pollCommand_spec (d : CommandDesc) (left : Nat) (s : State) :
    ∃ es, PollRan d s (left + 1) (pollCommand d (left + 1) s) es := by
  induction left generalizing s with
  | zero =>
    cases hv : cmdVerdict s.cfg.layout d s.draw with
    | some v => rw [pollCommand_end d 0 s v hv]; exact pollRan_end d s 0 v
    | none =>
      rw [pollCommand, hv]
      exact ⟨[.read .CSTA s.draw], ran_regRead .CSTA s, keepsAll_regRead .CSTA s,
        rfl, rfl, rfl, by simp, by simp [readsOf], by simp [readsOf], by simp [readsOf], by simp [readsOf], rfl⟩
  | succ left ih =>
    cases hv : cmdVerdict s.cfg.layout d s.draw with
    | some v => rw [pollCommand_end d (left + 1) s v hv]; exact pollRan_end d s (left + 1) v
    | none =>
      rw [pollCommand_next d left s hv]
      obtain ⟨es, h⟩ := ih (nextPoll s)
      refine ⟨[.read .CSTA s.draw, .delay .cmdPollDelay] ++ es, ?_, ?_, h.k, h.w, h.mem, ?_, ?_, ?_, ?_, ?_,
        h.outcome⟩
      · exact (((ran_regRead .CSTA s).trans (ran_delay _ _)).congr (u := nextPoll s) rfl rfl rfl).trans h.ran
      · exact KeepsAll.trans (t := nextPoll s) (((keepsAll_regRead .CSTA s).trans (keepsAll_delay _ _)).trans (keepsAll_i _ _)) h.keeps
      · intro e he
        simp only [List.cons_append, List.nil_append, List.mem_cons] at he
        rcases he with rfl | rfl | he
        · exact .inl ⟨_, rfl⟩
        · exact .inr (.inr rfl)
        · exact h.own e he
      · have := h.csta; simp [readsOf]; omega
      · simp [readsOf, h.dsta]
      · simp [readsOf, h.fsta]
      · simp [readsOf, h.dat]

/-- Everything SEND_COMMAND can do (R110 to R119). -/
theorem sendCommand_spec (d : CommandDesc) (s : State) (h : 0 < s.cfg.cmdPollMax) :
    ∃ es, CommandRan d s (sendCommand d s).2 (sendCommand d s).1 es := by
  obtain ⟨n, hn⟩ : ∃ n, s.cfg.cmdPollMax = n + 1 := ⟨s.cfg.cmdPollMax - 1, by omega⟩
  obtain ⟨es, hp⟩ := pollCommand_spec d n (launchCommand d s)
  have hl : Ran s (launchCommand d s) [.write .CARG d.carg, .write .CCON (d.ccon s.cfg.layout)] :=
    ⟨by simp [launchCommand], by simp [readValues], rfl, rfl⟩
  have hk : KeepsAll s (launchCommand d s) := (((keepsAll_resp s none).trans (keepsAll_regWrite _ _ _)).trans (keepsAll_regWrite _ _ _)).trans
    (keepsAll_i _ _)
  unfold sendCommand
  rw [hn]
  refine ⟨[.write .CARG d.carg, .write .CCON (d.ccon s.cfg.layout)] ++ es ++ [.write .CSTA s.cfg.cmdstaClear],
    ?_, ?_, hp.k, hp.w, hp.mem, ?_, ?_, ?_, ?_, ?_, rfl, hp.outcome⟩
  · have := (hl.trans hp.ran).trans (ran_regWrite .CSTA s.cfg.cmdstaClear _)
    refine this.congr ?_ rfl rfl
    have hc : (pollCommand d (n + 1) (launchCommand d s)).2.cfg = s.cfg := hp.keeps.cfg
    simp [hc]
  · exact (hk.trans hp.keeps).trans ((keepsAll_regWrite .CSTA _ _).trans (keepsAll_resp _ _))
  · intro e he
    simp only [List.cons_append, List.nil_append, List.mem_cons, List.mem_append,
      List.not_mem_nil, or_false] at he
    unfold CommandOwn
    rcases he with rfl | rfl | he | rfl
    · simp
    · simp
    · rcases hp.own e he with h | h | h
      · exact .inl h
      · exact .inr (.inl h)
      · exact .inr (.inr (.inl h))
    · simp
  · simpa [readsOf, hn] using hp.csta
  · simp [readsOf, hp.dsta]
  · simp [readsOf, hp.fsta]
  · simp [readsOf, hp.dat]

/-! ### ARM_TRANSFER -/

/-- The events of ARM_TRANSFER (42_data.md R135). -/
def ArmOwn (c : Config) (d : DataDesc) (e : Event) : Prop :=
  (∃ v, e = .read .DSTA v) ∨ (∃ v, e = .read .CON v) ∨ (∃ v, e = .write .CON v) ∨
    e = .write .DCON c.dconStopValue ∨ e = .write .DCON (d.dcon c.layout) ∨
    e = .write .BSIZE (zext32 d.blockSize) ∨ e = .write .DTIMER c.dataTimeout ∨ e = .delay .settleDelay

/-- What a run of ARM_TRANSFER satisfies. -/
structure ArmRan (d : DataDesc) (s t : State) (es : List Event) : Prop where
  ran : Ran s t es
  keeps : KeepsAll s t
  resp : t.resp = s.resp
  i : t.i = s.i
  w : t.w = s.w
  mem : t.mem = s.mem
  own : ∀ e ∈ es, ArmOwn s.cfg d e
  csta : readsOf .CSTA es = []
  fsta : readsOf .FSTA es = []
  dat : readsOf .DAT es = []

theorem ArmRan.trans {d : DataDesc} {s t u : State} {as bs : List Event} (h1 : ArmRan d s t as)
    (h2 : ArmRan d t u bs) : ArmRan d s u (as ++ bs) where
  ran := h1.ran.trans h2.ran
  keeps := h1.keeps.trans h2.keeps
  resp := h2.resp.trans h1.resp
  i := h2.i.trans h1.i
  w := h2.w.trans h1.w
  mem := h2.mem.trans h1.mem
  own := by
    intro e he
    rcases List.mem_append.1 he with he | he
    · exact h1.own e he
    · have := h2.own e he
      rwa [h1.keeps.cfg] at this
  csta := by simp [h1.csta, h2.csta]
  fsta := by simp [h1.fsta, h2.fsta]
  dat := by simp [h1.dat, h2.dat]

theorem armRan_check (d : DataDesc) (s : State) : ArmRan d s (regRead .DSTA s) [.read .DSTA s.draw] :=
  ⟨ran_regRead .DSTA s, keepsAll_regRead .DSTA s, rfl, rfl, rfl, rfl,
    by simp [ArmOwn], by simp [readsOf], by simp [readsOf], by simp [readsOf]⟩

theorem keepsAll_stopRound (s : State) : KeepsAll s (stopRound s) :=
  ⟨⟨by simp, by simp, by simp, by simp, by simp, by simp, by simp, by simp, by simp⟩, by simp, by simp, by simp⟩

theorem armRan_round (d : DataDesc) (s : State) :
    ∃ es, ArmRan d s (stopRound s) es ∧ readsOf .DSTA es = [] := by
  have h := ((ran_regWrite .DCON s.cfg.dconStopValue s).trans
    (ran_regSet .CON s.cfg.layout.con.SDRESET.mask _)).trans (ran_delay .settleDelay _)
  replace h := h.congr (u := stopRound s) (by simp) (by simp) (by simp)
  exact ⟨_, ⟨h, keepsAll_stopRound s, by simp, by simp, by simp, by simp, by simp [ArmOwn],
    by simp [readsOf], by simp [readsOf], by simp [readsOf]⟩, by simp [readsOf]⟩

theorem armRan_program (d : DataDesc) (s : State) :
    ∃ es, ArmRan d s (programTransfer d s) es ∧ readsOf .DSTA es = [] := by
  have h := ((ran_regWrite .DCON (d.dcon s.cfg.layout) s).trans
    (ran_regWrite .BSIZE (zext32 d.blockSize) _)).trans (ran_regWrite .DTIMER s.cfg.dataTimeout _)
  replace h := h.congr (u := programTransfer d s) rfl rfl rfl
  exact ⟨_, ⟨h, ((keepsAll_regWrite .DCON _ s).trans (keepsAll_regWrite .BSIZE _ _)).trans (keepsAll_regWrite .DTIMER _ _), rfl, rfl, rfl, rfl, by simp [ArmOwn],
    by simp [readsOf], by simp [readsOf], by simp [readsOf]⟩, by simp [readsOf]⟩

/-- Everything the busy loop can do. -/
theorem quiesce_spec (d : DataDesc) (left : Nat) (s : State) :
    ∃ es, ArmRan d s (quiesce d left s).2 es ∧ (readsOf .DSTA es).length ≤ left + 1 ∧
      ((quiesce d left s).1 = .success ∨ (quiesce d left s).1 = .commError) := by
  induction left generalizing s with
  | zero =>
    cases hb : transferBusy s.cfg.layout s.draw with
    | true =>
      rw [quiesce_stuck_end d s hb]
      exact ⟨_, armRan_check d s, by simp [readsOf], .inr rfl⟩
    | false =>
      rw [quiesce_quiet d 0 s hb]
      obtain ⟨es, h, h0⟩ := armRan_program d (regRead .DSTA s)
      exact ⟨_, (armRan_check d s).trans h, by simp [readsOf, h0], .inl rfl⟩
  | succ left ih =>
    cases hb : transferBusy s.cfg.layout s.draw with
    | true =>
      rw [quiesce_busy d left s hb]
      obtain ⟨es, h, hn, ho⟩ := ih (nextRound s)
      obtain ⟨rs, hr, h0⟩ := armRan_round d (regRead .DSTA s)
      exact ⟨_, ((armRan_check d s).trans hr).trans h, by simp [readsOf, h0]; omega, ho⟩
    | false =>
      rw [quiesce_quiet d (left + 1) s hb]
      obtain ⟨es, h, h0⟩ := armRan_program d (regRead .DSTA s)
      exact ⟨_, (armRan_check d s).trans h, by simp [readsOf, h0], .inl rfl⟩

/-- Everything ARM_TRANSFER can do on a read (R130 to R137). -/
theorem armTransfer_spec (d : DataDesc) (s : State) (h : d.dir = .read) :
    ∃ es, ArmRan d s (armTransfer d s).2 es ∧ (readsOf .DSTA es).length ≤ s.cfg.armRetryMax + 1 ∧
      ((armTransfer d s).1 = .success ∨ (armTransfer d s).1 = .commError) := by
  unfold armTransfer
  rw [h]
  have h0 : ArmRan d s { s with k := 0 } [] :=
    ⟨ran_of_same rfl rfl rfl, keepsAll_k s 0, rfl, rfl, rfl, rfl, by simp,
      rfl, rfl, rfl⟩
  obtain ⟨es, h1, h2, h3⟩ := quiesce_spec d s.cfg.armRetryMax { s with k := 0 }
  exact ⟨[] ++ es, h0.trans h1, h2, h3⟩

/-- ARM_TRANSFER on a write (R136). -/
theorem armTransfer_write (d : DataDesc) (s : State) (h : d.dir = .write) :
    armTransfer d s = (.unsupported, s) := by
  simp [armTransfer, h]

/-! ### WAIT_AND_DRAIN -/

/-- What a run of WAIT_AND_DRAIN from s that does not fault satisfies: `es` are the events of the poll, which the
two exit clears follow. -/
structure WaitEnded (d : DataDesc) (s t : State) (o : OutcomeKind) (es : List Event) : Prop where
  /-- the poll, from s with the counters set, and then the two clears -/
  poll : ∃ u, DrainedOk d { s with w := 0, i := 1 } u es ∧ Polled { s with w := 0, i := 1 } u es s.cfg.dataPollMax o ∧
    t = exitClears u
  bounds : PollBounds s es s.cfg.dataPollMax

/-- What a run that faults satisfies. -/
structure WaitOverran (d : DataDesc) (s t : State) (es : List Event) : Prop where
  poll : Overran d { s with w := 0, i := 1 } t es
  bounds : PollBounds s es s.cfg.dataPollMax

/-- Everything WAIT_AND_DRAIN can do (R140 to R150). -/
theorem waitAndDrain_spec (d : DataDesc) (s : State) (h : 0 < s.cfg.dataPollMax) :
    (∃ t o es, waitAndDrain d s = .ok o t ∧ WaitEnded d s t o es) ∨
    ∃ t es, waitAndDrain d s = .overrun t ∧ WaitOverran d s t es := by
  obtain ⟨n, hn⟩ : ∃ n, s.cfg.dataPollMax = n + 1 := ⟨s.cfg.dataPollMax - 1, by omega⟩
  unfold waitAndDrain
  rw [hn]
  rcases pollData_spec d n { s with w := 0, i := 1 } with ⟨u, es, o, hp, hd, hb, hq⟩ | ⟨u, es, hp, ho, hb⟩
  · rw [hp]
    exact .inl ⟨_, o, es, rfl, ⟨u, hd, by rw [hn]; exact hq, rfl⟩, by rw [hn]; exact ⟨hb.dsta, hb.fsta, hb.pairs, hb.words⟩⟩
  · rw [hp]
    exact .inr ⟨u, es, rfl, ho, by rw [hn]; exact ⟨hb.dsta, hb.fsta, hb.pairs, hb.words⟩⟩

/-- The exit clears (R147). -/
theorem ran_exitClears (s : State) :
    Ran s (exitClears s) [.write .FSTA s.cfg.fstaClear, .write .DSTA s.cfg.dstaClear] :=
  (ran_regWrite .FSTA _ s).trans (ran_regWrite .DSTA _ _)

theorem keepsAll_exitClears (s : State) : KeepsAll s (exitClears s) := (keepsAll_regWrite .FSTA _ s).trans (keepsAll_regWrite .DSTA _ _)

theorem WaitEnded.ran {d : DataDesc} {s t : State} {o : OutcomeKind} {es : List Event} (h : WaitEnded d s t o es) :
    Ran s t (es ++ [.write .FSTA s.cfg.fstaClear, .write .DSTA s.cfg.dstaClear]) := by
  obtain ⟨u, hd, _, rfl⟩ := h.poll
  have h1 := (hd.ran.congr_left (u := s) rfl rfl rfl).trans (ran_exitClears u)
  rwa [hd.keeps.cfg] at h1

theorem WaitEnded.keeps {d : DataDesc} {s t : State} {o : OutcomeKind} {es : List Event}
    (h : WaitEnded d s t o es) : KeepsAll s t := by
  obtain ⟨u, hd, _, rfl⟩ := h.poll
  refine KeepsAll.trans (t := u) ⟨?_, hd.pc, hd.fault, hd.result⟩ (keepsAll_exitClears u)
  exact Keeps.trans (keepsAll_counters s 0 1).toKeeps hd.keeps

theorem WaitOverran.ran {d : DataDesc} {s t : State} {es : List Event} (h : WaitOverran d s t es) : Ran s t es :=
  h.poll.ran.congr_left rfl rfl rfl

theorem WaitOverran.keeps {d : DataDesc} {s t : State} {es : List Event} (h : WaitOverran d s t es) : Keeps s t :=
  Keeps.trans (keepsAll_counters s 0 1).toKeeps h.poll.keeps

end Sys2Proof.Machine
end

