-- ==== Sys2Proof/Laws/Alike.lean ====
section
/-! SUPPORT. The stages depend on nothing but their operands, the parameters, the environment's answers, the
memory and their own counters: from two states alike in these they do the same, whatever the call records and
the past trace are. -/

namespace Sys2Proof.Machine

/-- The two states agree on all that a stage reads or writes. -/
structure Alike (s t : State) : Prop where
  cfg : t.cfg = s.cfg
  resp : t.resp = s.resp
  i : t.i = s.i
  k : t.k = s.k
  w : t.w = s.w
  mem : t.mem = s.mem
  supply : t.supply = s.supply
  draws : t.draws = s.draws

theorem Alike.refl (s : State) : Alike s s := ⟨rfl, rfl, rfl, rfl, rfl, rfl, rfl, rfl⟩

theorem Alike.draw {s t : State} (h : Alike s t) : t.draw = s.draw := draw_congr h.supply h.draws

/-- Two runs, from s to s' and from t to t', that keep the call records, add the same events and end alike. -/
structure RanAlike (s s' t t' : State) : Prop where
  alike : Alike s' t'
  events : ∃ es, s'.trace = s.trace ++ es ∧ t'.trace = t.trace ++ es
  left : KeepsAll s s'
  right : KeepsAll t t'

theorem RanAlike.refl {s t : State} (h : Alike s t) : RanAlike s s t t :=
  ⟨h, ⟨[], by simp, by simp⟩, KeepsAll.refl s, KeepsAll.refl t⟩

theorem RanAlike.trans {s s' s'' t t' t'' : State} (h1 : RanAlike s s' t t') (h2 : RanAlike s' s'' t' t'') :
    RanAlike s s'' t t'' where
  alike := h2.alike
  events := by
    obtain ⟨as, ha, hb⟩ := h1.events
    obtain ⟨cs, hc, hd⟩ := h2.events
    exact ⟨as ++ cs, by rw [hc, ha, List.append_assoc], by rw [hd, hb, List.append_assoc]⟩
  left := h1.left.trans h2.left
  right := h1.right.trans h2.right

theorem alike_regRead (r : Reg) {s t : State} (h : Alike s t) : RanAlike s (regRead r s) t (regRead r t) where
  alike := ⟨h.cfg, h.resp, h.i, h.k, h.w, h.mem, by simp [h.supply], by simp [h.draws]⟩
  events := ⟨_, rfl, by simp [h.draw]⟩
  left := keepsAll_regRead r s
  right := keepsAll_regRead r t

theorem alike_emit (e : Event) {s t : State} (h : Alike s t) : RanAlike s (emit e s) t (emit e t) where
  alike := ⟨h.cfg, h.resp, h.i, h.k, h.w, h.mem, h.supply, h.draws⟩
  events := ⟨_, rfl, rfl⟩
  left := keepsAll_emit e s
  right := keepsAll_emit e t

theorem alike_regWrite (r : Reg) (v : Word) {s t : State} (h : Alike s t) :
    RanAlike s (regWrite r v s) t (regWrite r v t) := alike_emit _ h

theorem alike_delay (k : DelayKind) {s t : State} (h : Alike s t) :
    RanAlike s (delay k s) t (delay k t) := alike_emit _ h

theorem alike_regSet (r : Reg) (m : Word) {s t : State} (h : Alike s t) :
    RanAlike s (regSet r m s) t (regSet r m t) := by
  have h1 := (alike_regRead r h).trans (alike_regWrite r (s.draw ||| m) (alike_regRead r h).alike)
  have h2 : regSet r m t = regWrite r (s.draw ||| m) (regRead r t) := by simp [regSet, h.draw]
  rwa [h2]

theorem alike_i {s t : State} (h : Alike s t) (n : Nat) : RanAlike s { s with i := n } t { t with i := n } where
  alike := ⟨h.cfg, h.resp, rfl, h.k, h.w, h.mem, h.supply, h.draws⟩
  events := ⟨[], by simp, by simp⟩
  left := keepsAll_i s n
  right := keepsAll_i t n

theorem alike_k {s t : State} (h : Alike s t) (n : Nat) : RanAlike s { s with k := n } t { t with k := n } where
  alike := ⟨h.cfg, h.resp, h.i, rfl, h.w, h.mem, h.supply, h.draws⟩
  events := ⟨[], by simp, by simp⟩
  left := keepsAll_k s n
  right := keepsAll_k t n

theorem alike_resp {s t : State} (h : Alike s t) (r : Option (List Word)) :
    RanAlike s { s with resp := r } t { t with resp := r } where
  alike := ⟨h.cfg, rfl, h.i, h.k, h.w, h.mem, h.supply, h.draws⟩
  events := ⟨[], by simp, by simp⟩
  left := keepsAll_resp s r
  right := keepsAll_resp t r

theorem alike_counters {s t : State} (h : Alike s t) (a b : Nat) :
    RanAlike s { s with w := a, i := b } t { t with w := a, i := b } where
  alike := ⟨h.cfg, h.resp, rfl, h.k, rfl, h.mem, h.supply, h.draws⟩
  events := ⟨[], by simp, by simp⟩
  left := keepsAll_counters s a b
  right := keepsAll_counters t a b

theorem clearAllStatus_alike {s t : State} (h : Alike s t) :
    RanAlike s (clearAllStatus s) t (clearAllStatus t) := by
  unfold clearAllStatus
  rw [h.cfg]
  have h1 := alike_regWrite .CSTA s.cfg.cmdstaClear h
  have h2 := h1.trans (alike_regWrite .DSTA s.cfg.dstaClear h1.alike)
  exact h2.trans (alike_regWrite .FSTA s.cfg.fstaClear h2.alike)

/-! ### SEND_COMMAND -/

theorem captureFrom_alike (n j : Nat) {s t : State} (h : Alike s t) :
    (captureFrom n j t).1 = (captureFrom n j s).1 ∧
      RanAlike s (captureFrom n j s).2 t (captureFrom n j t).2 := by
  induction n generalizing j s t with
  | zero => exact ⟨rfl, RanAlike.refl h⟩
  | succ n ih =>
    have h1 := alike_regRead (rspReg j) h
    have h2 := ih (j + 1) h1.alike
    exact ⟨by simp only [captureFrom, h2.1, h.draw], h1.trans h2.2⟩

theorem pollCommand_alike (d : CommandDesc) (left : Nat) {s t : State} (h : Alike s t) :
    (pollCommand d left t).1 = (pollCommand d left s).1 ∧
      RanAlike s (pollCommand d left s).2 t (pollCommand d left t).2 := by
  induction left generalizing s t with
  | zero => exact ⟨rfl, RanAlike.refl h⟩
  | succ left ih =>
    have h1 := alike_regRead .CSTA h
    rw [pollCommand, pollCommand, h.cfg, h.draw]
    cases cmdVerdict s.cfg.layout d s.draw with
    | none =>
      by_cases hl : left = 0
      · simp only [hl, if_true]; exact ⟨trivial, h1⟩
      · simp only [hl, if_false]
        have h2 := alike_delay .cmdPollDelay h1.alike
        have h3 := alike_i h2.alike ((regRead .CSTA s).i + 1)
        have h4 : (regRead .CSTA t).i = (regRead .CSTA s).i := h1.alike.i
        rw [h4]
        have h5 := ih h3.alike
        exact ⟨h5.1, ((h1.trans h2).trans h3).trans h5.2⟩
    | some v =>
      cases v with
      | timeout => exact ⟨rfl, h1⟩
      | commError => exact ⟨rfl, h1⟩
      | sent => exact ⟨rfl, h1⟩
      | respond =>
        have h2 := captureFrom_alike (if d.long then 4 else 1) 0 h1.alike
        exact ⟨by simp only [captureResponse, h2.1], h1.trans h2.2⟩

/-- SEND_COMMAND from alike states. -/
theorem sendCommand_alike (d : CommandDesc) {s t : State} (h : Alike s t) :
    (sendCommand d t).1 = (sendCommand d s).1 ∧ RanAlike s (sendCommand d s).2 t (sendCommand d t).2 := by
  have h1 := alike_resp h none
  have h2 := h1.trans (alike_regWrite .CARG d.carg h1.alike)
  have h3 := h2.trans (alike_regWrite .CCON (d.ccon s.cfg.layout) h2.alike)
  have h4 := h3.trans (alike_i h3.alike 1)
  have ht : launchCommand d t =
      { regWrite .CCON (d.ccon s.cfg.layout) (regWrite .CARG d.carg { t with resp := none }) with i := 1 } := by
    simp only [launchCommand, h.cfg]
  have h5 : RanAlike s (launchCommand d s) t (launchCommand d t) := by rw [ht]; exact h4
  have h6 := pollCommand_alike d s.cfg.cmdPollMax h5.alike
  unfold sendCommand
  rw [h.cfg]
  have hc : (pollCommand d s.cfg.cmdPollMax (launchCommand d t)).2.cfg =
      (pollCommand d s.cfg.cmdPollMax (launchCommand d s)).2.cfg := h6.2.alike.cfg
  refine ⟨h6.1, ?_⟩
  simp only [hc, h6.1]
  have h7 := (h5.trans h6.2).trans (alike_regWrite .CSTA
    (pollCommand d s.cfg.cmdPollMax (launchCommand d s)).2.cfg.cmdstaClear h6.2.alike)
  exact h7.trans (alike_resp h7.alike _)

/-! ### ARM_TRANSFER -/

theorem stopRound_alike {s t : State} (h : Alike s t) : RanAlike s (stopRound s) t (stopRound t) := by
  have h1 := alike_regWrite .DCON s.cfg.dconStopValue h
  have h2 := h1.trans (alike_regSet .CON s.cfg.layout.con.SDRESET.mask h1.alike)
  have h3 := h2.trans (alike_delay .settleDelay h2.alike)
  have h4 := h3.trans (alike_k h3.alike (s.k + 1))
  have hs : stopRound s = { delay .settleDelay (regSet .CON s.cfg.layout.con.SDRESET.mask
      (regWrite .DCON s.cfg.dconStopValue s)) with k := s.k + 1 } := by
    simp [stopRound, controllerReset, issueStop]
  have ht : stopRound t = { delay .settleDelay (regSet .CON s.cfg.layout.con.SDRESET.mask
      (regWrite .DCON s.cfg.dconStopValue t)) with k := s.k + 1 } := by
    simp [stopRound, controllerReset, issueStop, h.cfg, h.k]
  rw [hs, ht]
  exact h4

theorem programTransfer_alike (d : DataDesc) {s t : State} (h : Alike s t) :
    RanAlike s (programTransfer d s) t (programTransfer d t) := by
  unfold programTransfer
  rw [h.cfg]
  have h1 := alike_regWrite .DCON (d.dcon s.cfg.layout) h
  have h2 := h1.trans (alike_regWrite .BSIZE (zext32 d.blockSize) h1.alike)
  exact h2.trans (alike_regWrite .DTIMER s.cfg.dataTimeout h2.alike)

theorem quiesce_alike (d : DataDesc) (left : Nat) {s t : State} (h : Alike s t) :
    (quiesce d left t).1 = (quiesce d left s).1 ∧ RanAlike s (quiesce d left s).2 t (quiesce d left t).2 := by
  induction left generalizing s t with
  | zero =>
    have h1 := alike_regRead .DSTA h
    cases hb : transferBusy s.cfg.layout s.draw with
    | true =>
      rw [quiesce_stuck_end d s hb, quiesce_stuck_end d t (by rw [h.cfg, h.draw]; exact hb)]
      exact ⟨rfl, h1⟩
    | false =>
      rw [quiesce_quiet d 0 s hb, quiesce_quiet d 0 t (by rw [h.cfg, h.draw]; exact hb)]
      exact ⟨rfl, h1.trans (programTransfer_alike d h1.alike)⟩
  | succ left ih =>
    have h1 := alike_regRead .DSTA h
    cases hb : transferBusy s.cfg.layout s.draw with
    | true =>
      rw [quiesce_busy d left s hb, quiesce_busy d left t (by rw [h.cfg, h.draw]; exact hb)]
      have h2 := h1.trans (stopRound_alike h1.alike)
      have h3 := ih h2.alike
      exact ⟨h3.1, h2.trans h3.2⟩
    | false =>
      rw [quiesce_quiet d (left + 1) s hb, quiesce_quiet d (left + 1) t (by rw [h.cfg, h.draw]; exact hb)]
      exact ⟨rfl, h1.trans (programTransfer_alike d h1.alike)⟩

/-- ARM_TRANSFER from alike states. -/
theorem armTransfer_alike (d : DataDesc) {s t : State} (h : Alike s t) :
    (armTransfer d t).1 = (armTransfer d s).1 ∧ RanAlike s (armTransfer d s).2 t (armTransfer d t).2 := by
  cases hd : d.dir with
  | write =>
    rw [armTransfer_write d s hd, armTransfer_write d t hd]
    exact ⟨rfl, RanAlike.refl h⟩
  | read =>
    have h1 := alike_k h 0
    have h2 := quiesce_alike d s.cfg.armRetryMax h1.alike
    have hm : t.cfg.armRetryMax = s.cfg.armRetryMax := by rw [h.cfg]
    simp only [armTransfer, hd, hm]
    exact ⟨h2.1, h1.trans h2.2⟩

/-! ### WAIT_AND_DRAIN -/

/-- Two drains, from s and from t, that end in the same way: alike, with the same events and the same fault. -/
inductive Drain.AlikeEnds {α : Type} (s t : State) : Drain α → Drain α → Prop where
  | ok {a : α} {s' t' : State} (h : RanAlike s s' t t') : Drain.AlikeEnds s t (.ok a s') (.ok a t')
  | overrun {s' t' : State} (h : Alike s' t') (he : ∃ es, s'.trace = s.trace ++ es ∧ t'.trace = t.trace ++ es)
      (hl : Keeps s s') (hr : Keeps t t') (hp : t'.pc = s'.pc) (hf : t'.fault = s'.fault)
      (hq : t'.result = s'.result) : Drain.AlikeEnds s t (.overrun s') (.overrun t')

theorem Drain.AlikeEnds.after {α : Type} {s s' t t' : State} {x y : Drain α} (h1 : RanAlike s s' t t')
    (h2 : Drain.AlikeEnds s' t' x y) : Drain.AlikeEnds s t x y := by
  cases h2 with
  | ok h => exact .ok (h1.trans h)
  | overrun h he hl hr hp hf hq =>
    obtain ⟨as, ha, hb⟩ := h1.events
    obtain ⟨cs, hc, hd⟩ := he
    exact .overrun h ⟨as ++ cs, by rw [hc, ha, List.append_assoc], by rw [hd, hb, List.append_assoc]⟩
      (h1.left.toKeeps.trans hl) (h1.right.toKeeps.trans hr) hp hf hq

theorem nextWord_alike (d : DataDesc) {s t : State} (h : Alike s t) :
    RanAlike s (nextWord d s) t (nextWord d t) where
  alike := ⟨h.cfg, h.resp, h.i, h.k, by simp [nextWord, h.w], by simp [nextWord, h.w, h.mem, h.cfg, h.draw],
    by simp [nextWord, h.supply], by simp [nextWord, h.draws]⟩
  events := ⟨[.read .DAT s.draw, .store s.w s.draw], by simp [nextWord], by simp [nextWord, h.draw, h.w]⟩
  left := ⟨⟨rfl, rfl, rfl, rfl, rfl, rfl, rfl, rfl, rfl⟩, rfl, rfl, rfl⟩
  right := ⟨⟨rfl, rfl, rfl, rfl, rfl, rfl, rfl, rfl, rfl⟩, rfl, rfl, rfl⟩

theorem burst_alike (d : DataDesc) (p : Pos) (n : Nat) {s t : State} (h : Alike s t) :
    Drain.AlikeEnds s t (burst d p n s) (burst d p n t) := by
  induction n generalizing s t with
  | zero => exact .ok (RanAlike.refl h)
  | succ n ih =>
    by_cases hc : d.bufCapacity < 4 * s.w + 4
    · rw [burst_overrun_one d p n s hc, burst_overrun_one d p n t (by rw [h.w]; exact hc), h.w]
      have h1 := alike_regRead .DAT h
      have ha := h1.alike
      exact .overrun ⟨ha.cfg, ha.resp, ha.i, ha.k, ha.w, ha.mem, ha.supply, ha.draws⟩ h1.events
        ⟨rfl, rfl, rfl, rfl, rfl, rfl, rfl, rfl, rfl⟩ ⟨rfl, rfl, rfl, rfl, rfl, rfl, rfl, rfl, rfl⟩ rfl rfl rfl
    · rw [burst_fits_one d p n s (by omega), burst_fits_one d p n t (by rw [h.w]; omega)]
      have h1 := nextWord_alike d h
      exact (ih h1.alike).after h1

theorem drainOnce_alike (d : DataDesc) {s t : State} (h : Alike s t) :
    Drain.AlikeEnds s t (drainOnce d s) (drainOnce d t) := by
  have h1 := alike_regRead .FSTA h
  unfold drainOnce
  rw [h.cfg, h.draw]
  cases fifoHasData s.cfg.layout s.draw with
  | false => exact .ok h1
  | true =>
    have hb := burst_alike d loopBurstPos (fifoWords s.cfg.layout s.draw) h1.alike
    simp only [if_true]
    generalize burst d loopBurstPos (fifoWords s.cfg.layout s.draw) (regRead .FSTA s) = x at hb
    generalize burst d loopBurstPos (fifoWords s.cfg.layout s.draw) (regRead .FSTA t) = y at hb
    cases hb with
    | ok h2 => exact .ok ((h1.trans h2).trans (alike_delay _ h2.alike))
    | overrun h he hl hr hp hf hq => exact Drain.AlikeEnds.after h1 (.overrun h he hl hr hp hf hq)

theorem finalDrain_alike (d : DataDesc) {s t : State} (h : Alike s t) :
    Drain.AlikeEnds s t (finalDrain d s) (finalDrain d t) := by
  unfold finalDrain
  rw [h.cfg, h.draw]
  have h1 := alike_regRead .FSTA h
  exact (burst_alike d finalBurstPos _ h1.alike).after h1

theorem pollData_alike (d : DataDesc) (left : Nat) {s t : State} (h : Alike s t) :
    Drain.AlikeEnds s t (pollData d left s) (pollData d left t) := by
  induction left generalizing s t with
  | zero => exact .ok (RanAlike.refl h)
  | succ left ih =>
    rw [pollData, pollData]
    have h1 := drainOnce_alike d h
    generalize drainOnce d s = x at h1
    generalize drainOnce d t = y at h1
    cases h1 with
    | overrun h he hl hr hp hf hq => exact .overrun h he hl hr hp hf hq
    | @ok _ s1 t1 h2 =>
      have h3 := h2.trans (alike_regRead .DSTA h2.alike)
      simp only [h2.alike.cfg, h2.alike.draw]
      cases dataVerdict s1.cfg.layout s1.draw with
      | none =>
        by_cases hl : left = 0
        · simp only [hl, if_true]; exact .ok h3
        · simp only [hl, if_false]
          have h4 : (regRead .DSTA t1).i = (regRead .DSTA s1).i := h3.alike.i
          rw [h4]
          have h5 := h3.trans (alike_i h3.alike ((regRead .DSTA s1).i + 1))
          exact (ih h5.alike).after h5
      | some v =>
        cases v with
        | commError => exact .ok h3
        | timeout => exact .ok h3
        | finished =>
          have h6 := finalDrain_alike d h3.alike
          simp only
          generalize finalDrain d (regRead .DSTA s1) = x at h6
          generalize finalDrain d (regRead .DSTA t1) = y at h6
          cases h6 with
          | ok h7 => exact .ok (h3.trans h7)
          | overrun h he hl hr hp hf hq => exact Drain.AlikeEnds.after h3 (.overrun h he hl hr hp hf hq)

theorem exitClears_alike {s t : State} (h : Alike s t) : RanAlike s (exitClears s) t (exitClears t) := by
  unfold exitClears
  rw [h.cfg]
  have h1 := alike_regWrite .FSTA s.cfg.fstaClear h
  exact h1.trans (alike_regWrite .DSTA s.cfg.dstaClear h1.alike)

/-- WAIT_AND_DRAIN from alike states. -/
theorem waitAndDrain_alike (d : DataDesc) {s t : State} (h : Alike s t) :
    Drain.AlikeEnds s t (waitAndDrain d s) (waitAndDrain d t) := by
  have hm : t.cfg.dataPollMax = s.cfg.dataPollMax := by rw [h.cfg]
  simp only [waitAndDrain, hm]
  have h0 := alike_counters h 0 1
  have h1 := pollData_alike d s.cfg.dataPollMax h0.alike
  generalize pollData d s.cfg.dataPollMax { s with w := 0, i := 1 } = x at h1
  generalize pollData d s.cfg.dataPollMax { t with w := 0, i := 1 } = y at h1
  cases h1 with
  | ok h2 => exact .ok ((h0.trans h2).trans (exitClears_alike h2.alike))
  | overrun h he hl hr hp hf hq => exact Drain.AlikeEnds.after h0 (.overrun h he hl hr hp hf hq)

end Sys2Proof.Machine
end

