-- ==== Sys2Proof/Laws/PerInstr.lean ====
section
/-! SUPPORT. Statements about every instruction as syntax, one lemma per constructor. -/

namespace Sys2Proof.Laws.TableRow

/-- The word an instruction is encoded by carries the pattern of its row of the opcode table under the row's
mask (30_encoding.md R83). -/
def Statement (i : Instr) : Prop := (encode i).word &&& i.tableMask = i.tableMatch

theorem initEngine : Statement .initEngine := by unfold Statement; decide

theorem resetEngine : Statement .resetEngine := by unfold Statement; decide

theorem setClock (f : Nat) : Statement (.setClock f) := by
  show 2#32 &&& 0xFFFFFFFF#32 = 2#32; decide

theorem execute (cmd : CommandDesc) (data : Option DataDesc) : Statement (.execute cmd data) := by
  cases data <;> (show 3#32 &&& 0xFFFFFFFF#32 = 3#32; decide)

theorem calcDivider (fRef f : Nat) : Statement (.calcDivider fRef f) := by
  show 4#32 &&& 0xFFFFFFFF#32 = 4#32; decide

theorem sendCommand (cmd : CommandDesc) : Statement (.sendCommand cmd) := by
  show 5#32 &&& 0xFFFFFFFF#32 = 5#32; decide

theorem armTransfer (d : DataDesc) : Statement (.armTransfer d) := by
  show 6#32 &&& 0xFFFFFFFF#32 = 6#32; decide

theorem waitAndDrain (d : DataDesc) : Statement (.waitAndDrain d) := by
  show 7#32 &&& 0xFFFFFFFF#32 = 7#32; decide

theorem clearAllStatus : Statement .clearAllStatus := by unfold Statement; decide

theorem controllerReset : Statement .controllerReset := by unfold Statement; decide

theorem issueStop : Statement .issueStop := by unfold Statement; decide

theorem cconNoresp (index : BitVec 6) : Statement (.cconNoresp index) := by
  revert index; unfold Statement; decide

theorem cconShort (index : BitVec 6) : Statement (.cconShort index) := by
  revert index; unfold Statement; decide

theorem cconLong (index : BitVec 6) : Statement (.cconLong index) := by
  revert index; unfold Statement; decide

theorem dconRead (wide : Bool) (blknum : BitVec 12) : Statement (.dconRead wide blknum) := by
  show (0x008A6000#32 ||| (if wide then 0x00010000#32 else 0#32) ||| blknum.setWidth 32) &&& 0xFFFEF000#32
    = 0x008A6000#32
  have h : blknum.setWidth 32 &&& 0xFFFEF000#32 = 0#32 := by
    apply BitVec.eq_of_toNat_eq
    have hb := blknum.isLt
    rw [BitVec.toNat_and, BitVec.toNat_setWidth, Nat.mod_eq_of_lt (by omega)]
    show blknum.toNat &&& 0xFFFEF000 = 0
    apply Nat.eq_of_testBit_eq
    intro k
    by_cases hk : k < 12
    · rw [Nat.testBit_and, Nat.zero_testBit]
      have : Nat.testBit 0xFFFEF000 k = false := by
        revert hk; revert k; decide
      rw [this, Bool.and_false]
    · rw [Nat.testBit_and, Nat.zero_testBit,
        Nat.testBit_lt_two_pow (Nat.lt_of_lt_of_le hb (Nat.pow_le_pow_right (by omega) (by omega))), Bool.false_and]
  rw [BitVec.and_or_distrib_right, h]
  cases wide <;> decide

theorem dconStop : Statement .dconStop := by unfold Statement; decide

end Sys2Proof.Laws.TableRow
end

