-- ==== Sys2Proof/Laws/Sequencer.lean ====
section
/-! SUPPORT. What the sequencer does line by line (10_state.md R22): from the first label of a routine the lines
reach its return, with the state its whole-call operation gives; what the start of a call and a request can do. -/

namespace Sys2Proof.Machine

/-- x at a label with the variables of the routine in progress. -/
def atLine (p : Pos) (L : Locals) (x : State) : State := { x with pc := p, locals := L }

/-- Some number of lines leads from s to t. -/
def Reaches (s t : State) : Prop := ∃ n, lines n s = t

theorem lines_add (a b : Nat) (s : State) : lines (a + b) s = lines b (lines a s) := by
  induction a generalizing s with
  | zero => simp [lines]
  | succ a ih => rw [show a + 1 + b = (a + b) + 1 by omega, lines, ih, lines]

theorem Reaches.refl (s) : Reaches s s := ⟨0, rfl⟩

theorem Reaches.trans {s t u} (h1 : Reaches s t) (h2 : Reaches t u) : Reaches s u := by
  obtain ⟨a, rfl⟩ := h1; obtain ⟨b, rfl⟩ := h2; exact ⟨a + b, lines_add a b s⟩

theorem Reaches.one {s t} (h : line s = t) : Reaches s t := ⟨1, h⟩

theorem Reaches.step {s t u} (h : line s = t) (h2 : Reaches t u) : Reaches s u := (Reaches.one h).trans h2

theorem line_sendCommand (n L x) (h : x.fault = none) : line (atLine (label .sendCommand n) L x) = lineSendCommand n (atLine (label .sendCommand n) L x) := by simp [line, atLine, h, label]

theorem line_armTransfer (n L x) (h : x.fault = none) : line (atLine (label .armTransfer n) L x) = lineArmTransfer n (atLine (label .armTransfer n) L x) := by simp [line, atLine, h, label]

theorem line_waitAndDrain (n L x) (h : x.fault = none) : line (atLine (label .waitAndDrain n) L x) = lineWaitAndDrain n (atLine (label .waitAndDrain n) L x) := by simp [line, atLine, h, label]

theorem line_execute (n L x) (h : x.fault = none) : line (atLine (label .execute n) L x) = lineExecute n false (atLine (label .execute n) L x) := by simp [line, atLine, h, label]

theorem line_execute_resumed (L x) (h : x.fault = none) : line (atLine ⟨.execute, 3, true⟩ L x) = lineExecute 3 true (atLine ⟨.execute, 3, true⟩ L x) := by simp [line, atLine, h]

theorem line_clearAllStatus (n L x) (h : x.fault = none) : line (atLine (label .clearAllStatus n) L x) = lineClearAllStatus n (atLine (label .clearAllStatus n) L x) := by simp [line, atLine, h, label]

theorem line_controllerReset (n L x) (h : x.fault = none) : line (atLine (label .controllerReset n) L x) = lineControllerReset n (atLine (label .controllerReset n) L x) := by simp [line, atLine, h, label]

theorem line_issueStop (n L x) (h : x.fault = none) : line (atLine (label .issueStop n) L x) = lineIssueStop n (atLine (label .issueStop n) L x) := by simp [line, atLine, h, label]

theorem line_initEngine (n L x) (h : x.fault = none) : line (atLine (label .initEngine n) L x) = lineInitEngine n (atLine (label .initEngine n) L x) := by simp [line, atLine, h, label]

theorem line_resetEngine (n L x) (h : x.fault = none) : line (atLine (label .resetEngine n) L x) = lineResetEngine n (atLine (label .resetEngine n) L x) := by simp [line, atLine, h, label]

theorem line_setClock (n L x) (h : x.fault = none) : line (atLine (label .setClock n) L x) = lineSetClock n (atLine (label .setClock n) L x) := by simp [line, atLine, h, label]

theorem line_calcDivider (n L x) (h : x.fault = none) : line (atLine (label .calcDivider n) L x) = lineCalcDivider n (atLine (label .calcDivider n) L x) := by simp [line, atLine, h, label]

/-! ### SEND_COMMAND -/

theorem pollCommand_resp (d : CommandDesc) (left : Nat) (s : State) : (pollCommand d left s).2.resp = s.resp := by
  induction left generalizing s with
  | zero => rfl
  | succ left ih =>
    rw [pollCommand]
    cases cmdVerdict s.cfg.layout d s.draw with
    | none =>
      by_cases h : left = 0
      · simp [h]
      · simp only [h, if_false]; exact (ih _).trans rfl
    | some v => cases v <;> first | rfl | (simp only [captureResponse, captureFrom_eq]; rfl)

theorem pollCommand_fault (d : CommandDesc) (left : Nat) (s : State) : (pollCommand d left s).2.fault = s.fault := by
  induction left generalizing s with
  | zero => rfl
  | succ left ih =>
    rw [pollCommand]
    cases cmdVerdict s.cfg.layout d s.draw with
    | none =>
      by_cases h : left = 0
      · simp [h]
      · simp only [h, if_false]; exact (ih _).trans rfl
    | some v => cases v <;> first | rfl | (simp only [captureResponse, captureFrom_eq]; rfl)

theorem captureResponse_atLine (d : CommandDesc) (p L) (x : State) : captureResponse d (atLine p L x) = ((captureResponse d x).1, atLine p L (captureResponse d x).2) := by
  simp only [captureResponse, captureFrom_eq]; rfl

/-- Labels L6 to L9 of SEND_COMMAND. -/
theorem reaches_commandTest (y : State) (L : Locals) (hf : y.fault = none) :
   match cmdVerdict y.cfg.layout L.cmd L.status with
   | some .timeout => Reaches (atLine (label .sendCommand 6) L y) (atLine (label .sendCommand 12) { L with cout := .timeout } y)
   | some .commError => Reaches (atLine (label .sendCommand 6) L y) (atLine (label .sendCommand 12) { L with cout := .commError } y)
   | some .respond => Reaches (atLine (label .sendCommand 6) L y) (atLine (label .sendCommand 12) { L with cout := (captureResponse L.cmd y).1 } (captureResponse L.cmd y).2)
   | some .sent => Reaches (atLine (label .sendCommand 6) L y) (atLine (label .sendCommand 12) { L with cout := .success [] } y)
   | none => Reaches (atLine (label .sendCommand 6) L y) (atLine (label .sendCommand 10) L y) := by
  have l6 := line_sendCommand 6 L y hf
  have l7 := line_sendCommand 7 L y hf
  have l8 := line_sendCommand 8 L y hf
  have l9 := line_sendCommand 9 L y hf
  have f8 : lineSendCommand 8 (atLine (label .sendCommand 8) L y) = if L.cmd.present && y.cfg.layout.csta.RSPFIN.isSet L.status
      then atLine (label .sendCommand 12) { L with cout := (captureResponse L.cmd y).1 } (captureResponse L.cmd y).2
      else atLine (label .sendCommand 9) L y := by
    have := captureResponse_atLine L.cmd (label .sendCommand 8) L y
    show (if L.cmd.present && y.cfg.layout.csta.RSPFIN.isSet L.status then goto_ 12 (setCout (captureResponse L.cmd (atLine (label .sendCommand 8) L y)).1 (captureResponse L.cmd (atLine (label .sendCommand 8) L y)).2) else goto_ 9 (atLine (label .sendCommand 8) L y)) = _
    rw [this]; rfl
  have f6 : lineSendCommand 6 (atLine (label .sendCommand 6) L y) = if y.cfg.layout.csta.TOUT.isSet L.status then atLine (label .sendCommand 12) { L with cout := .timeout } y else atLine (label .sendCommand 7) L y := rfl
  have f7 : lineSendCommand 7 (atLine (label .sendCommand 7) L y) = if y.cfg.layout.csta.CRCFAIL.isSet L.status && L.cmd.crc then atLine (label .sendCommand 12) { L with cout := .commError } y else atLine (label .sendCommand 8) L y := rfl
  have f9 : lineSendCommand 9 (atLine (label .sendCommand 9) L y) = if !L.cmd.present && y.cfg.layout.csta.SENT.isSet L.status then atLine (label .sendCommand 12) { L with cout := .success [] } y else atLine (label .sendCommand 10) L y := rfl
  rw [f6] at l6; rw [f7] at l7; rw [f8] at l8; rw [f9] at l9
  unfold cmdVerdict
  cases h1 : y.cfg.layout.csta.TOUT.isSet L.status with
  | true => simp only [h1] at l6 ⊢; exact .one l6
  | false =>
  simp only [h1] at l6 ⊢
  cases h2 : (y.cfg.layout.csta.CRCFAIL.isSet L.status && L.cmd.crc) with
  | true => simp only [h2] at l7 ⊢; exact .step l6 (.one l7)
  | false =>
  simp only [h2] at l7 ⊢
  cases h3 : (L.cmd.present && y.cfg.layout.csta.RSPFIN.isSet L.status) with
  | true => simp only [h3] at l8 ⊢; exact .step l6 (.step l7 (.one l8))
  | false =>
  simp only [h3] at l8 ⊢
  cases h4 : (!L.cmd.present && y.cfg.layout.csta.SENT.isSet L.status) with
  | true => simp only [h4] at l9 ⊢; exact .step l6 (.step l7 (.step l8 (.one l9)))
  | false => simp only [h4] at l9 ⊢; exact .step l6 (.step l7 (.step l8 (.one l9)))

theorem reaches_commandPoll (left : Nat) (x : State) (L : Locals) (hf : x.fault = none) (hi : x.i + left = x.cfg.cmdPollMax) :
   ∃ M : Locals, M.cmd = L.cmd ∧ M.data = L.data ∧ M.cout = (pollCommand L.cmd (left+1) x).1 ∧ Reaches (atLine (label .sendCommand 5) L x) (atLine (label .sendCommand 12) M (pollCommand L.cmd (left+1) x).2) := by
  induction left generalizing x L with
  | zero =>
    have s5 : line (atLine (label .sendCommand 5) L x) = atLine (label .sendCommand 6) { L with status := x.draw } (regRead .CSTA x) := by refine (line_sendCommand _ _ _ ?_).trans ?_; exact hf; rfl
    have ht := reaches_commandTest (regRead .CSTA x) { L with status := x.draw } hf
    rw [pollCommand]
    simp only [regRead_cfg] at ht
    cases hv : cmdVerdict x.cfg.layout L.cmd x.draw with
    | some v =>
      rw [hv] at ht
      cases v with
      | timeout => exact ⟨{ L with status := x.draw, cout := .timeout }, rfl, rfl, rfl, .step s5 ht⟩
      | commError => exact ⟨{ L with status := x.draw, cout := .commError }, rfl, rfl, rfl, .step s5 ht⟩
      | respond => exact ⟨{ L with status := x.draw, cout := (captureResponse L.cmd (regRead .CSTA x)).1 }, rfl, rfl, rfl, .step s5 ht⟩
      | sent => exact ⟨{ L with status := x.draw, cout := .success [] }, rfl, rfl, rfl, .step s5 ht⟩
    | none =>
      rw [hv] at ht
      refine ⟨{ L with status := x.draw, cout := .timeout }, rfl, rfl, rfl, (Reaches.step s5 ht).trans (.one ?_)⟩
      refine (line_sendCommand _ _ _ ?_).trans ?_
      · exact hf
      show (if x.i = x.cfg.cmdPollMax then _ else _) = _
      rw [if_pos (by omega)]; rfl
  | succ left ih =>
    have s5 : line (atLine (label .sendCommand 5) L x) = atLine (label .sendCommand 6) { L with status := x.draw } (regRead .CSTA x) := by refine (line_sendCommand _ _ _ ?_).trans ?_; exact hf; rfl
    have ht := reaches_commandTest (regRead .CSTA x) { L with status := x.draw } hf
    rw [pollCommand]
    simp only [regRead_cfg] at ht
    cases hv : cmdVerdict x.cfg.layout L.cmd x.draw with
    | some v =>
      rw [hv] at ht
      cases v with
      | timeout => exact ⟨{ L with status := x.draw, cout := .timeout }, rfl, rfl, rfl, .step s5 ht⟩
      | commError => exact ⟨{ L with status := x.draw, cout := .commError }, rfl, rfl, rfl, .step s5 ht⟩
      | respond => exact ⟨{ L with status := x.draw, cout := (captureResponse L.cmd (regRead .CSTA x)).1 }, rfl, rfl, rfl, .step s5 ht⟩
      | sent => exact ⟨{ L with status := x.draw, cout := .success [] }, rfl, rfl, rfl, .step s5 ht⟩
    | none =>
      rw [hv] at ht
      have hx := ih { delay .cmdPollDelay (regRead .CSTA x) with i := x.i + 1 } { L with status := x.draw } hf (by show x.i + 1 + left = x.cfg.cmdPollMax; omega)
      obtain ⟨M, h1, h2, h3, h4⟩ := hx
      refine ⟨M, h1, h2, h3, ((Reaches.step s5 ht).trans (Reaches.step (t := atLine (label .sendCommand 11) { L with status := x.draw } (regRead .CSTA x)) ?_ (Reaches.step ?_ h4)))⟩
      · refine (line_sendCommand _ _ _ ?_).trans ?_
        · exact hf
        show (if x.i = x.cfg.cmdPollMax then _ else _) = _
        rw [if_neg (by omega)]; rfl
      · refine (line_sendCommand _ _ _ ?_).trans ?_; exact hf; rfl

/-- SEND_COMMAND from L1 to its return (41_command.md R110). -/
theorem reaches_sendCommand (x : State) (L : Locals) (hf : x.fault = none) (hl : 0 < x.cfg.cmdPollMax) :
   ∃ M : Locals, M.cmd = L.cmd ∧ M.data = L.data ∧ M.cout = (sendCommand L.cmd x).1 ∧ 
     Reaches (atLine (label .sendCommand 1) L x) (returnFrom (.command (sendCommand L.cmd x).1) (atLine (label .sendCommand 13) M (sendCommand L.cmd x).2)) := by
  obtain ⟨n, hn⟩ : ∃ n, x.cfg.cmdPollMax = n + 1 := ⟨x.cfg.cmdPollMax - 1, by omega⟩
  have r1 : Reaches (atLine (label .sendCommand 1) L x) (atLine (label .sendCommand 5) L (launchCommand L.cmd x)) := by
    refine .step (t := atLine (label .sendCommand 2) L { x with resp := none }) (by refine (line_sendCommand _ _ _ ?_).trans ?_; exact hf; rfl) ?_
    refine .step (t := atLine (label .sendCommand 3) L (regWrite .CARG L.cmd.carg { x with resp := none })) (by refine (line_sendCommand _ _ _ ?_).trans ?_; exact hf; rfl) ?_
    refine .step (t := atLine (label .sendCommand 4) L (regWrite .CCON (L.cmd.ccon x.cfg.layout) (regWrite .CARG L.cmd.carg { x with resp := none }))) (by refine (line_sendCommand _ _ _ ?_).trans ?_; exact hf; rfl) ?_
    exact .one (by refine (line_sendCommand _ _ _ ?_).trans ?_; exact hf; rfl)
  obtain ⟨M, h1, h2, h3, h4⟩ := reaches_commandPoll n (launchCommand L.cmd x) L (by simpa using hf) (by simp [hn]; omega)
  have hpf := pollCommand_fault L.cmd (n+1) (launchCommand L.cmd x)
  have hpr := pollCommand_resp L.cmd (n+1) (launchCommand L.cmd x)
  refine ⟨M, h1, h2, ?_, r1.trans (h4.trans ?_)⟩
  · rw [h3]; simp only [sendCommand, hn]
  · simp only [sendCommand, hn]
    generalize pollCommand L.cmd (n+1) (launchCommand L.cmd x) = r at *
    obtain ⟨o, y⟩ := r
    simp only [launchCommand_fault, launchCommand_resp] at *
    have hy : y.fault = none := hpf.trans hf
    refine .step (t := atLine (label .sendCommand 13) M (regWrite .CSTA y.cfg.cmdstaClear y)) (by refine (line_sendCommand _ _ _ ?_).trans ?_; exact hy; rfl) (.one ?_)
    refine (line_sendCommand _ _ _ ?_).trans ?_
    · exact hy
    show returnFrom (.command M.cout) { atLine (label .sendCommand 13) M (regWrite .CSTA y.cfg.cmdstaClear y) with resp := if M.cout.status = .success then M.cout.slot else y.resp } = _
    rw [h3]
    congr 1
    have : (if o.status = OutcomeKind.success then o.slot else y.resp) = o.slot := by
      cases o <;> simp [CommandOutcome.status, CommandOutcome.slot, hpr]
    rw [this]; rfl

/-! ### ARM_TRANSFER -/

theorem reaches_issueStop (L) (x : State) (hf : x.fault = none) : Reaches (atLine (label .armTransfer 6) L x) (atLine (label .armTransfer 7) L (issueStop x)) := by
  obtain ⟨y, hy⟩ : ∃ y, y = { x with stack := label .armTransfer 7 :: x.stack } := ⟨_, rfl⟩
  have hfy : y.fault = none := by rw [hy]; exact hf
  refine .step (t := atLine (label .issueStop 1) L y) (by rw [hy]; refine (line_armTransfer _ _ _ ?_).trans ?_; exact hf; rfl) ?_
  refine .step (t := atLine (label .issueStop 2) L (issueStop y)) (by refine (line_issueStop _ _ _ hfy).trans rfl) (.one ?_)
  refine (line_issueStop _ _ _ ?_).trans ?_
  · exact hfy
  show returnFrom .done (atLine (label .issueStop 2) L (issueStop y)) = _
  rw [hy]; rfl

theorem reaches_controllerReset (L) (x : State) (hf : x.fault = none) (start back : Pos)
   (h1 : line (atLine start L x) = atLine (label .controllerReset 1) L { x with stack := back :: x.stack }) : Reaches (atLine start L x) (atLine back L (controllerReset x)) := by
  obtain ⟨y, hy⟩ : ∃ y, y = { x with stack := back :: x.stack } := ⟨_, rfl⟩
  have hfy : y.fault = none := by rw [hy]; exact hf
  rw [← hy] at h1
  refine .step h1 ?_
  refine .step (t := atLine (label .controllerReset 2) L (controllerReset y)) (by refine (line_controllerReset _ _ _ hfy).trans rfl) (.one ?_)
  refine (line_controllerReset _ _ _ ?_).trans ?_
  · simpa using hfy
  show returnFrom .done (atLine (label .controllerReset 2) L (controllerReset y)) = _
  rw [hy]; rfl

theorem dataDesc_atLine (p) (M : Locals) (y) (d) (hd : M.data = some d) : (atLine p M y).dataDesc = d := by
  show M.data.getD _ = d; rw [hd]; rfl

theorem line_arm_dcon (y : State) (M : Locals) (d : DataDesc) (hd : M.data = some d) (hf : y.fault = none) : line (atLine (label .armTransfer 9) M y) = atLine (label .armTransfer 10) M (regWrite .DCON (d.dcon y.cfg.layout) y) := by
  refine (line_armTransfer _ _ _ ?_).trans ?_; exact hf
  show goto_ 10 (regWrite .DCON ((atLine (label .armTransfer 9) M y).dataDesc.dcon y.cfg.layout) (atLine (label .armTransfer 9) M y)) = _
  rw [dataDesc_atLine _ _ _ _ hd]; rfl

theorem line_arm_bsize (y : State) (M : Locals) (d : DataDesc) (hd : M.data = some d) (hf : y.fault = none) : line (atLine (label .armTransfer 10) M y) = atLine (label .armTransfer 11) M (regWrite .BSIZE (zext32 d.blockSize) y) := by
  refine (line_armTransfer _ _ _ ?_).trans ?_; exact hf
  show goto_ 11 (regWrite .BSIZE (zext32 (atLine (label .armTransfer 10) M y).dataDesc.blockSize) (atLine (label .armTransfer 10) M y)) = _
  rw [dataDesc_atLine _ _ _ _ hd]; rfl

theorem reaches_programming (y : State) (M : Locals) (d : DataDesc) (hd : M.data = some d) (hf : y.fault = none) :
   Reaches (atLine (label .armTransfer 9) M y) (returnFrom (.transfer .success) (atLine (label .armTransfer 12) { M with tout := .success } (programTransfer d y))) := by
  refine .step (line_arm_dcon y M d hd hf) (.step (line_arm_bsize _ M d hd hf) ?_)
  obtain ⟨z, hz⟩ : ∃ z, z = regWrite .BSIZE (zext32 d.blockSize) (regWrite .DCON (d.dcon y.cfg.layout) y) := ⟨_, rfl⟩
  have hp : programTransfer d y = regWrite .DTIMER z.cfg.dataTimeout z := by rw [hz]; rfl
  have hfz : z.fault = none := by rw [hz]; exact hf
  rw [← hz, hp]
  refine .step (t := atLine (label .armTransfer 12) M (regWrite .DTIMER z.cfg.dataTimeout z)) (by refine (line_armTransfer _ _ _ ?_).trans ?_; exact hfz; rfl) (.one ?_)
  refine (line_armTransfer _ _ _ ?_).trans rfl
  exact hfz

theorem reaches_round (y : State) (M : Locals) (hf : y.fault = none) (hk : y.k ≠ y.cfg.armRetryMax) : Reaches (atLine (label .armTransfer 5) M y) (atLine (label .armTransfer 3) M (stopRound y)) := by
  refine .step (t := atLine (label .armTransfer 6) M y) ?_ ?_
  · refine (line_armTransfer _ _ _ ?_).trans ?_
    · exact hf
    show (if y.k = y.cfg.armRetryMax then _ else _) = _
    rw [if_neg hk]; rfl
  refine (reaches_issueStop M y hf).trans ?_
  have hf2 : (issueStop y).fault = none := hf
  refine (reaches_controllerReset M (issueStop y) hf2 (label .armTransfer 7) (label .armTransfer 8) (by refine (line_armTransfer _ _ _ ?_).trans ?_; exact hf2; rfl)).trans (.one ?_)
  have hf3 : (controllerReset (issueStop y)).fault = none := by simpa using hf
  refine (line_armTransfer _ _ _ hf3).trans ?_
  unfold stopRound
  generalize controllerReset (issueStop y) = z
  rfl

theorem reaches_quiesce (left : Nat) (x : State) (L : Locals) (d : DataDesc) (hd : L.data = some d) (hf : x.fault = none) (hk : x.k + left = x.cfg.armRetryMax) :
   ∃ (M : Locals) (p : Pos), M.cmd = L.cmd ∧ M.data = L.data ∧ M.cout = L.cout ∧ M.tout = (quiesce d left x).1 ∧
     Reaches (atLine (label .armTransfer 3) L x) (returnFrom (.transfer (quiesce d left x).1) (atLine p M (quiesce d left x).2)) := by
  induction left generalizing x L with
  | zero =>
    have s3 : Reaches (atLine (label .armTransfer 3) L x) (atLine (label .armTransfer 4) { L with status := x.draw } (regRead .DSTA x)) := .one (by refine (line_armTransfer _ _ _ ?_).trans ?_; exact hf; rfl)
    have l4 : line (atLine (label .armTransfer 4) { L with status := x.draw } (regRead .DSTA x)) = if transferBusy x.cfg.layout x.draw then atLine (label .armTransfer 5) { L with status := x.draw } (regRead .DSTA x) else atLine (label .armTransfer 9) { L with status := x.draw } (regRead .DSTA x) := by refine (line_armTransfer _ _ _ ?_).trans ?_; exact hf; rfl
    cases hb : transferBusy x.cfg.layout x.draw with
    | true =>
      rw [quiesce_stuck_end d x hb]
      rw [hb] at l4
      refine ⟨{ L with status := x.draw, tout := .commError }, label .armTransfer 5, rfl, rfl, rfl, rfl, s3.trans (.step l4 (.one ?_))⟩
      refine (line_armTransfer _ _ _ ?_).trans ?_
      · exact hf
      show (if x.k = x.cfg.armRetryMax then _ else _) = _
      rw [if_pos (by omega)]; rfl
    | false =>
      rw [quiesce_quiet d 0 x hb]
      rw [hb] at l4
      refine ⟨{ L with status := x.draw, tout := .success }, label .armTransfer 12, rfl, rfl, rfl, rfl, s3.trans (.step l4 ?_)⟩
      exact reaches_programming (regRead .DSTA x) { L with status := x.draw } d hd hf
  | succ left ih =>
    have s3 : Reaches (atLine (label .armTransfer 3) L x) (atLine (label .armTransfer 4) { L with status := x.draw } (regRead .DSTA x)) := .one (by refine (line_armTransfer _ _ _ ?_).trans ?_; exact hf; rfl)
    have l4 : line (atLine (label .armTransfer 4) { L with status := x.draw } (regRead .DSTA x)) = if transferBusy x.cfg.layout x.draw then atLine (label .armTransfer 5) { L with status := x.draw } (regRead .DSTA x) else atLine (label .armTransfer 9) { L with status := x.draw } (regRead .DSTA x) := by refine (line_armTransfer _ _ _ ?_).trans ?_; exact hf; rfl
    cases hb : transferBusy x.cfg.layout x.draw with
    | true =>
      rw [quiesce_busy d left x hb]
      rw [hb] at l4
      have hr := reaches_round (regRead .DSTA x) { L with status := x.draw } hf (by show x.k ≠ x.cfg.armRetryMax; omega)
      obtain ⟨M, p, h1, h2, h3, h4, h5⟩ := ih (nextRound x) { L with status := x.draw } hd (by simp [nextRound]; exact hf) (by simp [nextRound]; omega)
      exact ⟨M, p, h1, h2, h3, h4, s3.trans (.step l4 (hr.trans h5))⟩
    | false =>
      rw [quiesce_quiet d (left+1) x hb]
      rw [hb] at l4
      refine ⟨{ L with status := x.draw, tout := .success }, label .armTransfer 12, rfl, rfl, rfl, rfl, s3.trans (.step l4 ?_)⟩
      exact reaches_programming (regRead .DSTA x) { L with status := x.draw } d hd hf

/-- ARM_TRANSFER from L1 to its return (42_data.md R130). -/
theorem reaches_armTransfer (x : State) (L : Locals) (d : DataDesc) (hd : L.data = some d) (hf : x.fault = none) :
   ∃ (M : Locals) (p : Pos), M.cmd = L.cmd ∧ M.data = L.data ∧ M.cout = L.cout ∧ M.tout = (armTransfer d x).1 ∧
     Reaches (atLine (label .armTransfer 1) L x) (returnFrom (.transfer (armTransfer d x).1) (atLine p M (armTransfer d x).2)) := by
  have l1 : line (atLine (label .armTransfer 1) L x) = if d.dir = .write then returnFrom (.transfer .unsupported) (atLine (label .armTransfer 1) { L with tout := .unsupported } x) else atLine (label .armTransfer 2) L x := by
    refine (line_armTransfer _ _ _ hf).trans ?_
    show (if (atLine (label .armTransfer 1) L x).dataDesc.dir = .write then _ else _) = _
    rw [dataDesc_atLine _ _ _ _ hd]; rfl
  cases hdir : d.dir with
  | write =>
    rw [hdir] at l1
    rw [armTransfer_write d x hdir]
    exact ⟨{ L with tout := .unsupported }, label .armTransfer 1, rfl, rfl, rfl, rfl, .one l1⟩
  | read =>
    rw [hdir] at l1
    obtain ⟨M, p, h1, h2, h3, h4, h5⟩ := reaches_quiesce x.cfg.armRetryMax { x with k := 0 } L d hd hf (by simp)
    have e : armTransfer d x = quiesce d x.cfg.armRetryMax { x with k := 0 } := by simp [armTransfer, hdir]
    rw [e]
    exact ⟨M, p, h1, h2, h3, h4, .step l1 (.step (by refine (line_armTransfer _ _ _ ?_).trans ?_; exact hf; rfl) h5)⟩

/-! ### WAIT_AND_DRAIN -/

theorem burst_atLine (d : DataDesc) (p : Pos) (n : Nat) (q : Pos) (L : Locals) (x : State) :
   burst d p n (atLine q L x) = match burst d p n x with
     | .ok _ y => .ok () (atLine q L y)
     | .overrun y => .overrun { y with locals := L } := by
  induction n generalizing x with
  | zero => rfl
  | succ n ih =>
    by_cases h : d.bufCapacity < 4 * x.w + 4
    · rw [burst_overrun_one d p n x h, burst_overrun_one d p n (atLine q L x) h]; rfl
    · rw [burst_fits_one d p n x (by omega), burst_fits_one d p n (atLine q L x) (by show 4 * x.w + 4 ≤ _; omega)]
      exact ih (nextWord d x)

theorem burst_fault (d : DataDesc) (p : Pos) (n : Nat) (x : State) (y) (h : burst d p n x = .ok () y) : y.fault = x.fault := by
  induction n generalizing x with
  | zero => simp [burst] at h; subst h; rfl
  | succ n ih =>
    by_cases hc : d.bufCapacity < 4 * x.w + 4
    · rw [burst_overrun_one d p n x hc] at h; simp at h
    · rw [burst_fits_one d p n x (by omega)] at h
      rw [ih _ h]; rfl

/-- Labels L2 and L3 of WAIT_AND_DRAIN. -/
theorem reaches_drainOnce (x : State) (L : Locals) (d : DataDesc) (hd : L.data = some d) (hf : x.fault = none) :
   match drainOnce d x with
   | .ok _ y => ∃ M : Locals, M.cmd = L.cmd ∧ M.data = L.data ∧ M.cout = L.cout ∧ y.fault = none ∧ Reaches (atLine (label .waitAndDrain 2) L x) (atLine (label .waitAndDrain 4) M y)
   | .overrun y => ∃ M : Locals, M.cmd = L.cmd ∧ M.data = L.data ∧ M.cout = L.cout ∧ Reaches (atLine (label .waitAndDrain 2) L x) { y with locals := M } := by
  have s2 : Reaches (atLine (label .waitAndDrain 2) L x) (atLine (label .waitAndDrain 3) { L with status := x.draw } (regRead .FSTA x)) := .one (by refine (line_waitAndDrain _ _ _ ?_).trans ?_; exact hf; rfl)
  have s3 : line (atLine (label .waitAndDrain 3) { L with status := x.draw } (regRead .FSTA x)) =
     if fifoHasData x.cfg.layout x.draw then
        match burst d loopBurstPos (fifoWords x.cfg.layout x.draw) (atLine (label .waitAndDrain 3) { L with status := x.draw } (regRead .FSTA x)) with
        | .ok _ s1 => goto_ 4 (delay .drainPause s1)
        | .overrun s1 => s1
      else goto_ 4 (atLine (label .waitAndDrain 3) { L with status := x.draw } (regRead .FSTA x)) := by
    refine (line_waitAndDrain _ _ _ ?_).trans ?_
    · exact hf
    have := dataDesc_atLine (label .waitAndDrain 3) { L with status := x.draw } (regRead .FSTA x) d hd
    unfold lineWaitAndDrain
    simp only [this]; rfl
  unfold drainOnce
  cases hh : fifoHasData x.cfg.layout x.draw with
  | false =>
    rw [hh] at s3
    exact ⟨{ L with status := x.draw }, rfl, rfl, rfl, hf, s2.trans (.one s3)⟩
  | true =>
    rw [hh, burst_atLine] at s3
    simp only [if_true] at s3 ⊢
    cases hb : burst d loopBurstPos (fifoWords x.cfg.layout x.draw) (regRead .FSTA x) with
    | ok a y =>
      rw [hb] at s3
      exact ⟨{ L with status := x.draw }, rfl, rfl, rfl, (burst_fault _ _ _ _ _ hb).trans hf, s2.trans (.one s3)⟩
    | overrun y =>
      rw [hb] at s3
      exact ⟨{ L with status := x.draw }, rfl, rfl, rfl, s2.trans (.one s3)⟩

theorem finalDrain_atLine (d : DataDesc) (q : Pos) (L : Locals) (x : State) :
   finalDrain d (atLine q L x) = match finalDrain d x with
     | .ok _ y => .ok () (atLine q L y)
     | .overrun y => .overrun { y with locals := L } := by
  unfold finalDrain
  exact burst_atLine d finalBurstPos _ q L (regRead .FSTA x)

/-- Labels L5 to L7 of WAIT_AND_DRAIN. -/
theorem reaches_dataTest (y : State) (L : Locals) (d : DataDesc) (hd : L.data = some d) (hf : y.fault = none) :
   match dataVerdict y.cfg.layout L.status with
   | some .commError => Reaches (atLine (label .waitAndDrain 5) L y) (atLine (label .waitAndDrain 10) { L with tout := .commError } y)
   | some .timeout => Reaches (atLine (label .waitAndDrain 5) L y) (atLine (label .waitAndDrain 10) { L with tout := .timeout } y)
   | some .finished => Reaches (atLine (label .waitAndDrain 5) L y) (match finalDrain d y with
       | .ok _ z => atLine (label .waitAndDrain 10) { L with tout := .success } z
       | .overrun z => { z with locals := L })
   | none => Reaches (atLine (label .waitAndDrain 5) L y) (atLine (label .waitAndDrain 8) L y) := by
  have l5 : line (atLine (label .waitAndDrain 5) L y) = if y.cfg.layout.dsta.RXCRCFAIL.isSet L.status then atLine (label .waitAndDrain 10) { L with tout := .commError } y else atLine (label .waitAndDrain 6) L y := by refine (line_waitAndDrain _ _ _ ?_).trans ?_; exact hf; rfl
  have l6 : line (atLine (label .waitAndDrain 6) L y) = if y.cfg.layout.dsta.DTOUT.isSet L.status then atLine (label .waitAndDrain 10) { L with tout := .timeout } y else atLine (label .waitAndDrain 7) L y := by refine (line_waitAndDrain _ _ _ ?_).trans ?_; exact hf; rfl
  have l7 : line (atLine (label .waitAndDrain 7) L y) = if y.cfg.layout.dsta.DATFIN.isSet L.status then (match finalDrain d y with
       | .ok _ z => atLine (label .waitAndDrain 10) { L with tout := .success } z
       | .overrun z => { z with locals := L }) else atLine (label .waitAndDrain 8) L y := by
    refine (line_waitAndDrain _ _ _ hf).trans ?_
    have := dataDesc_atLine (label .waitAndDrain 7) L y d hd
    have h2 := finalDrain_atLine d (label .waitAndDrain 7) L y
    unfold lineWaitAndDrain
    simp only [this, h2]
    cases finalDrain d y <;> rfl
  unfold dataVerdict
  cases h1 : y.cfg.layout.dsta.RXCRCFAIL.isSet L.status with
  | true => simp only [h1] at l5 ⊢; exact .one l5
  | false =>
  simp only [h1] at l5 ⊢
  cases h2 : y.cfg.layout.dsta.DTOUT.isSet L.status with
  | true => simp only [h2] at l6 ⊢; exact .step l5 (.one l6)
  | false =>
  simp only [h2] at l6 ⊢
  cases h3 : y.cfg.layout.dsta.DATFIN.isSet L.status with
  | true => simp only [h3] at l7 ⊢; exact .step l5 (.step l6 (.one l7))
  | false => simp only [h3] at l7 ⊢; exact .step l5 (.step l6 (.one l7))

theorem finalDrain_fault (d : DataDesc) (x : State) (y) (h : finalDrain d x = .ok () y) : y.fault = x.fault := by
  unfold finalDrain at h; exact (burst_fault _ _ _ _ _ h).trans rfl

theorem reaches_pollData (left : Nat) (x : State) (L : Locals) (d : DataDesc) (hd : L.data = some d) (hf : x.fault = none) (hi : x.i + left = x.cfg.dataPollMax) :
   match pollData d (left + 1) x with
   | .ok o y => ∃ M : Locals, M.cmd = L.cmd ∧ M.data = L.data ∧ M.cout = L.cout ∧ M.tout = o ∧ y.fault = none ∧ Reaches (atLine (label .waitAndDrain 2) L x) (atLine (label .waitAndDrain 10) M y)
   | .overrun y => ∃ M : Locals, M.cmd = L.cmd ∧ M.data = L.data ∧ M.cout = L.cout ∧ Reaches (atLine (label .waitAndDrain 2) L x) { y with locals := M } := by
  induction left generalizing x L with
  | zero =>
    have h1 := reaches_drainOnce x L d hd hf
    have hcfg := drainOnce_spec d x
    rw [pollData]
    cases hx : drainOnce d x with
    | overrun y => rw [hx] at h1; exact h1
    | ok a y =>
      rw [hx] at h1
      obtain ⟨M, m1, m2, m3, hfy, hr⟩ := h1
      have ky : y.cfg = x.cfg ∧ y.i = x.i := by
        rcases hcfg with ⟨t, es, h2, h3, h4⟩ | ⟨t, es, h2, _⟩
        · rw [hx] at h2; simp at h2; subst h2; exact ⟨h3.keeps.cfg, h4.i⟩
        · rw [hx] at h2; simp at h2
      have l4 : Reaches (atLine (label .waitAndDrain 4) M y) (atLine (label .waitAndDrain 5) { M with status := y.draw } (regRead .DSTA y)) := .one (by refine (line_waitAndDrain _ _ _ ?_).trans ?_; exact hfy; rfl)
      have ht := reaches_dataTest (regRead .DSTA y) { M with status := y.draw } d (m2.trans hd) hfy
      simp only [regRead_cfg] at ht ⊢
      have h2 := hr.trans l4
      cases hv : dataVerdict y.cfg.layout y.draw with
      | none =>
        rw [hv] at ht
        refine ⟨{ M with status := y.draw, tout := .timeout }, m1, m2, m3, rfl, hfy, (h2.trans ht).trans (.one ?_)⟩
        refine (line_waitAndDrain _ _ _ ?_).trans ?_
        · exact hfy
        show (if y.i = y.cfg.dataPollMax then _ else _) = _
        rw [if_pos (by rw [ky.1, ky.2]; omega)]; rfl
      | some v =>
        rw [hv] at ht
        cases v with
        | commError => exact ⟨{ M with status := y.draw, tout := .commError }, m1, m2, m3, rfl, hfy, h2.trans ht⟩
        | timeout => exact ⟨{ M with status := y.draw, tout := .timeout }, m1, m2, m3, rfl, hfy, h2.trans ht⟩
        | finished =>
          simp only at ht ⊢
          cases hfd : finalDrain d (regRead .DSTA y) with
          | ok a z => rw [hfd] at ht; exact ⟨{ M with status := y.draw, tout := .success }, m1, m2, m3, rfl, (finalDrain_fault _ _ _ hfd).trans hfy, h2.trans ht⟩
          | overrun z => rw [hfd] at ht; exact ⟨{ M with status := y.draw }, m1, m2, m3, h2.trans ht⟩
  | succ left ih =>
    have h1 := reaches_drainOnce x L d hd hf
    have hcfg := drainOnce_spec d x
    rw [pollData]
    cases hx : drainOnce d x with
    | overrun y => rw [hx] at h1; exact h1
    | ok a y =>
      rw [hx] at h1
      obtain ⟨M, m1, m2, m3, hfy, hr⟩ := h1
      have ky : y.cfg = x.cfg ∧ y.i = x.i := by
        rcases hcfg with ⟨t, es, h2, h3, h4⟩ | ⟨t, es, h2, _⟩
        · rw [hx] at h2; simp at h2; subst h2; exact ⟨h3.keeps.cfg, h4.i⟩
        · rw [hx] at h2; simp at h2
      have l4 : Reaches (atLine (label .waitAndDrain 4) M y) (atLine (label .waitAndDrain 5) { M with status := y.draw } (regRead .DSTA y)) := .one (by refine (line_waitAndDrain _ _ _ ?_).trans ?_; exact hfy; rfl)
      have ht := reaches_dataTest (regRead .DSTA y) { M with status := y.draw } d (m2.trans hd) hfy
      simp only [regRead_cfg] at ht
      dsimp only
      have h2 := hr.trans l4
      cases hv : dataVerdict y.cfg.layout y.draw with
      | none =>
        rw [hv] at ht
        simp only at ht ⊢
        rw [if_neg (by omega)]
        have hn := ih { regRead .DSTA y with i := (regRead .DSTA y).i + 1 } { M with status := y.draw } (m2.trans hd) hfy (by show y.i + 1 + left = y.cfg.dataPollMax; rw [ky.1, ky.2]; omega)
        have h3 : Reaches (atLine (label .waitAndDrain 8) { M with status := y.draw } (regRead .DSTA y)) (atLine (label .waitAndDrain 2) { M with status := y.draw } { regRead .DSTA y with i := (regRead .DSTA y).i + 1 }) := by
          refine .step (t := atLine (label .waitAndDrain 9) { M with status := y.draw } (regRead .DSTA y)) ?_ (.one (by refine (line_waitAndDrain _ _ _ ?_).trans ?_; exact hfy; rfl))
          refine (line_waitAndDrain _ _ _ ?_).trans ?_
          · exact hfy
          show (if y.i = y.cfg.dataPollMax then _ else _) = _
          rw [if_neg (by rw [ky.1, ky.2]; omega)]; rfl
        have h4 := (h2.trans ht).trans h3
        cases hp : pollData d (left + 1) { regRead .DSTA y with i := (regRead .DSTA y).i + 1 } with
        | ok o z =>
          rw [hp] at hn
          obtain ⟨N, n1, n2, n3, n4, n5, n6⟩ := hn
          exact ⟨N, n1.trans m1, n2.trans m2, n3.trans m3, n4, n5, h4.trans n6⟩
        | overrun z =>
          rw [hp] at hn
          obtain ⟨N, n1, n2, n3, n6⟩ := hn
          exact ⟨N, n1.trans m1, n2.trans m2, n3.trans m3, h4.trans n6⟩
      | some v =>
        rw [hv] at ht
        cases v with
        | commError => exact ⟨{ M with status := y.draw, tout := .commError }, m1, m2, m3, rfl, hfy, h2.trans ht⟩
        | timeout => exact ⟨{ M with status := y.draw, tout := .timeout }, m1, m2, m3, rfl, hfy, h2.trans ht⟩
        | finished =>
          simp only at ht ⊢
          cases hfd : finalDrain d (regRead .DSTA y) with
          | ok a z => rw [hfd] at ht; exact ⟨{ M with status := y.draw, tout := .success }, m1, m2, m3, rfl, (finalDrain_fault _ _ _ hfd).trans hfy, h2.trans ht⟩
          | overrun z => rw [hfd] at ht; exact ⟨{ M with status := y.draw }, m1, m2, m3, h2.trans ht⟩

/-- WAIT_AND_DRAIN from L1 to its return or its fault (42_data.md R140). -/
theorem reaches_waitAndDrain (x : State) (L : Locals) (d : DataDesc) (hd : L.data = some d) (hf : x.fault = none) (hl : 0 < x.cfg.dataPollMax) :
   match waitAndDrain d x with
   | .ok o y => ∃ M : Locals, M.cmd = L.cmd ∧ M.data = L.data ∧ M.cout = L.cout ∧ M.tout = o ∧ y.fault = none ∧ Reaches (atLine (label .waitAndDrain 1) L x) (returnFrom (.transfer o) (atLine (label .waitAndDrain 12) M y))
   | .overrun y => ∃ M : Locals, M.cmd = L.cmd ∧ M.data = L.data ∧ M.cout = L.cout ∧ Reaches (atLine (label .waitAndDrain 1) L x) { y with locals := M } := by
  obtain ⟨n, hn⟩ : ∃ n, x.cfg.dataPollMax = n + 1 := ⟨x.cfg.dataPollMax - 1, by omega⟩
  have h1 : Reaches (atLine (label .waitAndDrain 1) L x) (atLine (label .waitAndDrain 2) L { x with w := 0, i := 1 }) := .one (by refine (line_waitAndDrain _ _ _ ?_).trans ?_; exact hf; rfl)
  have h2 := reaches_pollData n { x with w := 0, i := 1 } L d hd hf (by show 1 + n = x.cfg.dataPollMax; omega)
  unfold waitAndDrain
  rw [hn]
  cases hp : pollData d (n + 1) { x with w := 0, i := 1 } with
  | ok o y =>
    rw [hp] at h2
    obtain ⟨M, m1, m2, m3, m4, m5, m6⟩ := h2
    refine ⟨M, m1, m2, m3, m4, by simpa using m5, (h1.trans m6).trans ?_⟩
    refine .step (t := atLine (label .waitAndDrain 11) M (regWrite .FSTA y.cfg.fstaClear y)) (by refine (line_waitAndDrain _ _ _ ?_).trans ?_; exact m5; rfl) ?_
    refine .step (t := atLine (label .waitAndDrain 12) M (exitClears y)) (by refine (line_waitAndDrain _ _ _ ?_).trans ?_; exact m5; rfl) (.one ?_)
    refine (line_waitAndDrain _ _ _ ?_).trans ?_
    · simpa using m5
    show returnFrom (.transfer M.tout) _ = _
    rw [m4]
  | overrun y =>
    rw [hp] at h2
    obtain ⟨M, m1, m2, m3, m6⟩ := h2
    exact ⟨M, m1, m2, m3, h1.trans m6⟩

/-- x under a stack: what a routine does does not depend on its callers. -/
def withStack (st : List Pos) (x : State) : State := { x with stack := st }

theorem captureResponse_withStack (d : CommandDesc) (st) (x : State) : captureResponse d (withStack st x) = ((captureResponse d x).1, withStack st (captureResponse d x).2) := by
  simp only [captureResponse, captureFrom_eq]; rfl

theorem pollCommand_withStack (d : CommandDesc) (n : Nat) (st) (x : State) : pollCommand d n (withStack st x) = ((pollCommand d n x).1, withStack st (pollCommand d n x).2) := by
  induction n generalizing x with
  | zero => rfl
  | succ n ih =>
    have e := captureResponse_withStack d st (regRead .CSTA x)
    have i := ih { delay .cmdPollDelay (regRead .CSTA x) with i := (regRead .CSTA x).i + 1 }
    rw [pollCommand, pollCommand]
    show (match cmdVerdict x.cfg.layout d x.draw with
      | some .timeout => _ | some .commError => _ | some .respond => _ | some .sent => _ | none => _ ) = _
    cases cmdVerdict x.cfg.layout d x.draw with
    | none =>
      by_cases h : n = 0
      · simp only [h, if_true]; rfl
      · simp only [h, if_false]; exact i
    | some v => cases v <;> first | rfl | exact e

theorem sendCommand_withStack (d : CommandDesc) (st) (x : State) : sendCommand d (withStack st x) = ((sendCommand d x).1, withStack st (sendCommand d x).2) := by
  have h := pollCommand_withStack d x.cfg.cmdPollMax st (launchCommand d x)
  unfold sendCommand
  rw [show pollCommand d (withStack st x).cfg.cmdPollMax (launchCommand d (withStack st x)) = _ from h]; rfl

theorem quiesce_withStack (d : DataDesc) (n : Nat) (st) (x : State) : quiesce d n (withStack st x) = ((quiesce d n x).1, withStack st (quiesce d n x).2) := by
  induction n generalizing x with
  | zero =>
    unfold quiesce
    show (if transferBusy x.cfg.layout x.draw then _ else _) = (_, _)
    split <;> rfl
  | succ n ih =>
    have i := ih (stopRound (regRead .DSTA x))
    unfold quiesce
    show (if transferBusy x.cfg.layout x.draw then _ else _) = (_, _)
    split
    · exact i
    · rfl

theorem armTransfer_withStack (d : DataDesc) (st) (x : State) : armTransfer d (withStack st x) = ((armTransfer d x).1, withStack st (armTransfer d x).2) := by
  unfold armTransfer
  cases d.dir with
  | write => rfl
  | read => exact quiesce_withStack d x.cfg.armRetryMax st { x with k := 0 }

/-- A drain's end under a stack. -/
def Drain.onStack {α} (st : List Pos) : Drain α → Drain α
  | .ok a x => .ok a (withStack st x)
  | .overrun x => .overrun (withStack st x)

theorem burst_withStack (d : DataDesc) (p : Pos) (n : Nat) (st) (x : State) : burst d p n (withStack st x) = Drain.onStack st (burst d p n x) := by
  induction n generalizing x with
  | zero => rfl
  | succ n ih =>
    have i := ih (nextWord d x)
    by_cases h : d.bufCapacity < 4 * x.w + 4
    · rw [burst_overrun_one d p n x h, burst_overrun_one d p n (withStack st x) h]; rfl
    · rw [burst_fits_one d p n x (by omega), burst_fits_one d p n (withStack st x) (by show 4 * x.w + 4 ≤ _; omega)]
      exact i

theorem drainOnce_withStack (d : DataDesc) (st) (x : State) : drainOnce d (withStack st x) = Drain.onStack st (drainOnce d x) := by
  have h := burst_withStack d loopBurstPos (fifoWords x.cfg.layout x.draw) st (regRead .FSTA x)
  unfold drainOnce
  show (if fifoHasData x.cfg.layout x.draw then (match burst d loopBurstPos (fifoWords x.cfg.layout x.draw) (withStack st (regRead .FSTA x)) with | .ok _ s2 => _ | .overrun s2 => _) else _) = _
  rw [h]
  dsimp only
  split
  · cases burst d loopBurstPos (fifoWords x.cfg.layout x.draw) (regRead .FSTA x) <;> rfl
  · rfl

theorem finalDrain_withStack (d : DataDesc) (st) (x : State) : finalDrain d (withStack st x) = Drain.onStack st (finalDrain d x) :=
  burst_withStack d finalBurstPos (fifoWords x.cfg.layout x.draw) st (regRead .FSTA x)

theorem pollData_withStack (d : DataDesc) (n : Nat) (st) (x : State) : pollData d n (withStack st x) = Drain.onStack st (pollData d n x) := by
  induction n generalizing x with
  | zero => rfl
  | succ n ih =>
    rw [pollData, pollData, drainOnce_withStack]
    cases drainOnce d x with
    | overrun y => rfl
    | ok a y =>
      have i := ih { regRead .DSTA y with i := (regRead .DSTA y).i + 1 }
      have f := finalDrain_withStack d st (regRead .DSTA y)
      show (match dataVerdict y.cfg.layout y.draw with
        | some .commError => _ | some .timeout => _ 
        | some .finished => (match finalDrain d (withStack st (regRead .DSTA y)) with | .ok _ z => _ | .overrun z => _) | none => _) = _
      rw [f]
      dsimp only
      cases dataVerdict y.cfg.layout y.draw with
      | none =>
        by_cases h : n = 0
        · simp only [h, if_true]; rfl
        · simp only [h, if_false]; exact i
      | some v =>
        cases v with
        | commError => rfl
        | timeout => rfl
        | finished => dsimp only; cases finalDrain d (regRead .DSTA y) <;> rfl

theorem waitAndDrain_withStack (d : DataDesc) (st) (x : State) : waitAndDrain d (withStack st x) = Drain.onStack st (waitAndDrain d x) := by
  have h := pollData_withStack d x.cfg.dataPollMax st { x with w := 0, i := 1 }
  unfold waitAndDrain
  show (match pollData d x.cfg.dataPollMax (withStack st { x with w := 0, i := 1 }) with | .ok t s1 => _ | .overrun s1 => _) = _
  rw [h]
  cases pollData d x.cfg.dataPollMax { x with w := 0, i := 1 } <;> rfl

/-! ### CLEAR_ALL_STATUS and EXECUTE -/

/-- CLEAR_ALL_STATUS from L1 to its return (43_orchestrator.md R166). -/
theorem reaches_clearAllStatus (L) (x : State) (hf : x.fault = none) : Reaches (atLine (label .clearAllStatus 1) L x) (returnFrom .done (atLine (label .clearAllStatus 4) L (clearAllStatus x))) := by
  refine .step (t := atLine (label .clearAllStatus 2) L (regWrite .CSTA x.cfg.cmdstaClear x)) (by refine (line_clearAllStatus _ _ _ ?_).trans ?_; exact hf; rfl) ?_
  refine .step (t := atLine (label .clearAllStatus 3) L (regWrite .DSTA x.cfg.dstaClear (regWrite .CSTA x.cfg.cmdstaClear x))) (by refine (line_clearAllStatus _ _ _ ?_).trans ?_; exact hf; rfl) ?_
  refine .step (t := atLine (label .clearAllStatus 4) L (clearAllStatus x)) (by refine (line_clearAllStatus _ _ _ ?_).trans ?_; exact hf; rfl) ?_
  exact .one (by refine (line_clearAllStatus _ _ _ ?_).trans ?_; exact hf; rfl)

/-- Running the lines from u ends in t, the variables put aside. -/
def Ends (u : State) (t : State) : Prop := ∃ n, { lines n u with locals := Locals.clear } = t ∧ (t.fault = none → (lines n u).pc = Pos.idle)

theorem Ends.of {u v t : State} (h : Reaches u v) (e : { v with locals := Locals.clear } = t) (p : t.fault = none → v.pc = Pos.idle) : Ends u t := by
  obtain ⟨n, hn⟩ := h; exact ⟨n, by rw [hn]; exact e, by rw [hn]; exact p⟩

theorem executeBody_accepted (s : State) (cmd data) (hcm : cmd.wellFormed = true) (hac : dataAccepted s.cfg data = true) : executeBody cmd data s = match data with
    | none => executePlain cmd (clearAllStatus s)
    | some d => executeData cmd d (clearAllStatus s) := by
  unfold executeBody; rw [hcm, hac]; cases data <;> rfl

/-- An accepted EXECUTE from L1 to its end (43_orchestrator.md R160). -/
theorem execute_ends (s : State) (cmd data) (hf : s.fault = none) (hpc : s.pc = Pos.idle) (hst : s.stack = []) (hl : s.cfg.legal = true)
   (hcm : cmd.wellFormed = true) (hac : dataAccepted s.cfg data = true) :
   Ends (begin_ .execute { Locals.clear with cmd := cmd, data := data } s) { executeBody cmd data s with locals := Locals.clear } := by
  have hb := legal_bounds hl
  obtain ⟨L, hL⟩ : ∃ L : Locals, L = { Locals.clear with cmd := cmd, data := data } := ⟨_, rfl⟩
  have hLc : L.cmd = cmd := by rw [hL]
  have hLd : L.data = data := by rw [hL]
  rw [← hL]
  show Ends (atLine (label .execute 1) L s) _
  have l1 : line (atLine (label .execute 1) L s) = atLine (label .execute 2) L s := by
    refine (line_execute _ _ _ hf).trans ?_
    show (if !L.cmd.wellFormed then _ else if !dataAccepted s.cfg L.data then _ else _) = _
    rw [hLc, hLd, hcm, hac]; rfl
  have l2 : line (atLine (label .execute 2) L s) = atLine (label .clearAllStatus 1) L (withStack [label .execute 3] s) := by
    refine (line_execute _ _ _ hf).trans ?_
    show atLine (label .clearAllStatus 1) L { s with stack := label .execute 3 :: s.stack } = _
    rw [hst]; rfl
  have r3 := reaches_clearAllStatus L (withStack [label .execute 3] s) hf
  have e3 : returnFrom .done (atLine (label .clearAllStatus 4) L (clearAllStatus (withStack [label .execute 3] s))) = atLine (label .execute 3) L (withStack [] (clearAllStatus s)) := rfl
  rw [e3] at r3
  have hws : withStack [] (clearAllStatus s) = clearAllStatus s := by
    show { clearAllStatus s with stack := [] } = _
    rw [← hst]; rfl
  rw [hws] at r3
  have r0 : Reaches (atLine (label .execute 1) L s) (atLine (label .execute 3) L (clearAllStatus s)) := .step l1 (.step l2 r3)
  have f1 : (clearAllStatus s).fault = none := hf
  have st1 : (clearAllStatus s).stack = [] := hst
  have bd := executeBody_accepted s cmd data hcm hac
  rw [bd]
  have cp1 : 0 < (clearAllStatus s).cfg.cmdPollMax ∧ 0 < (clearAllStatus s).cfg.dataPollMax := by
    have : (clearAllStatus s).cfg = s.cfg := rfl
    rw [this]; constructor <;> omega
  have pc1 : (clearAllStatus s).pc = Pos.idle := hpc
  generalize clearAllStatus s = x at *
  -- send from 4
  have send : ∀ (y : State) (M : Locals), y.fault = none → y.stack = [] → 0 < y.cfg.cmdPollMax → ∃ N : Locals, N.cmd = M.cmd ∧ N.data = M.data ∧ N.cout = (sendCommand M.cmd y).1 ∧
      Reaches (atLine (label .execute 4) M y) (atLine (label .execute 5) N (sendCommand M.cmd y).2) := by
    intro y M h1 h2 h3
    obtain ⟨N, n1, n2, n3, n4⟩ := reaches_sendCommand (withStack [label .execute 5] y) M h1 h3
    rw [sendCommand_withStack] at n3 n4
    refine ⟨N, n1, n2, n3, .step ?_ (n4.trans ?_)⟩
    · refine (line_execute _ _ _ h1).trans ?_
      show atLine (label .sendCommand 1) M { y with stack := label .execute 5 :: y.stack } = _
      rw [h2]; rfl
    · have e : returnFrom (.command (sendCommand M.cmd y).1) (atLine (label .sendCommand 13) N (withStack [label .execute 5] (sendCommand M.cmd y).2)) = atLine (label .execute 5) N (withStack [] (sendCommand M.cmd y).2) := rfl
      rw [e]
      have : withStack [] (sendCommand M.cmd y).2 = (sendCommand M.cmd y).2 := by
        have := sendCommand_withStack M.cmd [] y
        have h : withStack [] y = y := by show { y with stack := [] } = y; rw [← h2]
        rw [h] at this
        exact (congrArg Prod.snd this).symm
      rw [this]; exact .refl _
  cases data with
  | none =>
    have l3 : line (atLine (label .execute 3) L x) = atLine (label .execute 4) L x := by
      refine (line_execute _ _ _ f1).trans ?_
      show (if L.data.isSome then _ else _) = _
      rw [hLd]; rfl
    obtain ⟨N, n1, n2, n3, n4⟩ := send x L f1 st1 cp1.1
    rw [hLc] at n1 n3 n4
    obtain ⟨es, hh⟩ := sendCommand_spec cmd x cp1.1
    have k1 := hh.keeps
    have ff : (sendCommand cmd x).2.fault = none := k1.fault.trans f1
    have fs : (sendCommand cmd x).2.stack = [] := k1.stack.trans st1
    have fpc : (sendCommand cmd x).2.pc = Pos.idle := k1.pc.trans pc1
    simp only [executePlain]
    generalize sendCommand cmd x = r at *
    have l5 : line (atLine (label .execute 5) N r.2) = returnFrom (.transaction { final := r.1.status, cmd := some r.1, data := none }) { atLine (label .execute 5) N r.2 with last := some { final := r.1.status, cmd := some r.1, data := none } } := by
      refine (line_execute _ _ _ ff).trans ?_
      show (if N.data.isSome then _ else returnLast { final := N.cout.status, cmd := some N.cout, data := none } _) = _
      rw [n2, hLd, n3]; rfl
    refine Ends.of ((r0.trans (.step l3 n4)).trans (.one l5)) ?_ ?_
    · obtain ⟨a, b⟩ := r
      simp only [returnFrom, atLine, finishExecute, hostReturn] at *
      rw [fs]; simp [fpc]
    · intro _
      simp [returnFrom, atLine, fs]
  | some d =>
    have l3 : line (atLine (label .execute 3) L x) = atLine (label .armTransfer 1) L (withStack [⟨.execute, 3, true⟩] x) := by
      refine (line_execute _ _ _ f1).trans ?_
      show (if L.data.isSome then atLine (label .armTransfer 1) L { x with stack := ⟨.execute, 3, true⟩ :: x.stack } else _) = _
      rw [hLd, st1]; rfl
    obtain ⟨M, p, m1, m2, m3, m4, m5⟩ := reaches_armTransfer (withStack [⟨.execute, 3, true⟩] x) L d hLd f1
    rw [armTransfer_withStack] at m4 m5
    have k1 : KeepsAll x (armTransfer d x).2 := by
      cases hdir : d.dir with
      | read => obtain ⟨es, h, _⟩ := armTransfer_spec d x hdir; exact h.keeps
      | write => rw [armTransfer_write d x hdir]; exact .refl _
    have e : returnFrom (.transfer (armTransfer d x).1) (atLine p M (withStack [⟨.execute, 3, true⟩] (armTransfer d x).2)) = atLine ⟨.execute, 3, true⟩ M (withStack [] (armTransfer d x).2) := rfl
    have e2 : withStack [] (armTransfer d x).2 = (armTransfer d x).2 := by
      show { (armTransfer d x).2 with stack := [] } = _
      rw [← st1, ← k1.stack]
    simp only [e, e2] at m5
    have r1 := r0.trans (.step l3 m5)
    have ff : (armTransfer d x).2.fault = none := k1.fault.trans f1
    have fs : (armTransfer d x).2.stack = [] := k1.stack.trans st1
    have fpc : (armTransfer d x).2.pc = Pos.idle := k1.pc.trans pc1
    have fcf : (armTransfer d x).2.cfg = x.cfg := k1.cfg
    simp only [executeData]
    generalize armTransfer d x = r at *
    obtain ⟨a, y⟩ := r
    simp only at *
    have lr : line (atLine ⟨.execute, 3, true⟩ M y) = if a = .success then atLine (label .execute 4) M y else returnFrom (.transaction { final := a, cmd := none, data := some a }) { atLine ⟨.execute, 3, true⟩ M y with last := some { final := a, cmd := none, data := some a } } := by
      refine (line_execute_resumed _ _ ff).trans ?_
      show (if M.tout = .success then _ else returnLast { final := M.tout, cmd := none, data := some M.tout } _) = _
      rw [m4]; rfl
    by_cases ha : a = .success
    · subst ha
      rw [if_pos rfl] at lr
      have c2 : 0 < y.cfg.cmdPollMax ∧ 0 < y.cfg.dataPollMax := by rw [fcf]; exact cp1
      obtain ⟨N, n1, n2, n3, n4⟩ := send y M ff fs c2.1
      obtain ⟨es, hh⟩ := sendCommand_spec cmd y c2.1
      have k2 := hh.keeps
      rw [m1, hLc] at n1 n3 n4
      simp only [executeWait]
      have gf : (sendCommand cmd y).2.fault = none := k2.fault.trans ff
      have gs : (sendCommand cmd y).2.stack = [] := k2.stack.trans fs
      have gpc : (sendCommand cmd y).2.pc = Pos.idle := k2.pc.trans fpc
      have gcf : (sendCommand cmd y).2.cfg = y.cfg := k2.cfg
      generalize sendCommand cmd y = q at *
      obtain ⟨c, z⟩ := q
      simp only at *
      have hNd : N.data = some d := by rw [n2, m2, hLd]
      have l5 : line (atLine (label .execute 5) N z) = atLine (label .execute 6) N z := by
        refine (line_execute _ _ _ gf).trans ?_
        show (if N.data.isSome then _ else _) = _
        rw [hNd]; rfl
      have l6 : line (atLine (label .execute 6) N z) = atLine (label .waitAndDrain 1) N (withStack [label .execute 7] z) := by
        refine (line_execute _ _ _ gf).trans ?_
        show atLine (label .waitAndDrain 1) N { z with stack := label .execute 7 :: z.stack } = _
        rw [gs]; rfl
      have hw := reaches_waitAndDrain (withStack [label .execute 7] z) N d hNd gf (by show 0 < z.cfg.dataPollMax; rw [gcf]; exact c2.2)
      rw [waitAndDrain_withStack] at hw
      have r6 := r1.trans (.step lr (n4.trans (.step l5 (.one l6))))
      have wsp := waitAndDrain_spec d z (by rw [gcf]; exact c2.2)
      cases hx : waitAndDrain d z with
      | ok o u =>
        rw [hx] at hw
        obtain ⟨K, k1, k2, k3, k4, k5, k6⟩ := hw
        have kk : KeepsAll z u := by
          rcases wsp with ⟨t, o', es, h1, h2⟩ | ⟨t, es, h1, _⟩
          · rw [hx] at h1; simp at h1; rw [h1.2]; exact h2.keeps
          · rw [hx] at h1; simp at h1
        have us : u.stack = [] := kk.stack.trans gs
        have upc : u.pc = Pos.idle := kk.pc.trans gpc
        have e : returnFrom (.transfer o) (atLine (label .waitAndDrain 12) K (withStack [label .execute 7] u)) = atLine (label .execute 7) K (withStack [] u) := rfl
        have e2 : withStack [] u = u := by show { u with stack := [] } = _; rw [← us]
        rw [e, e2] at k6
        have uf : u.fault = none := kk.fault.trans gf
        have l7 : line (atLine (label .execute 7) K u) = returnFrom (.transaction { final := o, cmd := some c, data := some o }) { atLine (label .execute 7) K u with last := some { final := o, cmd := some c, data := some o } } := by
          refine (line_execute _ _ _ uf).trans ?_
          show returnLast { final := K.tout, cmd := some K.cout, data := some K.tout } _ = _
          rw [k4, k3, n3]; rfl
        refine Ends.of ((r6.trans k6).trans (.one l7)) ?_ ?_
        · simp only [returnFrom, atLine, finishExecute, hostReturn] at *
          rw [us]; simp [upc]
        · intro _
          simp [returnFrom, atLine, us]
      | overrun u =>
        rw [hx] at hw
        obtain ⟨K, k1, k2, k3, k6⟩ := hw
        have kk := wsp
        rcases wsp with ⟨t, o', es, h1, h2⟩ | ⟨t, es, h1, h2⟩
        · rw [hx] at h1; simp at h1
        rw [hx] at h1; simp at h1; subst h1
        have us : u.stack = [] := h2.keeps.stack.trans gs
        have hfault : u.fault ≠ none := by rw [h2.poll.fault]; simp
        refine Ends.of (r6.trans k6) ?_ ?_
        · simp [withStack, us]; rfl
        · intro h; exact absurd h hfault
    · rw [if_neg ha] at lr
      cases a with
      | success => exact absurd rfl ha
      | timeout | commError | unsupported =>
        refine Ends.of (r1.trans (.one lr)) ?_ ?_
        · simp only [returnFrom, atLine, finishExecute, hostReturn] at *
          rw [fs]; simp [fpc]
        · intro _
          simp [returnFrom, atLine, fs]

theorem Ends.stay {u t : State} (e : { u with locals := Locals.clear } = t) (p : t.fault = none → u.pc = Pos.idle) : Ends u t := Ends.of (.refl _) e p

theorem returnFrom_empty (r : CallResult) (y : State) (hs : y.stack = []) : returnFrom r y = { y with pc := Pos.idle, inCall := false, result := some r, locals := Locals.clear } := by
  simp only [returnFrom, hs]

theorem executeBody_locals (cmd data) (u : State) (hl : u.cfg.legal = true) : (executeBody cmd data u).locals = u.locals := by
  have hb := legal_bounds hl
  unfold executeBody
  split
  · rfl
  split
  · rfl
  cases data with
  | none =>
    obtain ⟨es, h⟩ := sendCommand_spec cmd (clearAllStatus u) hb.1
    exact h.keeps.locals
  | some d =>
    have k1 : KeepsAll (clearAllStatus u) (armTransfer d (clearAllStatus u)).2 := by
      cases hdir : d.dir with
      | read => obtain ⟨es, h, _⟩ := armTransfer_spec d (clearAllStatus u) hdir; exact h.keeps
      | write => rw [armTransfer_write d _ hdir]; exact .refl _
    simp only [executeData]
    generalize armTransfer d (clearAllStatus u) = r at *
    obtain ⟨a, y⟩ := r
    have hy : y.locals = u.locals := k1.locals
    have hc : y.cfg = u.cfg := k1.cfg
    cases a with
    | timeout | commError | unsupported => exact hy
    | success =>
      obtain ⟨es, h⟩ := sendCommand_spec cmd y (by rw [hc]; exact hb.1)
      simp only [executeWait]
      have h2 := h.keeps.locals
      have h3 := h.keeps.cfg
      generalize sendCommand cmd y = q at *
      rcases waitAndDrain_spec d q.2 (by rw [h3, hc]; exact hb.2.1) with ⟨t, o', es, h4, h5⟩ | ⟨t, es, h4, h5⟩
      · rw [h4]; exact h5.keeps.locals.trans (h2.trans hy)
      · rw [h4]; exact h5.keeps.locals.trans (h2.trans hy)

/-! ### The start of a call, and what a request does -/

/-- Everything the start of a call can do: a refusal with its mark, the write of a control word, or the first
label of a routine with its operands in place, a host operation with `s.in_call` set and, but for INITIALIZE,
after INITIALIZE. -/
theorem start_cases (i : Instr) (s : State) (hf : s.fault = none) :
    (∃ r, start i s = refuse r s) ∨ (∃ r v, s.Ready ∧ start i s = regWrite r v s) ∨
    ∃ op l, s.Ready ∧ op ≠ .idle ∧ (op.needsInit = true → s.initialized = true) ∧ l.cout = .timeout ∧
      start i s = { s with inCall := op.isHostOp, pc := label op 1, locals := l } := by
  generalize ht : start i s = t
  simp only [start, hf, Option.isSome_none, Bool.false_eq_true, if_false] at ht
  cases hl : s.cfg.legal with
  | false => rw [hl] at ht; exact .inl ⟨_, ht.symm⟩
  | true =>
    have ready (hb : s.busy = false) : s.Ready := by
      have h2 : s.inCall = false ∧ s.pc.op = .idle := by simpa [State.busy] using hb
      exact ⟨hf, hl, h2.1, h2.2⟩
    have host (b : Bool) (op : Routine) (l : Locals) (ho : op ≠ .idle) (hh : op.isHostOp = true)
        (hn : op.needsInit = b) (hc : l.cout = .timeout) :
        (∃ r, hostCall b (begin_ op l) s = refuse r s) ∨ (∃ r v, s.Ready ∧ hostCall b (begin_ op l) s = regWrite r v s) ∨
        ∃ op' l', s.Ready ∧ op' ≠ .idle ∧ (op'.needsInit = true → s.initialized = true) ∧ l'.cout = .timeout ∧
          hostCall b (begin_ op l) s = { s with inCall := op'.isHostOp, pc := label op' 1, locals := l' } := by
      rcases hostCall_cases b (begin_ op l) s with ⟨_, h⟩ | ⟨_, _, _, h⟩ | ⟨hb, hi, h⟩
      · exact .inl ⟨_, h⟩
      · exact .inl ⟨_, h⟩
      · exact .inr (.inr ⟨op, l, ready hb, ho, hn ▸ hi, hc, by rw [h, hh]; rfl⟩)
    have internal (op : Routine) (l : Locals) (ok : Bool) (r : RefuseReason) (ho : op ≠ .idle)
        (hh : op.isHostOp = false) (hc : l.cout = .timeout) (body : State → State)
        (hbody : body s = if ok then begin_ op l s else refuse r s) :
        (∃ r, internalCall body s = refuse r s) ∨ (∃ r v, s.Ready ∧ internalCall body s = regWrite r v s) ∨
        ∃ op' l', s.Ready ∧ op' ≠ .idle ∧ (op'.needsInit = true → s.initialized = true) ∧ l'.cout = .timeout ∧
          internalCall body s = { s with inCall := op'.isHostOp, pc := label op' 1, locals := l' } := by
      rcases internalCall_cases body s with ⟨_, h⟩ | ⟨hb, h⟩
      · exact .inl ⟨_, h⟩
      · rw [h, hbody]
        cases ok with
        | false => exact .inl ⟨_, rfl⟩
        | true =>
          refine .inr (.inr ⟨op, l, ready hb, ho, by simp [Routine.needsInit, hh], hc, ?_⟩)
          rw [hh, ← (ready hb).inCall]; rfl
    have word (r : Reg) (v : Word) :
        (∃ e, controlWord r v s = refuse e s) ∨ (∃ r' v', s.Ready ∧ controlWord r v s = regWrite r' v' s) ∨
        ∃ op' l', s.Ready ∧ op' ≠ .idle ∧ (op'.needsInit = true → s.initialized = true) ∧ l'.cout = .timeout ∧
          controlWord r v s = { s with inCall := op'.isHostOp, pc := label op' 1, locals := l' } := by
      rcases controlWord_cases r v s with ⟨_, h⟩ | ⟨hb, h⟩
      · exact .inl ⟨_, h⟩
      · exact .inr (.inl ⟨r, v, ready hb, h⟩)
    simp only [hl, Bool.not_true, Bool.false_eq_true, if_false] at ht
    subst ht
    cases i with
    | initEngine => exact host false .initEngine Locals.clear (by decide) rfl rfl rfl
    | resetEngine => exact host true .resetEngine Locals.clear (by decide) rfl rfl rfl
    | setClock f => exact host true .setClock { Locals.clear with freq := f } (by decide) rfl rfl rfl
    | execute cmd data =>
      exact host true .execute { Locals.clear with cmd := cmd, data := data }
        (by decide) rfl rfl rfl
    | calcDivider fRef f =>
      exact internal .calcDivider { Locals.clear with fRef := fRef, freq := f } true .badRequest
        (by decide) rfl rfl _ rfl
    | sendCommand cmd =>
      exact internal .sendCommand { Locals.clear with cmd := cmd } cmd.wellFormed
        .illFormedCommand (by decide) rfl rfl _ rfl
    | armTransfer d =>
      exact internal .armTransfer { Locals.clear with data := some d } (d.accepted s.cfg)
        .illFormedData (by decide) rfl rfl _ rfl
    | waitAndDrain d =>
      exact internal .waitAndDrain { Locals.clear with data := some d }
        (d.dir == .read && d.readable s.cfg) .illFormedData (by decide) rfl rfl _ rfl
    | clearAllStatus =>
      exact internal .clearAllStatus Locals.clear true .badRequest
        (by decide) rfl rfl _ rfl
    | controllerReset =>
      exact internal .controllerReset Locals.clear true .badRequest
        (by decide) rfl rfl _ rfl
    | issueStop =>
      exact internal .issueStop Locals.clear true .badRequest
        (by decide) rfl rfl _ rfl
    | cconNoresp index => exact word _ _
    | cconShort index => exact word _ _
    | cconLong index => exact word _ _
    | dconRead wide n => exact word _ _
    | dconStop => exact word _ _

/-- Every next state of a request: that of the instruction it decodes to, or a refusal. -/
theorem onRequest_next {run : Instr → State → Host.Outcome State Fault Refusal} {r : Request} {s t : State}
    (h : onRequest run r s = .next t) :
    (∃ i, decode r = .ok i ∧ run i s = .next t) ∨ ∃ e, t = refuse e s := by
  unfold onRequest at h
  split at h
  · exact .inl ⟨_, ‹_›, h⟩
  · cases r with
    | host w o =>
      rcases enter_next_cases h with ⟨e, he⟩ | ⟨_, _, he⟩
      · exact .inr ⟨e, he⟩
      · exact .inr ⟨_, he⟩
    | internal w o => simp at h
    | control r w => simp at h

/-- Every next state of a request that runs whole. -/
theorem runRequest_next {r : Request} {s t : State} (h : runRequest r s = .next t) :
    (∃ i, decode r = .ok i ∧ exec i s = .next t) ∨ ∃ e, t = refuse e s :=
  onRequest_next (run := exec) h

/-- Every next state of a request that runs line by line. -/
theorem beginRequest_next {r : Request} {s t : State} (h : beginRequest r s = .next t) :
    (∃ i, decode r = .ok i ∧ t = start i s) ∨ ∃ e, t = refuse e s := by
  rcases onRequest_next (run := fun i s => .next (start i s)) h with ⟨i, hd, he⟩ | he
  · exact .inl ⟨i, hd, by simpa using he.symm⟩
  · exact .inr he

end Sys2Proof.Machine
end

