-- ==== Sys2Proof/Tests/Slice0.lean ====
section
/-! SUPPORT. The model's own tests. Expected words, traces and outcomes are from 95_test_vectors.md and the rules
named beside them; V-<id> is a vector of that file. -/

namespace Sys2Proof.Tests

open Sys2Proof Sys2Proof.Machine

/-! ### Helpers -/

/-- The state after INITIALIZE, with the environment's next answers. -/
def ready (reads : List Word) : State := { State.reset with initialized := true, supply := reads }

/-- The same under other poll and retry bounds. -/
def bounded (cmdMax dataMax retryMax : Nat) (reads : List Word) : State :=
  { ready reads with
    cfg := { Config.board with cmdPollMax := cmdMax, dataPollMax := dataMax, armRetryMax := retryMax } }

def nextOf (o : Host.Outcome State Fault Refusal) : Option State :=
  match o with
  | .next t => some t
  | .fault _ => none
  | .refused _ => none

/-- The trace and the result of an instruction at a state with an empty trace. -/
def ran (i : Instr) (s : State) : Option (List Event × Option CallResult) :=
  (nextOf (exec i s)).map fun t => (t.trace, t.result)

def cmd0 : CommandDesc := { index := 0, arg := 0, present := false, long := false, crc := false }
def cmd2 : CommandDesc := { index := 2, arg := 0, present := true, long := true, crc := true }
def cmd8 : CommandDesc := { index := 8, arg := 0x1AA, present := true, long := false, crc := true }
def cmd17 : CommandDesc := { index := 17, arg := 0, present := true, long := false, crc := true }

/-- READ 1 x 16, W1, @0x30000000, CAP 16. -/
def buf16 : DataDesc :=
  { dir := .read, blockCount := 1, blockSize := 16, buf := 0x30000000, bufCapacity := 16, width := 1 }

/-- READ 1 x 512, W1, @0x30000000, CAP 512. -/
def buf512 : DataDesc :=
  { dir := .read, blockCount := 1, blockSize := 512, buf := 0x30000000, bufCapacity := 512, width := 1 }

/-- WRITE 1 x 512, W1. -/
def write512 : DataDesc := { buf512 with dir := .write }

theorem ready_ready (reads : List Word) : (ready reads).Ready :=
  ⟨rfl, by show Config.board.legal = true; decide, rfl, rfl⟩

/-! ### Well-formedness: an ill-formed term for each check -/

theorem test_wf_frequency_range :
    (Instr.setClock (2 ^ 32)).wellFormed Config.board = false ∧
    (Instr.setClock (2 ^ 32 - 1)).wellFormed Config.board = true := by decide

theorem test_wf_reference_frequency_zero : (Instr.calcDivider 0 1).wellFormed Config.board = false := by decide

/-- R80: V-E3 (index 64), an argument of 2^32, and the ill-formed shapes 0b010, 0b100, 0b110 (V-E4). -/
theorem test_wf_command :
    (Instr.sendCommand { cmd0 with index := 64 }).wellFormed Config.board = false ∧
    (Instr.sendCommand { cmd0 with arg := 2 ^ 32 }).wellFormed Config.board = false ∧
    (Instr.sendCommand { cmd0 with long := true }).wellFormed Config.board = false ∧
    (Instr.sendCommand { cmd0 with crc := true }).wellFormed Config.board = false ∧
    (Instr.sendCommand { cmd0 with long := true, crc := true }).wellFormed Config.board = false ∧
    (Instr.sendCommand { cmd2 with index := 63, arg := 2 ^ 32 - 1 }).wellFormed Config.board = true := by decide

/-- R81 (b), one bound at a time: V-E5, V-E6, V-E7, V-E8, V-E15 among them. -/
theorem test_wf_data :
    (Instr.armTransfer { buf512 with blockCount := 0 }).wellFormed Config.board = false ∧
    (Instr.armTransfer { buf512 with blockCount := 4096, blockSize := 4, bufCapacity := 16384 }).wellFormed
      Config.board = false ∧
    (Instr.armTransfer { buf512 with blockSize := 0 }).wellFormed Config.board = false ∧
    (Instr.armTransfer { buf512 with blockSize := 510 }).wellFormed Config.board = false ∧
    (Instr.armTransfer { buf512 with blockSize := 4096, bufCapacity := 4096 }).wellFormed Config.board = false ∧
    (Instr.armTransfer { buf512 with width := 2 }).wellFormed Config.board = false ∧
    (Instr.armTransfer { buf512 with buf := 0x30000002 }).wellFormed Config.board = false ∧
    (Instr.armTransfer { buf512 with bufCapacity := 256 }).wellFormed Config.board = false ∧
    (Instr.armTransfer { buf512 with buf := 2 ^ 32 - 508 }).wellFormed Config.board = false ∧
    (Instr.armTransfer { buf16 with buf := 0x5A000000 }).wellFormed Config.board = false ∧
    (Instr.armTransfer { buf16 with buf := 0x5A000044 }).wellFormed Config.board = true ∧
    (Instr.armTransfer { buf16 with buf := 0x59FFFFF0 }).wellFormed Config.board = true ∧
    (Instr.armTransfer { buf512 with blockCount := 4095, blockSize := 4, bufCapacity := 16380 }).wellFormed
      Config.board = true := by decide

/-- WAIT_AND_DRAIN takes a read descriptor only; ARM_TRANSFER takes a write one as it stands (R81 (a)). -/
theorem test_wf_direction :
    (Instr.waitAndDrain write512).wellFormed Config.board = false ∧
    (Instr.waitAndDrain { buf512 with width := 3 }).wellFormed Config.board = false ∧
    (Instr.armTransfer { write512 with blockCount := 0, width := 7 }).wellFormed Config.board = true := by decide

/-! ### Decoding: words written out from R71, R73, R75, R76 -/

/-- R71: OP in bits [3:0], bits [31:4] zero. -/
theorem test_decode_host_operations :
    decode (.host 0b0000#32 Operands.blank) = .ok .initEngine ∧
    decode (.host 0b0001#32 Operands.blank) = .ok .resetEngine ∧
    decode (.host 0b0010#32 { Operands.blank with f := 400000 }) = .ok (.setClock 400000) ∧
    decode (.host 0b0011#32 { Operands.blank with cmd := cmd17, hasData := true, data := buf512 })
      = .ok (.execute cmd17 (some buf512)) ∧
    decode (.host 0b0011#32 { Operands.blank with cmd := cmd17 }) = .ok (.execute cmd17 none) := by decide

theorem test_decode_internal_operations :
    decode (.internal 0b0100#32 { Operands.blank with fRef := 7, f := 3 }) = .ok (.calcDivider 7 3) ∧
    decode (.internal 0b0101#32 { Operands.blank with cmd := cmd8 }) = .ok (.sendCommand cmd8) ∧
    decode (.internal 0b0110#32 { Operands.blank with data := buf16 }) = .ok (.armTransfer buf16) ∧
    decode (.internal 0b0111#32 { Operands.blank with data := buf16 }) = .ok (.waitAndDrain buf16) ∧
    decode (.internal 0b1000#32 Operands.blank) = .ok .clearAllStatus ∧
    decode (.internal 0b1001#32 Operands.blank) = .ok .controllerReset ∧
    decode (.internal 0b1010#32 Operands.blank) = .ok .issueStop := by decide

/-- R71, R84: V-E11, V-E12, the reserved codes, and a frequency of 2^32. -/
theorem test_decode_refuses :
    decode (.host 0x00000005#32 Operands.blank) = .error .internalOp ∧
    decode (.host 0x00000013#32 Operands.blank) = .error .reservedBits ∧
    decode (.host 0x80000000#32 Operands.blank) = .error .reservedBits ∧
    decode (.host 0x0000000B#32 Operands.blank) = .error .reservedOp ∧
    decode (.host 0x0000000F#32 Operands.blank) = .error .reservedOp ∧
    decode (.internal 0x00000000#32 Operands.blank) = .error .hostOp ∧
    decode (.host 0x00000002#32 { Operands.blank with f := 2 ^ 32 }) = .error .frequencyRange := by decide

/-- R73, bits [31:6] then INDEX: V-C0a, V-C0b, V-C0d, V-C0g; and the form with LONGRSP and no WAITRSP. -/
theorem test_decode_ccon :
    decode (.control .CCON 0b00000000000000000000000101_000000#32) = .ok (.cconNoresp 0#6) ∧
    decode (.control .CCON 0b00000000000000000000001101_001000#32) = .ok (.cconShort 8#6) ∧
    decode (.control .CCON 0b00000000000000000000001101_111111#32) = .ok (.cconShort 63#6) ∧
    decode (.control .CCON 0b00000000000000000000011101_000010#32) = .ok (.cconLong 2#6) ∧
    decode (.control .CCON 0b00000000000000000000010101_000000#32) = .error .notCcon := by decide

/-- R75, R76: V-A0a, V-A0b, V-A0d, the stop value, and a word of neither form. -/
theorem test_decode_dcon :
    decode (.control .DCON 0b00000000100_01_0_1_0_0110_000000000001#32) = .ok (.dconRead false 1#12) ∧
    decode (.control .DCON 0b00000000100_01_0_1_1_0110_000000000001#32) = .ok (.dconRead true 1#12) ∧
    decode (.control .DCON 0b00000000100_01_0_1_0_0110_111111111111#32) = .ok (.dconRead false 4095#12) ∧
    decode (.control .DCON 0x00004000#32) = .ok .dconStop ∧
    decode (.control .DCON 0x00000000#32) = .error .notDcon := by decide

/-- The control words of the vectors V-C0a to V-C0h and V-A0a to V-A0e. -/
theorem test_control_words :
    cmd0.ccon Layout.s3c2440 = 0x140#32 ∧ cmd8.ccon Layout.s3c2440 = 0x348#32 ∧
    cmd17.ccon Layout.s3c2440 = 0x351#32 ∧ cmd2.ccon Layout.s3c2440 = 0x742#32 ∧
    buf512.dcon Layout.s3c2440 = 0x008A6001#32 ∧
    { buf512 with blockCount := 8, width := 4 }.dcon Layout.s3c2440 = 0x008B6008#32 ∧
    { buf512 with blockCount := 4095 }.dcon Layout.s3c2440 = 0x008A6FFF#32 := by decide

/-- Every word of the opcode table's match column decodes to its row's instruction. -/
theorem test_table_words :
    (decodeTableWord 32 0x00000000 = some .initEngine ∧ decodeTableWord 32 0x00000001 = some .resetEngine ∧
     decodeTableWord 32 0x00000002 = some (.setClock 0) ∧ decodeTableWord 32 0x00000008 = some .clearAllStatus ∧
     decodeTableWord 32 0x00000009 = some .controllerReset ∧ decodeTableWord 32 0x0000000A = some .issueStop) ∧
    (decodeTableWord 32 0x00000140 = some (.cconNoresp 0) ∧ decodeTableWord 32 0x00000340 = some (.cconShort 0) ∧
     decodeTableWord 32 0x00000740 = some (.cconLong 0) ∧ decodeTableWord 32 0x008A6000 = some (.dconRead false 0) ∧
     decodeTableWord 32 0x00004000 = some .dconStop ∧ decodeTableWord 32 0x0000000B = none) := by decide

/-! ### Instructions, one step each -/

/-- V-O4. -/
theorem test_initialize :
    ran .initEngine State.reset = some ([.bringUp, .write .IMSK 0#32], some .done) ∧
    (nextOf (exec .initEngine State.reset)).map (·.initialized) = some true := by decide

/-- V-E10, the second call. -/
theorem test_initialize_twice : ran .initEngine (ready []) = some ([], some (.refused .alreadyInitialized)) := by
  decide

/-- V-O5. -/
theorem test_reset :
    ran .resetEngine (ready [0x1#32]) =
      some ([.read .CON 0x1#32, .write .CON 0x101#32, .delay .settleDelay], some .done) := by decide

/-- V-K16: CTYP and BYTEORDER are preserved. -/
theorem test_set_clock :
    ran (.setClock 400000) (ready [0x30#32]) =
      some ([.write .PRE 0x7C#32, .read .CON 0x30#32, .write .CON 0x31#32], some .done) ∧
    (nextOf (exec (.setClock 400000) (ready [0x30#32]))).map (·.clk) =
      some { requested := some 400000, divider := some 124, actual := some 400000, enabled := some true } := by
  decide +kernel

/-- V-K18. -/
theorem test_set_clock_off :
    ran (.setClock 0) (ready [0xFFFFFFFF#32]) =
      some ([.read .CON 0xFFFFFFFF#32, .write .CON 0xFFFFFFFE#32], some .done) ∧
    (nextOf (exec (.setClock 0) (ready [0xFFFFFFFF#32]))).map (·.clk) =
      some { requested := some 0, divider := none, actual := some 0, enabled := some false } := by decide

/-- V-K1, V-K2, V-K4, V-K5, V-K8 to V-K13. -/
theorem test_calc_divider :
    [400000, 399999, 24999999, 16666666, 4294967295, 196078, 195312, 195311, 1].map (calcDivider 50000000)
      = [124, 125, 2, 2, 0, 254, 255, 255, 255] := by decide +kernel

theorem test_calc_divider_result :
    ran (.calcDivider 50000000 25000000) (ready []) = some ([], some (.divider 1)) := by decide +kernel

/-- V-C2. -/
theorem test_send_command_polls :
    ran (.sendCommand cmd0) (ready [0x0#32, 0x100#32, 0x800#32]) =
      some ([ .write .CARG 0#32, .write .CCON 0x140#32, .read .CSTA 0x0#32, .delay .cmdPollDelay,
              .read .CSTA 0x100#32, .delay .cmdPollDelay, .read .CSTA 0x800#32, .write .CSTA 0x1E00#32 ],
            some (.command (.success []))) := by decide

/-- V-C4. -/
theorem test_send_command_long :
    ran (.sendCommand cmd2) (ready [0x200#32, 1#32, 2#32, 3#32, 4#32]) =
      some ([ .write .CARG 0#32, .write .CCON 0x742#32, .read .CSTA 0x200#32, .read .RSP0 1#32, .read .RSP1 2#32,
              .read .RSP2 3#32, .read .RSP3 4#32, .write .CSTA 0x1E00#32 ],
            some (.command (.success [1#32, 2#32, 3#32, 4#32]))) := by decide

/-- V-A3. -/
theorem test_arm_transfer_round :
    ran (.armTransfer buf512) (ready [0x1#32, 0x1#32, 0x0#32]) =
      some ([ .read .DSTA 0x1#32, .write .DCON 0x4000#32, .read .CON 0x1#32, .write .CON 0x101#32,
              .delay .settleDelay, .read .DSTA 0x0#32, .write .DCON 0x008A6001#32, .write .BSIZE 0x200#32,
              .write .DTIMER 0x10000#32 ], some (.transfer .success)) := by decide

/-- V-A4. -/
theorem test_arm_transfer_gives_up :
    ran (.armTransfer buf512) (bounded 4 4 2 [0x2#32, 0x1#32, 0x2#32, 0x1#32, 0x2#32]) =
      some ([ .read .DSTA 0x2#32, .write .DCON 0x4000#32, .read .CON 0x1#32, .write .CON 0x101#32,
              .delay .settleDelay, .read .DSTA 0x2#32, .write .DCON 0x4000#32, .read .CON 0x1#32,
              .write .CON 0x101#32, .delay .settleDelay, .read .DSTA 0x2#32 ],
            some (.transfer .commError)) := by decide

/-- V-D2 with a residue of two words, and the words stand in the buffer little-endian (R53). -/
theorem test_wait_and_drain_final :
    ran (.waitAndDrain buf16) (ready [0x0#32, 0x10#32, 0x8#32, 0x04030201#32, 0x08070605#32]) =
      some ([ .read .FSTA 0x0#32, .read .DSTA 0x10#32, .read .FSTA 0x8#32, .read .DAT 0x04030201#32,
              .store 0 0x04030201#32, .read .DAT 0x08070605#32, .store 1 0x08070605#32,
              .write .FSTA 0xC000#32, .write .DSTA 0x7FC#32 ], some (.transfer .success)) ∧
    (nextOf (exec (.waitAndDrain buf16) (ready [0x0#32, 0x10#32, 0x8#32, 0x04030201#32, 0x08070605#32]))).map
      (·.mem) = some [ (0x30000000, 1#8), (0x30000001, 2#8), (0x30000002, 3#8), (0x30000003, 4#8),
                       (0x30000004, 5#8), (0x30000005, 6#8), (0x30000006, 7#8), (0x30000007, 8#8) ] := by decide

/-- V-D9: the fifth word is read, not stored, and faults. -/
theorem test_wait_and_drain_overrun :
    ran (.waitAndDrain buf16) (ready [0x1014#32, 1#32, 2#32, 3#32, 4#32, 5#32]) =
      some ([ .read .FSTA 0x1014#32, .read .DAT 1#32, .store 0 1#32, .read .DAT 2#32, .store 1 2#32,
              .read .DAT 3#32, .store 2 3#32, .read .DAT 4#32, .store 3 4#32, .read .DAT 5#32 ],
            some (.faulted (.bufferOverrun 4))) := by decide

/-- V-E13: the data outcome is final. -/
theorem test_execute_data_outcome_is_final :
    ran (.execute cmd17 (some buf16)) (bounded 4 4 2 [0x0#32, 0x1200#32, 0x0#32, 0x20#32]) =
      some ([ .write .CSTA 0x1E00#32, .write .DSTA 0x7FC#32, .write .FSTA 0xC000#32, .read .DSTA 0x0#32,
              .write .DCON 0x008A6001#32, .write .BSIZE 0x10#32, .write .DTIMER 0x10000#32, .write .CARG 0#32,
              .write .CCON 0x351#32, .read .CSTA 0x1200#32, .write .CSTA 0x1E00#32, .read .FSTA 0x0#32,
              .read .DSTA 0x20#32, .write .FSTA 0xC000#32, .write .DSTA 0x7FC#32 ],
            some (.transaction { final := .timeout, cmd := some .commError, data := some .timeout })) := by decide

/-- V-E1. -/
theorem test_execute_write_unsupported :
    ran (.execute { cmd17 with index := 24 } (some write512)) (ready []) =
      some ([ .write .CSTA 0x1E00#32, .write .DSTA 0x7FC#32, .write .FSTA 0xC000#32 ],
            some (.transaction { final := .unsupported, cmd := none, data := some .unsupported })) := by decide

/-- V-O1. -/
theorem test_clear_all_status :
    ran .clearAllStatus (ready []) =
      some ([ .write .CSTA 0x1E00#32, .write .DSTA 0x7FC#32, .write .FSTA 0xC000#32 ], some .done) := by decide

/-- V-O2. -/
theorem test_controller_reset :
    ran .controllerReset (ready [0x31#32]) = some ([.read .CON 0x31#32, .write .CON 0x131#32], some .done) := by
  decide

/-- V-O3. -/
theorem test_issue_stop : ran .issueStop (ready []) = some ([.write .DCON 0x4000#32], some .done) := by decide

/-- R73, R75, R76: V-C0a, V-C0g, V-C0h, V-A0c. -/
theorem test_control_word_writes :
    ran (.cconNoresp 0) (ready []) = some ([.write .CCON 0x140#32], none) ∧
    ran (.cconShort 63) (ready []) = some ([.write .CCON 0x37F#32], none) ∧
    ran (.cconLong 9) (ready []) = some ([.write .CCON 0x749#32], none) ∧
    ran (.dconRead true 8) (ready []) = some ([.write .DCON 0x008B6008#32], none) ∧
    ran .dconStop (ready []) = some ([.write .DCON 0x4000#32], none) := by decide

/-- R65: a control word that arrives while an EXECUTE is in progress makes no register access. -/
theorem test_control_word_during_a_call :
    (nextOf (step { ready [] with
        inCall := true, pc := label .execute 2
        arrivals := [.request (.control .CCON 0x140#32)] })).map (fun t => (t.trace, t.refusal, t.pc)) =
      some ([], some .reentrant, label .execute 2) := by decide

/-- V-E9, V-E11, V-E12, and a call during a call (R193). -/
theorem test_refusals :
    ran (.execute cmd0 none) State.reset = some ([], some (.refused .notInitialized)) ∧
    (nextOf (runRequest (.host 0x5#32 Operands.blank) (ready []))).map (·.refusal) = some (some .badRequest) ∧
    (nextOf (runRequest (.host 0x13#32 Operands.blank) (ready []))).map (·.refusal) = some (some .badRequest) ∧
    ran .resetEngine { ready [] with inCall := true } = some ([], some (.refused .reentrant)) := by decide

/-- R22, R190: in the machine's own steps RESET begins at its L1, and L1 calls CONTROLLER_RESET with the return
position on the stack, before any event. -/
theorem test_line_by_line_call :
    let first := (nextOf (step { ready [] with arrivals := [.lineByLine (.host 1#32 Operands.blank)] }))
    first.map (fun t => (t.pc, t.stack, t.inCall)) = some (label .resetEngine 1, [], true) ∧
    (first.bind (nextOf ∘ step)).map (fun t => (t.pc, t.stack, t.trace)) =
      some (label .controllerReset 1, [label .resetEngine 2], []) := by decide

/-- R14: 2^23 - 1 is the greatest DATA_TIMEOUT_VALUE under the default layout (that 2^23 is refused is log 22). -/
theorem test_data_timeout_range :
    { Config.board with dataTimeout := 0x007FFFFF#32 }.legal = true ∧
    { Config.board with dataTimeout := 0x00800000#32 }.legal = false := by decide

/-- R42, R186: after V-C5 the slot is unpopulated, and reading it faults for good. -/
theorem test_read_unpopulated_response :
    (nextOf (step { ready [] with arrivals := [.readResponse 0] })).map (·.fault) =
      some (some .readUnpopulatedResponse) ∧
    step { ready [] with fault := some .readUnpopulatedResponse } = .fault .readUnpopulatedResponse :=
  ⟨by decide, rfl⟩

/-- R53: byte 0 of a word is the lowest address; big-endian is the parameter's other value. -/
theorem test_word_bytes :
    [0, 1, 2, 3].map (wordByte .little 0x0A0B0C0D#32) = [0x0D#8, 0x0C#8, 0x0B#8, 0x0A#8] ∧
    [0, 1, 2, 3].map (wordByte .big 0x0A0B0C0D#32) = [0x0A#8, 0x0B#8, 0x0C#8, 0x0D#8] := by decide

/-- R88, R89: lines of P2 and P3 read from their characters. -/
theorem test_script_lines :
    (scriptLine "EXEC CMD8, 0x1AA, RC        ; P2".toList).bind ScriptLine.instr = some (.execute cmd8 none) ∧
    (scriptLine "READ1 0, @0x30000000, W1".toList).bind ScriptLine.instr = some (.execute cmd17 (some buf512)) ∧
    scriptLine "SETCLK OFF".toList = some .SETCLKOFF ∧ scriptLine "SETCLK 400000".toList = some (.SETCLK 400000) ∧
    scriptLine "EXEC CMD0, 0, XY".toList = none := by decide

/-! ### Witnesses: states and operands that meet the hypotheses of the statements -/

theorem test_witness_DecodeAndEncodeAgree :
    (Instr.sendCommand cmd8).wellFormed Config.board = true ∧
    (Instr.waitAndDrain buf16).wellFormed Config.board = true ∧
    decode (.control .DCON 0x008A6001#32) = .ok (.dconRead false 1#12) := by decide

/-- The least refused code, and the least frequency out of range. -/
theorem test_witness_HostRequestsByOperationCode :
    ({ Operands.blank with f := 2 ^ 32 - 1 }.f < 2 ^ 32) ∧ (ready []).fault = none ∧ (ready []).cfg.legal = true ∧
    4 ≤ (4#32).toNat ∧ 2 ^ 32 ≤ { Operands.blank with f := 2 ^ 32 }.f := by decide

theorem test_witness_TableRowsAreDisjoint :
    0x377#32 &&& (Instr.cconShort 55).tableMask = (Instr.cconShort 55).tableMatch ∧
    0x377#32 &&& (Instr.cconShort 0).tableMask = (Instr.cconShort 0).tableMatch ∧
    (Instr.cconShort 55).ctorIdx = (Instr.cconShort 0).ctorIdx ∧
    (Instr.cconShort 55).ctorIdx ≠ (Instr.cconLong 55).ctorIdx := by decide

theorem test_witness_CconHasThreeForms :
    { cmd0 with index := 63 }.wellFormed = true ∧ cmd0.present = false ∧
    cmd8.wellFormed = true ∧ cmd8.present = true ∧ cmd8.long = false ∧
    cmd2.wellFormed = true ∧ cmd2.present = true ∧ cmd2.long = true := by decide

theorem test_witness_ComposedControlWords :
    { cmd0 with index := 63 }.index ≤ 63 ∧ { buf512 with blockCount := 4095 }.blockCount ≤ 4095 := by decide

theorem test_witness_ShapeCodesAndResponseLengths :
    (cmd2.present = true ∧ cmd2.long = true) ∧ (cmd8.present = true ∧ cmd8.long = false) ∧
    cmd0.present = false := by decide

/-- The last word of the buffer, and of one that ends where the register block begins. -/
theorem test_witness_AcceptedBufferHoldsTheTransfer :
    buf16.dir = .read ∧ buf16.accepted Config.board = true ∧ 4 * 3 + 4 ≤ buf16.bufCapacity ∧
    { buf16 with buf := 0x59FFFFF0 }.accepted Config.board = true := by decide

/-- A frequency that some divider meets, and one that none does: 50 MHz / 256 is 195312. -/
theorem test_witness_DividerIsLeastInRange :
    (0 < 195312 ∧ 0 < 50000000 ∧ (255 ≤ 255 ∧ 50000000 / (255 + 1) ≤ 195312)) ∧
    (0 < 195311 ∧ (∀ d, d ≤ 255 → ¬ 50000000 / (d + 1) ≤ 195311) ∧ 195311 < 50000000 / 256) := by
  refine ⟨by decide, by decide, fun d hd h => ?_, by decide⟩
  have := (Nat.div_le_iff_le_mul_add_pred (by omega : 0 < d + 1)).mp h
  omega

theorem test_witness_ActualFrequencyIsBoundedUnlessClamped :
    50000000 / (195312 + 1) = 255 ∧ 50000000 / (195311 + 1) = 256 := by decide

/-- Ready, initialized, and the least and greatest frequency above 0. -/
theorem test_witness_ReadyAndInitialized :
    (ready []).Ready ∧ (ready []).initialized = true ∧ (0 < 1 ∧ 1 < 2 ^ 32) ∧
    (0 < 2 ^ 32 - 1 ∧ 2 ^ 32 - 1 < 2 ^ 32) ∧ 0 < 50000000 :=
  ⟨ready_ready [], rfl, by decide, by decide, by decide⟩

theorem test_witness_InitializeMasksInterruptsOnce :
    State.reset.Ready ∧ State.reset.initialized = false ∧ (ready []).Ready ∧ (ready []).initialized = true :=
  ⟨⟨rfl, by decide, rfl, rfl⟩, rfl, ready_ready [], rfl⟩

/-- The highest bit of the 32 and a field that ends there. -/
theorem test_witness_FieldPutThenGet :
    (Field.mk 31 1).lo + (Field.mk 31 1).width ≤ 32 ∧ 1 < 2 ^ (Field.mk 31 1).width ∧ 30 < (Field.mk 31 1).lo ∧
    (Field.mk 0 6).lo + (Field.mk 0 6).width ≤ 6 := by decide

/-- The greatest index, block count and divider, in a layout that puts each field at the top of its register. -/
theorem test_fixed_widths :
    let l := { Layout.s3c2440 with
      ccon := { Layout.s3c2440.ccon with indexLo := 26 }
      dcon := { Layout.s3c2440.dcon with blknumLo := 20 }
      preDIVLo := 24 }
    l.ccon.INDEX.put 0#32 63 = 0xFC000000#32 ∧ l.dcon.BLKNUM.put 0#32 4095 = 0xFFF00000#32 ∧
    l.preDIV.put 0#32 255 = 0xFF000000#32 := by decide

/-- The last poll of the budget, with each verdict. -/
theorem test_witness_SendCommandEndsAtTheFirstTerminalStatus :
    (ready [0#32, 0x800#32, 0x100#32, 0x400#32]).Ready ∧ cmd8.wellFormed = true ∧
    3 < (ready []).cfg.cmdPollMax ∧
    (∀ m, m < 3 → cmdVerdict Layout.s3c2440 cmd8
      ((ready [0#32, 0x800#32, 0x100#32, 0x400#32]).drawAt m) = none) ∧
    cmdVerdict Layout.s3c2440 cmd8 ((ready [0#32, 0x800#32, 0x100#32, 0x400#32]).drawAt 3) = some .timeout ∧
    cmdVerdict Layout.s3c2440 cmd8 ((ready [0x1200#32]).drawAt 0) = some .commError ∧
    cmdVerdict Layout.s3c2440 cmd8 ((ready [0xA00#32]).drawAt 0) = some .respond ∧
    cmdVerdict Layout.s3c2440 cmd0 ((ready [0x800#32]).drawAt 0) = some .sent :=
  ⟨ready_ready _, by decide, by decide, by decide, by decide, by decide, by decide, by decide⟩

/-- V-C8. -/
theorem test_witness_SendCommandTimesOutWhenTheBudgetIsSpent :
    (ready [0x800#32, 0x800#32, 0x800#32, 0x800#32]).Ready ∧ cmd17.wellFormed = true ∧
    ∀ m, m < (ready []).cfg.cmdPollMax → cmdVerdict Layout.s3c2440 cmd17
      ((ready [0x800#32, 0x800#32, 0x800#32, 0x800#32]).drawAt m) = none :=
  ⟨ready_ready _, by decide, by
    show ∀ m, m < 4 → _
    decide⟩

/-- A populated slot read at its last word and one past it, and an unpopulated one. -/
theorem test_witness_ReadingAnUnpopulatedResponseFaults :
    { ready [] with resp := some [7#32], arrivals := [.readResponse 0] }.fault = none ∧
    ([7#32] : List Word)[0]? = some 7#32 ∧ ([7#32] : List Word).length ≤ 1 ∧ (ready []).resp = none := by decide

theorem test_witness_ArmTransferRejectsWrites : (ready []).Ready ∧ write512.dir = .write :=
  ⟨ready_ready [], rfl⟩

/-- No round, and as many rounds as ARM_RETRY_MAX allows. -/
theorem test_witness_ArmTransferProgramsAfterTheRounds :
    (ready []).Ready ∧ buf512.dir = .read ∧ buf512.accepted Config.board = true ∧
    transferBusy Layout.s3c2440 ((ready [0x7F0#32]).drawAt 0) = false ∧
    (3 ≤ (ready []).cfg.armRetryMax ∧
      (∀ m, m < 3 → transferBusy Layout.s3c2440
        ((ready [1#32, 0#32, 2#32, 0#32, 3#32, 0#32, 0#32]).drawAt (2 * m)) = true) ∧
      transferBusy Layout.s3c2440 ((ready [1#32, 0#32, 2#32, 0#32, 3#32, 0#32, 0#32]).drawAt (2 * 3)) = false) :=
  ⟨ready_ready [], by decide, by decide, by decide, by decide⟩

/-- P5. -/
theorem test_witness_ArmTransferGivesUpOnAStuckTransfer :
    (ready [1#32, 1#32, 1#32, 1#32, 1#32, 1#32, 1#32]).Ready ∧ buf512.accepted Config.board = true ∧
    ∀ m, m ≤ 3 → transferBusy Layout.s3c2440
      ((ready [1#32, 1#32, 1#32, 1#32, 1#32, 1#32, 1#32]).drawAt (2 * m)) = true :=
  ⟨ready_ready _, by decide, by decide⟩

/-- V-D8, iteration 0 without and iteration 1 with a burst, and the residue of buf16's last words; V-D4; V-D6; and
V-D5 at its budget. -/
theorem test_witness_WaitAndDrainReadsABurstAndTheResidue :
    let s := ready [0x10#32, 0#32, 0x1008#32, 1#32, 2#32, 0x10#32, 0x8#32, 3#32, 4#32]
    s.Ready ∧ buf16.dir = .read ∧ buf16.accepted Config.board = true ∧ 1 < s.cfg.dataPollMax ∧
    dataVerdict Layout.s3c2440 (dataStatus s 0) = none ∧
    dataVerdict Layout.s3c2440 (dataStatus s 1) = some .finished ∧
    drainedWords s 2 = [1#32, 2#32] ∧ iterationAt s 2 = 6 ∧ fifoWords Layout.s3c2440 (s.drawAt 6) = 2 ∧
    4 * (2 + 2) ≤ buf16.bufCapacity ∧
    (List.range 2).flatMap (iterationEvents s) =
      [ .read .FSTA 0x10#32, .read .DSTA 0#32, .read .FSTA 0x1008#32, .read .DAT 1#32, .store 0 1#32,
        .read .DAT 2#32, .store 1 2#32, .delay .drainPause, .read .DSTA 0x10#32 ] ∧
    dataVerdict Layout.s3c2440 (dataStatus (ready [0#32, 0x50#32]) 0) = some .commError ∧
    dataVerdict Layout.s3c2440 (dataStatus (ready [0#32, 0x30#32]) 0) = some .timeout ∧
    (let b := bounded 4 2 3 [0#32, 0#32, 0#32, 0#32]
     b.Ready ∧ dataVerdict Layout.s3c2440 (dataStatus b 0) = none ∧
      dataVerdict Layout.s3c2440 (dataStatus b 1) = none ∧ 1 + 1 = b.cfg.dataPollMax) :=
  ⟨ready_ready _, by decide, by decide, by decide, by decide, by decide, by decide, by decide, by decide, by decide,
    by decide, by decide, by decide, ⟨rfl, by decide, rfl, rfl⟩, by decide, by decide, rfl⟩

/-- Each verdict of the last status: V-D4, V-D5, V-D6, V-D2. -/
theorem test_witness_WaitAndDrainIsDecidedByTheLastStatus :
    (ready [0#32, 0x50#32]).Ready ∧ buf16.dir = .read ∧ buf16.accepted Config.board = true ∧
    ran (.waitAndDrain buf16) (ready [0#32, 0x50#32]) =
      some ([.read .FSTA 0#32, .read .DSTA 0x50#32, .write .FSTA 0xC000#32, .write .DSTA 0x7FC#32],
        some (.transfer .commError)) ∧
    dataVerdict Layout.s3c2440 0x50#32 = some .commError ∧ dataVerdict Layout.s3c2440 0x30#32 = some .timeout ∧
    dataVerdict Layout.s3c2440 0x10#32 = some .finished ∧ dataVerdict Layout.s3c2440 0#32 = none :=
  ⟨ready_ready _, by decide, by decide, by decide, by decide, by decide, by decide, by decide⟩

/-- Word 0 is stored, the byte before the buffer and the one after the words are not. -/
theorem test_witness_WaitAndDrainStoresTheWordsInOrder :
    (nextOf (exec (.waitAndDrain buf16) (ready [0x1004#32, 9#32, 0x10#32, 0#32]))).map (fun t =>
      (t.w, t.mem.read 0x30000000, t.mem.read 0x2FFFFFFF, t.mem.read 0x30000004)) =
      some (1, some 9#8, none, none) ∧ 0 < 1 ∧ 3 < 4 := by decide

/-- V-D9, and the same five words in the second iteration and, two of them before it, in the final drain. -/
theorem test_witness_WaitAndDrainFaultsPastTheCapacity :
    (let s := ready [0x1014#32, 1#32, 2#32, 3#32, 4#32, 5#32]
     s.Ready ∧ fifoHasData Layout.s3c2440 (s.drawAt 0) = true ∧ iterationAt s 0 = 0 ∧
      buf16.bufCapacity / 4 = (drainedWords s 0).length + 4 ∧ 4 < fifoWords Layout.s3c2440 (s.drawAt 0)) ∧
    (let s := ready [0x1008#32, 1#32, 2#32, 0#32, 0x100C#32, 3#32, 4#32, 5#32]
     s.Ready ∧ dataVerdict Layout.s3c2440 (dataStatus s 0) = none ∧ iterationAt s 1 = 4 ∧
      fifoHasData Layout.s3c2440 (s.drawAt 4) = true ∧
      buf16.bufCapacity / 4 = (drainedWords s 1).length + 2 ∧ 2 < fifoWords Layout.s3c2440 (s.drawAt 4)) ∧
    (let s := ready [0x1008#32, 1#32, 2#32, 0x10#32, 0x0C#32, 3#32, 4#32, 5#32]
     s.Ready ∧ dataVerdict Layout.s3c2440 (dataStatus s 0) = some .finished ∧ iterationAt s 1 = 4 ∧
      buf16.bufCapacity / 4 = (drainedWords s 1).length + 2 ∧ 2 < fifoWords Layout.s3c2440 (s.drawAt 4)) :=
  ⟨⟨ready_ready _, by decide, by decide, by decide, by decide⟩,
    ⟨ready_ready _, by decide, by decide, by decide, by decide, by decide⟩,
    ⟨ready_ready _, by decide, by decide, by decide, by decide⟩⟩

theorem test_witness_OverrunLeavesNoExitClear :
    (nextOf (exec (.waitAndDrain buf16) (ready [0x1014#32, 1#32, 2#32, 3#32, 4#32, 5#32]))).map (·.fault) =
      some (some (.bufferOverrun 4)) := by decide

/-- A quiet data path and a full run; a stuck one; and a run that faults in the last stage. -/
theorem test_witness_ExecuteRunsItsStagesInOrder :
    (nextOf (exec (.execute cmd17 (some buf16)) (ready [0#32, 0x400#32, 0#32, 0x10#32, 0#32]))).map
      (fun t => (t.fault, t.last)) =
      some (none, some { final := .success, cmd := some .timeout, data := some .success }) ∧
    (nextOf (exec (.execute cmd17 (some buf16)) (ready [1#32, 1#32, 1#32, 1#32, 1#32, 1#32, 1#32]))).map
      (fun t => (t.fault, t.last)) =
      some (none, some { final := .commError, cmd := none, data := some .commError }) ∧
    (nextOf (exec (.execute cmd17 (some buf16))
      (ready [0#32, 0x400#32, 0x1014#32, 1#32, 2#32, 3#32, 4#32, 5#32]))).map (fun t => (t.fault, t.stack)) =
      some (some (.bufferOverrun 4), [{ op := .execute, line := 7, resumed := false }]) := by decide

/-- The four stages of a run whose drain is past the capacity. -/
theorem test_witness_ExecuteEndsWhereTheDrainFaults :
    ∃ s1 s2 s3 s4,
      exec .clearAllStatus (ready [0#32, 0x400#32, 0x1014#32, 1#32, 2#32, 3#32, 4#32, 5#32]) = .next s1 ∧
      exec (.armTransfer buf16) s1 = .next s2 ∧ s2.result = some (.transfer .success) ∧
      exec (.sendCommand cmd17) s2 = .next s3 ∧ exec (.waitAndDrain buf16) s3 = .next s4 ∧
      s4.fault = some (.bufferOverrun 4) :=
  ⟨_, _, _, _, rfl, rfl, rfl, rfl, rfl, rfl⟩

theorem test_witness_UnsupportedOnlyForWrites :
    (nextOf (exec (.execute cmd17 (some write512)) (ready []))).bind (·.result) =
      some (.transaction { final := .unsupported, cmd := none, data := some .unsupported }) := by decide

/-- R188 (a): the command descriptor first. -/
theorem test_witness_RefusesIllFormedDescriptors :
    (ready []).Ready ∧ (ready []).initialized = true ∧ { cmd0 with index := 64 }.wellFormed = false ∧
    cmd0.wellFormed = true ∧ { buf512 with bufCapacity := 508 }.accepted Config.board = false ∧
    write512.dir = .write ∧
    ran (.execute { cmd0 with index := 64 } (some { buf512 with width := 2 })) (ready []) =
      some ([], some (.refused .illFormedCommand)) :=
  ⟨ready_ready [], by decide, by decide, by decide, by decide, by decide, by decide⟩

theorem test_witness_CallsOutOfTurnAreRefused :
    ({ ready [] with inCall := true }.fault = none ∧ { ready [] with inCall := true }.cfg.legal = true) ∧
    (start .issueStop (ready [])).inCall = false ∧ (start .issueStop (ready [])).pc.op ≠ .idle ∧
    (State.reset.Ready ∧ State.reset.initialized = false) ∧
    ({ Config.board with regBase := 0x5A000002#32 }.regBase.toNat % 4 ≠ 0 ∧
      { Config.board with fRef := 0 }.fRef = 0 ∧ { Config.board with cmdPollMax := 0 }.cmdPollMax = 0 ∧
      { Config.board with dataPollMax := 0 }.dataPollMax = 0 ∧
      { Config.board with armRetryMax := 0 }.armRetryMax = 0 ∧
      2 ^ Config.board.layout.dtimerVALUE.width ≤ { Config.board with dataTimeout := 0x00800000#32 }.dataTimeout.toNat ∧
      (Config.board.layout = Layout.s3c2440 ∧
        2 ^ 23 ≤ { Config.board with dataTimeout := 0x00800000#32 }.dataTimeout.toNat)) :=
  ⟨by decide, by decide, by decide, ⟨⟨rfl, by decide, rfl, rfl⟩, rfl⟩, by decide⟩

theorem test_witness_ControlWords :
    (ready []).Ready ∧ (ready []).cfg.layout = Layout.s3c2440 ∧ (ready []).cfg.dconStopValue = 0x00004000#32 ∧
    { cmd0 with index := 63 }.index ≤ 63 ∧ { buf512 with blockCount := 4095 }.blockCount ≤ 4095 :=
  ⟨ready_ready [], rfl, rfl, by decide, by decide⟩

theorem test_witness_StepRunsTheDecodedInstruction :
    (State.reset.withFetchWord 32 0).fault = none ∧
    (State.reset.withFetchWord 32 0).arrivals = .request (.host 0#32 Operands.blank) :: [] ∧
    decode (.host 0#32 Operands.blank) = .ok .initEngine ∧
    { State.reset with arrivals := [.lineByLine (.host 0#32 Operands.blank)] }.arrivals =
      .lineByLine (.host 0#32 Operands.blank) :: [] ∧
    decode (.host 0xB#32 Operands.blank) = .error .reservedOp ∧
    decode (.control .CCON 0x100#32) = .error .notCcon ∧ State.reset.cfg.legal = true ∧
    { Config.board with fRef := 0 }.legal = false := by decide

/-- An idle engine, and one with a call in progress. -/
theorem test_witness_IdleEngineWaits :
    State.reset.fault = none ∧ State.reset.arrivals = [] ∧ State.reset.pc = Pos.idle ∧
    (start .clearAllStatus State.reset).fault = none ∧ (start .clearAllStatus State.reset).arrivals = [] ∧
    (start .clearAllStatus State.reset).pc = label .clearAllStatus 1 := by decide

theorem test_witness_RecordedFaultStopsTheEngine :
    { ready [] with fault := some (.bufferOverrun 4) }.fault = some (.bufferOverrun 4) := by decide

theorem inv_reset : State.reset.Inv :=
  ⟨rfl, rfl, rfl, rfl, by decide, rfl, rfl, by decide, fun _ => ⟨rfl, rfl⟩, rfl, by decide⟩

/-- Two return positions on the stack: CONTROLLER_RESET within ARM_TRANSFER within EXECUTE. -/
def nested : State :=
  { ready [] with
    pc := label .controllerReset 1, inCall := true
    stack := [label .armTransfer 8, { op := .execute, line := 3, resumed := true }] }

theorem inv_nested : nested.Inv :=
  ⟨rfl, rfl, rfl, rfl, by decide, by decide, by decide, by decide, (fun h => by cases h), rfl, by decide⟩

/-- From an invariant state a step answers a next state: the idle engine, a call, and a line of a call. -/
theorem test_witness_StepKeepsTheRecordsConsistent :
    (State.reset.Inv ∧ ∃ t, step State.reset = .next t) ∧
    (nested.Inv ∧ nested.stack.length + 1 = 3 ∧ ∃ t, step nested = .next t) ∧
    ∃ t, step (State.reset.withFetchWord 32 0) = .next t :=
  ⟨⟨inv_reset, _, rfl⟩, ⟨inv_nested, rfl, _, rfl⟩, _, rfl⟩

theorem test_witness_SequencerRunsWholeCalls : State.reset.fault = none ∧ State.reset.Idle :=
  ⟨rfl, rfl, rfl, rfl, rfl⟩

theorem test_witness_StepTakesNothingBack :
    (∃ t, step { ready [] with refusal := some .badRequest } = .next t) ∧
    { ready [] with refusal := some .badRequest }.initialized = true ∧
    { ready [] with refusal := some .badRequest }.refusal = some .badRequest :=
  ⟨⟨_, rfl⟩, rfl, rfl⟩

/-- A call with reads, stores, writes and delays: the hypothesis of the statements about every instruction. -/
theorem test_witness_EveryInstruction :
    (∃ t, exec (.execute cmd17 (some buf16)) (ready [0#32, 0x400#32, 0x1004#32, 9#32, 0x10#32, 0#32]) = .next t) ∧
    (ready []).cfg.layout = Layout.s3c2440 ∧ (ready []).cfg.legal = true ∧
    bufferOf (.execute cmd17 (some buf16)) = some buf16 ∧
    (0x2FFFFFFF < buf16.buf ∧ buf16.buf + buf16.bufCapacity ≤ 0x30000010) ∧
    (0 < (readValues [Event.read .CSTA 0#32]).length) :=
  ⟨⟨_, rfl⟩, rfl, by decide, rfl, by decide, by decide⟩

/-- Both stages with a bound of their own; a data poll of one iteration reads FSTA twice and DSTA once. -/
theorem test_witness_LoopsAreBounded :
    (∃ t, exec (.armTransfer buf16) (ready [0#32]) = .next t) ∧
    (∃ t, exec (.waitAndDrain buf16) (ready [0x1004#32, 9#32, 0x10#32, 0#32]) = .next t ∧
      (readsOf .FSTA t.trace).length = 2 ∧ (readsOf .DSTA t.trace).length = 1 ∧
      (readsOf .DAT t.trace).length = 1) :=
  ⟨⟨_, rfl⟩, _, rfl, by decide, by decide, by decide⟩

/-- V-O6. -/
theorem test_witness_ClearingTwiceChangesNoResult :
    ∃ s1 s2 t1 t2, exec .clearAllStatus (ready [0x800#32]) = .next s1 ∧ exec .clearAllStatus s1 = .next s2 ∧
      exec (.sendCommand cmd0) s1 = .next t1 ∧ exec (.sendCommand cmd0) s2 = .next t2 ∧
      t1.result = some (.command (.success [])) ∧ t2.result = some (.command (.success [])) :=
  ⟨_, _, _, _, rfl, rfl, rfl, rfl, rfl, rfl⟩

end Sys2Proof.Tests
end

section
/-! The power-on state, record by record (10_state.md R51): the equations of `State.powerOn` that
Laws/State does not give, and the statement that gathers them. -/

namespace Sys2Proof.Machine

@[simp] theorem powerOn_initialized (c : Config) : (State.powerOn c).initialized = false := rfl
@[simp] theorem powerOn_inCall (c : Config) : (State.powerOn c).inCall = false := rfl
@[simp] theorem powerOn_pc (c : Config) : (State.powerOn c).pc = Pos.idle := rfl
@[simp] theorem powerOn_stack (c : Config) : (State.powerOn c).stack = [] := rfl
@[simp] theorem powerOn_clk (c : Config) : (State.powerOn c).clk =
    { requested := none, divider := none, actual := none, enabled := none } := rfl
@[simp] theorem powerOn_resp (c : Config) : (State.powerOn c).resp = none := rfl
@[simp] theorem powerOn_last (c : Config) : (State.powerOn c).last = none := rfl
@[simp] theorem powerOn_i (c : Config) : (State.powerOn c).i = 0 := rfl
@[simp] theorem powerOn_k (c : Config) : (State.powerOn c).k = 0 := rfl
@[simp] theorem powerOn_w (c : Config) : (State.powerOn c).w = 0 := rfl
@[simp] theorem powerOn_refusal (c : Config) : (State.powerOn c).refusal = none := rfl

/-- Settles O45: R51's list is the power-on equations, one per record, whatever the parameters. -/
theorem powerOnRecords : Obligations.PowerOnRecords := fun c =>
  ⟨powerOn_pc c, powerOn_stack c, powerOn_initialized c, powerOn_inCall c, powerOn_clk c,
    powerOn_resp c, powerOn_last c, powerOn_i c, powerOn_k c, powerOn_w c,
    powerOn_fault c, powerOn_refusal c, powerOn_cfg c⟩

end Sys2Proof.Machine
end

section
/-! What a field (00_scope.md R16) does to a word that also carries a number in the bits below the field: under
the default layout the operand of a control word is in the lowest bits, and the puts of the other fields pass
it by. -/

namespace Sys2Proof

theorem Field.getLsbD_mask (f : Field) (i : Nat) :
    f.mask.getLsbD i = (decide (i < 32) && (decide (f.lo ≤ i) && decide (i - f.lo < f.width))) := by
  rw [Field.mask, BitVec.getLsbD_ofNat, Nat.testBit_mul_two_pow, Nat.testBit_two_pow_sub_one]

theorem ofNat_and_eq_zero_of_lt {n k : Nat} {m : Word} (hn : n < 2 ^ k) (hm : ∀ i < k, m.getLsbD i = false) :
    BitVec.ofNat 32 n &&& m = 0#32 := by
  refine BitVec.eq_of_getLsbD_eq fun i hi => ?_
  rw [BitVec.getLsbD_and, BitVec.getLsbD_ofNat, BitVec.getLsbD_zero]
  by_cases h : i < k
  · rw [hm i h, Bool.and_false]
  · have hle : 2 ^ k ≤ 2 ^ i := Nat.pow_le_pow_right (by omega) (by omega)
    rw [Nat.testBit_lt_two_pow (Nat.lt_of_lt_of_le hn hle), Bool.and_false, Bool.false_and]

theorem Field.ofNat_and_mask_of_lt {f : Field} {n k : Nat} (hn : n < 2 ^ k) (hf : k ≤ f.lo) :
    BitVec.ofNat 32 n &&& f.mask = 0#32 :=
  ofNat_and_eq_zero_of_lt hn fun i hi => by
    rw [f.getLsbD_mask, decide_eq_false (by omega : ¬ f.lo ≤ i), Bool.false_and, Bool.and_false]

/-- A put leaves a number below its field as it is. -/
theorem Field.put_ofNat_or {f : Field} {n k : Nat} (hn : n < 2 ^ k) (hf : k ≤ f.lo) (v : Word) (x : Nat) :
    f.put (BitVec.ofNat 32 n ||| v) x = BitVec.ofNat 32 n ||| f.put v x := by
  have hkeep : BitVec.ofNat 32 n &&& ~~~f.mask = BitVec.ofNat 32 n := by
    calc BitVec.ofNat 32 n &&& ~~~f.mask
        = (BitVec.ofNat 32 n &&& f.mask) ||| (BitVec.ofNat 32 n &&& ~~~f.mask) := by
          rw [ofNat_and_mask_of_lt hn hf, BitVec.zero_or]
      _ = BitVec.ofNat 32 n := by
          rw [← BitVec.and_or_distrib_left, BitVec.or_not_self, BitVec.and_allOnes]
  rw [Field.put, Field.put, BitVec.and_or_distrib_right, hkeep, BitVec.or_assoc]

/-- A get does not see a number below its field. -/
theorem Field.get_ofNat_or {f : Field} {n k : Nat} (hn : n < 2 ^ k) (hf : k ≤ f.lo) (v : Word) :
    f.get (BitVec.ofNat 32 n ||| v) = f.get v := by
  have hle : 2 ^ k ≤ 2 ^ f.lo := Nat.pow_le_pow_right (by omega) hf
  have hdiv : n % 2 ^ 32 / 2 ^ f.lo = 0 := Nat.div_eq_of_lt (by omega)
  rw [Field.get, Field.get, BitVec.toNat_or, BitVec.toNat_ofNat, Nat.or_div_two_pow, hdiv, Nat.zero_or]

/-- A field at bit 0 put into the zero word is its value. -/
theorem Field.put_zero_of_lo_eq_zero {f : Field} (hf : f.lo = 0) {x : Nat} (hx : x < 2 ^ f.width) :
    f.put 0#32 x = BitVec.ofNat 32 x := by
  have hin : BitVec.ofNat 32 x &&& ~~~f.mask = 0#32 := ofNat_and_eq_zero_of_lt hx fun i hi => by
    rw [BitVec.getLsbD_not, f.getLsbD_mask, hf, Nat.sub_zero, decide_eq_true hi, decide_eq_true i.zero_le]
    cases decide (i < 32) <;> rfl
  calc f.put 0#32 x
      = (BitVec.ofNat 32 x &&& f.mask) ||| (BitVec.ofNat 32 x &&& ~~~f.mask) := by
        rw [Field.put, hf, Nat.pow_zero, Nat.mul_one, BitVec.zero_and, BitVec.zero_or, hin, BitVec.or_zero]
    _ = BitVec.ofNat 32 x := by
        rw [← BitVec.and_or_distrib_left, BitVec.or_not_self, BitVec.and_allOnes]

theorem Field.put_zero_eq_ofNat_or {f : Field} (hf : f.lo = 0) {x : Nat} (hx : x < 2 ^ f.width) :
    f.put 0#32 x = BitVec.ofNat 32 x ||| f.put 0#32 0 := by
  rw [put_zero_of_lo_eq_zero hf hx, put_zero_of_lo_eq_zero hf (Nat.two_pow_pos _), BitVec.or_zero]

end Sys2Proof
end

section
/-! The control words under the default layout (30_encoding.md R72, R73, R75): each is its operand beside the
word of operand 0, of which there is one per shape or width. -/

namespace Sys2Proof

/-! ### CCON -/

theorem cconWord_default {index : Nat} (hi : index ≤ 63) (present long : Bool) :
    cconWord Layout.s3c2440 index present long =
      BitVec.ofNat 32 index ||| cconWord Layout.s3c2440 0 present long := by
  have hlt : index < 2 ^ 6 := by omega
  simp only [cconWord]
  rw [Field.put_zero_eq_ofNat_or rfl hlt, Field.put_ofNat_or hlt (by decide), Field.put_ofNat_or hlt (by decide),
    Field.put_ofNat_or hlt (by decide), Field.put_ofNat_or hlt (by decide)]
  cases present <;> cases long <;> rfl

theorem cconWord_zero (present long : Bool) :
    cconWord Layout.s3c2440 0 present long =
      0x140#32 ||| (if present then 0x200#32 else 0#32) ||| (if present && long then 0x400#32 else 0#32) := by
  revert present long; decide

theorem cconWord_default_getLsbD {index : Nat} (hi : index ≤ 63) (present long : Bool) {b : Nat}
    (hb : 11 ≤ b ∨ b = 7) : (cconWord Layout.s3c2440 index present long).getLsbD b = false := by
  have hfixed : ∀ p l, ∀ b < 32, (11 ≤ b ∨ b = 7) → (cconWord Layout.s3c2440 0 p l).getLsbD b = false := by
    decide
  by_cases h32 : b < 32
  · have hle : 2 ^ 6 ≤ 2 ^ b := Nat.pow_le_pow_right (by omega) (by omega)
    rw [cconWord_default hi, BitVec.getLsbD_or, hfixed present long b h32 hb, BitVec.getLsbD_ofNat,
      Nat.testBit_lt_two_pow (by omega), Bool.and_false, Bool.or_false]
  · exact BitVec.getLsbD_of_ge _ _ (by omega)

/-- The bits that tell the three forms apart do not depend on the index. -/
theorem cconWord_default_and_mask {index : Nat} (hi : index ≤ 63) (present long : Bool) :
    cconWord Layout.s3c2440 index present long &&& 0xFFFFFFC0#32 =
      if present then (if long then 0x740#32 else 0x340#32) else 0x140#32 := by
  have hindex : BitVec.ofNat 32 index &&& 0xFFFFFFC0#32 = 0#32 :=
    ofNat_and_eq_zero_of_lt (k := 6) (by omega) (by decide)
  rw [cconWord_default hi, BitVec.and_or_distrib_right, hindex, BitVec.zero_or]
  revert present long; decide

theorem cconWord_default_index {index : Nat} (hi : index ≤ 63) (present long : Bool) :
    (cconWord Layout.s3c2440 index present long).extractLsb' 0 6 = BitVec.ofNat 6 index := by
  have hfixed : ∀ p l, (cconWord Layout.s3c2440 0 p l).extractLsb' 0 6 = 0#6 := by decide
  have hindex : (BitVec.ofNat 32 index).extractLsb' 0 6 = BitVec.ofNat 6 index := by
    rw [← BitVec.setWidth_eq_extractLsb' (by decide), BitVec.setWidth_ofNat_of_le (by decide)]
  rw [cconWord_default hi, BitVec.extractLsb'_or, hfixed, BitVec.or_zero, hindex]

/-- The decoder reads the form from the shape and the index from the index. -/
theorem decodeCcon_cconWord_default {index : Nat} (hi : index ≤ 63) (present long : Bool) :
    decodeCcon (cconWord Layout.s3c2440 index present long) = .ok
      (if present then (if long then .cconLong (BitVec.ofNat 6 index) else .cconShort (BitVec.ofNat 6 index))
       else .cconNoresp (BitVec.ofNat 6 index)) := by
  rw [decodeCcon, cconWord_default_and_mask hi, cconWord_default_index hi]
  cases present <;> cases long <;> rfl

theorem cconWord_default_longrsp_imp_waitrsp {index : Nat} (hi : index ≤ 63) (present long : Bool) :
    ¬ (Layout.s3c2440.ccon.WAITRSP.get (cconWord Layout.s3c2440 index present long) = 0 ∧
       Layout.s3c2440.ccon.LONGRSP.get (cconWord Layout.s3c2440 index present long) = 1) := by
  have hlt : index < 2 ^ 6 := by omega
  rw [cconWord_default hi, Field.get_ofNat_or hlt (by decide), Field.get_ofNat_or hlt (by decide)]
  revert present long; decide

theorem CommandDesc.wellFormed_iff (d : CommandDesc) : d.wellFormed = true ↔
    d.index ≤ 63 ∧ d.arg < 2 ^ 32 ∧ (d.long = true → d.present = true) ∧ (d.crc = true → d.present = true) := by
  simp [CommandDesc.wellFormed, imp_iff_not_or, and_assoc]

/-- Settles O5: the composition is R72's own; the index stands beside the fixed word of its shape. -/
theorem cconIsComposedOfItsFields : Obligations.CconIsComposedOfItsFields := by
  refine ⟨fun l d => rfl, fun d hi => ⟨?_, fun b hb => cconWord_default_getLsbD hi _ _ hb⟩⟩
  rw [CommandDesc.ccon, cconWord_default hi, cconWord_zero]
  simp only [BitVec.or_assoc]

/-- Settles O6: the form is a function of the shape, and the index is below the bits that tell the forms apart. -/
theorem cconHasThreeForms : Obligations.CconHasThreeForms := by
  intro d hd
  obtain ⟨hi, -, -, -⟩ := d.wellFormed_iff.mp hd
  have hform (p l : Bool) (hp : d.present = p) (hl : d.long = l) :
      d.ccon Layout.s3c2440 &&& 0xFFFFFFC0#32 = (if p then (if l then 0x740#32 else 0x340#32) else 0x140#32) ∧
      decodeCcon (d.ccon Layout.s3c2440) = .ok (if p then (if l then .cconLong (BitVec.ofNat 6 d.index)
        else .cconShort (BitVec.ofNat 6 d.index)) else .cconNoresp (BitVec.ofNat 6 d.index)) := by
    subst hp hl
    exact ⟨cconWord_default_and_mask hi _ _, decodeCcon_cconWord_default hi _ _⟩
  exact ⟨fun hp => hform false d.long hp rfl, hform true false, hform true true,
    cconWord_default_longrsp_imp_waitrsp hi _ _⟩

/-! ### DCON -/

theorem dconReadWord_default {blockCount : Nat} (hn : blockCount ≤ 4095) (wide : Bool) :
    dconReadWord Layout.s3c2440 blockCount wide =
      BitVec.ofNat 32 blockCount ||| dconReadWord Layout.s3c2440 0 wide := by
  have hlt : blockCount < 2 ^ 12 := by omega
  simp only [dconReadWord]
  rw [Field.put_zero_eq_ofNat_or rfl hlt, Field.put_ofNat_or hlt (by decide), Field.put_ofNat_or hlt (by decide),
    Field.put_ofNat_or hlt (by decide), Field.put_ofNat_or hlt (by decide), Field.put_ofNat_or hlt (by decide),
    Field.put_ofNat_or hlt (by decide)]

theorem dconReadWord_zero (wide : Bool) :
    dconReadWord Layout.s3c2440 0 wide = 0x008A6000#32 ||| (if wide then 0x00010000#32 else 0#32) := by
  revert wide; decide

theorem dconReadWord_default_and_mask {blockCount : Nat} (hn : blockCount ≤ 4095) (wide : Bool) :
    dconReadWord Layout.s3c2440 blockCount wide &&& 0xFFFEF000#32 = 0x008A6000#32 := by
  have hblknum : BitVec.ofNat 32 blockCount &&& 0xFFFEF000#32 = 0#32 :=
    ofNat_and_eq_zero_of_lt (k := 12) (by omega) (by decide)
  rw [dconReadWord_default hn, BitVec.and_or_distrib_right, hblknum, BitVec.zero_or]
  revert wide; decide

/-- Settles O7: the composition is R75's own; the block count stands beside the fixed word of the bus width. -/
theorem dconIsComposedOfItsFields : Obligations.DconIsComposedOfItsFields := by
  refine ⟨fun l d => ?_, fun d hn => ⟨?_, dconReadWord_default_and_mask hn _⟩⟩
  · simp only [DataDesc.dcon, dconReadWord, beq_iff_eq]
  · rw [DataDesc.dcon, dconReadWord_default hn, dconReadWord_zero, BitVec.or_comm]
    simp only [beq_iff_eq]

end Sys2Proof
end

section
/-! Response shapes (30_encoding.md R79, R80, R87) and the pseudo-instructions (R88, R89). -/

namespace Sys2Proof

theorem Shape.ofCode_eq_some_iff (b : BitVec 3) (n : Shape) : Shape.ofCode b = some n ↔ n.code = b := by
  cases n <;> (revert b; decide)

theorem CommandDesc.shapeCode_getLsbD (d : CommandDesc) :
    d.shapeCode.getLsbD 2 = d.crc ∧ d.shapeCode.getLsbD 1 = d.long ∧ d.shapeCode.getLsbD 0 = d.present := by
  obtain ⟨index, arg, present, long, crc⟩ := d
  simp only [CommandDesc.shapeCode]
  revert present long crc; decide

theorem CommandDesc.shapeCode_ofCode (index arg : Nat) (b : BitVec 3) :
    (CommandDesc.ofCode index arg b).shapeCode = b := by
  show BitVec.ofBool (b.getLsbD 2) ++ BitVec.ofBool (b.getLsbD 1) ++ BitVec.ofBool (b.getLsbD 0) = b
  revert b; decide

/-- A code has a name exactly when long and crc each come with present. -/
theorem CommandDesc.ofCode_shapeCode_isSome_iff (d : CommandDesc) :
    (Shape.ofCode d.shapeCode).isSome = true ↔
      (d.long = true → d.present = true) ∧ (d.crc = true → d.present = true) := by
  obtain ⟨index, arg, present, long, crc⟩ := d
  simp only [CommandDesc.shapeCode]
  revert present long crc; decide

/-- Settles O8: each clause is a fact about the three bits of the shape code. -/
theorem shapeCodesAndResponseLengths : Obligations.ShapeCodesAndResponseLengths := by
  refine ⟨⟨rfl, rfl, rfl, rfl, rfl⟩, Shape.ofCode_eq_some_iff, ⟨rfl, rfl, rfl⟩, CommandDesc.shapeCode_getLsbD,
    CommandDesc.shapeCode_ofCode, fun d => ?_, fun d => ⟨fun ⟨hp, hl⟩ => ?_, fun ⟨hp, hl⟩ => ?_, fun hp => ?_⟩⟩
  · rw [d.wellFormed_iff, d.ofCode_shapeCode_isSome_iff]
  · rw [CommandDesc.respWords, hp, hl]; rfl
  · rw [CommandDesc.respWords, hp, hl]; rfl
  · rw [CommandDesc.respWords, hp]; rfl

/-- Settles O59: each pseudo-instruction's instruction is computed from its expansion, and an absent CAP is read as
`count * size`. -/
theorem pseudoInstructionsExpand : Obligations.PseudoInstructionsExpand :=
  ⟨fun _ _ _ => rfl, rfl, fun _ _ => rfl, fun _ _ _ _ _ _ _ => rfl⟩

end Sys2Proof
end

section
/-! The clock family (40_clock.md): the search for the divider in closed form, and SET_CLOCK's next states. -/

namespace Sys2Proof.Machine

/-! ### The divider -/

/-- The bound of R100 L1, solved for the divider. -/
theorem div_succ_le_iff (fRef f d : Nat) : fRef / (d + 1) ≤ f ↔ fRef / (f + 1) ≤ d := by
  rw [← Nat.lt_succ_iff, ← Nat.lt_succ_iff, Nat.div_lt_iff_lt_mul d.succ_pos, Nat.div_lt_iff_lt_mul f.succ_pos,
    Nat.mul_comm]

/-- The frequency is below that of the greatest divider exactly when the quotient of R100 exceeds that divider. -/
theorem lt_div_256_iff (fRef f : Nat) : f < fRef / 256 ↔ 255 < fRef / (f + 1) := by
  rw [← Nat.not_le, ← Nat.not_le, div_succ_le_iff fRef f 255]

/-- The search over `left` dividers from d on stops at the quotient of R100, or at d if that is past it. -/
theorem searchDivider_eq (fRef f left d : Nat) :
    searchDivider fRef f left d =
      if max d (fRef / (f + 1)) < d + left then some (max d (fRef / (f + 1))) else none := by
  induction left generalizing d with
  | zero => rw [searchDivider, if_neg (by omega)]
  | succ left ih =>
    rw [searchDivider]
    by_cases hd : fRef / (f + 1) ≤ d
    · rw [if_pos ((div_succ_le_iff fRef f d).mpr hd), Nat.max_eq_left hd, if_pos (by omega)]
    · have hmax : max (d + 1) (fRef / (f + 1)) = max d (fRef / (f + 1)) := by omega
      rw [if_neg (mt (div_succ_le_iff fRef f d).mp hd), ih, hmax, Nat.succ_add_eq_add_succ]

/-- The closed form of R100. -/
theorem calcDivider_eq_min (fRef f : Nat) : calcDivider fRef f = min 255 (fRef / (f + 1)) := by
  rw [calcDivider, searchDivider_eq, Nat.zero_max]
  split
  · rw [Option.getD_some]; omega
  · rw [Option.getD_none]; omega

/-- Settles O10: the dividers that meet the bound are those from the quotient of R100 on, so the least of 0 to 255
is the closed form. -/
theorem dividerIsLeastInRange : Obligations.DividerIsLeastInRange := by
  intro fRef f _ _
  rw [calcDivider_eq_min, lt_div_256_iff]
  refine ⟨Nat.min_le_left _ _, fun d hd hdf => ?_, fun hnone => ?_, fun hq => ?_⟩
  · have hq : fRef / (f + 1) ≤ d := (div_succ_le_iff ..).mp hdf
    exact ⟨(div_succ_le_iff ..).mpr (by omega), by omega⟩
  · have hq : ¬ fRef / (f + 1) ≤ 255 := mt (div_succ_le_iff fRef f 255).mpr (hnone 255 (Nat.le_refl _))
    omega
  · omega

/-- Settles O11: the call by itself hands back the closed form. -/
theorem calcDividerReturnsItsClosedForm : Obligations.CalcDividerReturnsItsClosedForm := by
  intro s fRef f hs _
  rw [← calcDivider_eq_min]
  exact enter_internalCall_ready hs _

/-- Settles O12: unclamped, the divider is the quotient of R100 itself, the least that meets the bound; clamped, it
is 255, which does not meet it. -/
theorem actualFrequencyIsBoundedUnlessClamped : Obligations.ActualFrequencyIsBoundedUnlessClamped := by
  intro fRef f _ _
  constructor
  · intro hq
    have hdiv : calcDivider fRef f = fRef / (f + 1) := by rw [calcDivider_eq_min, Nat.min_eq_right hq]
    rw [hdiv]
    exact ⟨(div_succ_le_iff ..).mpr (Nat.le_refl _), fun d => (div_succ_le_iff fRef f d).mp⟩
  · intro hq
    have hdiv : calcDivider fRef f = 255 := by rw [calcDivider_eq_min, Nat.min_eq_left (by omega)]
    rw [hdiv]
    exact ⟨rfl, rfl, (lt_div_256_iff fRef f).mpr hq⟩

/-! ### SET_CLOCK -/

/-- The read-modify-write that sets bits, as a next state (00_scope.md R18). -/
theorem regSet_eq (r : Reg) (m : Word) (s : State) :
    regSet r m s = { s.afterReads 1 with
      trace := s.trace ++ [.read r (s.drawAt 0), .write r (s.drawAt 0 ||| m)] } := by
  simp [regSet, regWrite, emit, regRead_eq, drawAt_zero]

/-- The read-modify-write that clears bits, as a next state (00_scope.md R18). -/
theorem regClr_eq (r : Reg) (m : Word) (s : State) :
    regClr r m s = { s.afterReads 1 with
      trace := s.trace ++ [.read r (s.drawAt 0), .write r (s.drawAt 0 &&& ~~~m)] } := by
  simp [regClr, regWrite, emit, regRead_eq, drawAt_zero]

@[simp] theorem drawAt_inCall (b : Bool) (s : State) (k : Nat) : { s with inCall := b }.drawAt k = s.drawAt k := rfl

theorem exec_setClock_ready {s : State} (hs : s.Ready) (hi : s.initialized = true) (f : Nat) :
    exec (.setClock f) s = .next
      (hostReturn .done (if f = 0 then disableClock { s with inCall := true }
        else enableClock f { s with inCall := true })) :=
  enter_hostCall_ready hs _ fun _ => hi

/-- Settles O13: SET_CLOCK's body is one read-modify-write of CON, after the write of PRE if f > 0; entering and
leaving the call put `s.in_call` back. -/
theorem setClockWritesDividerAndEnable : Obligations.SetClockWritesDividerAndEnable := by
  intro s f hs hi
  constructor
  · intro hf _
    rw [exec_setClock_ready hs hi, if_neg (by omega), enableClock, regSet_eq]
    congr 1
    ext1 <;> simp [hs.inCall, clockOn, zext32]
  · rw [exec_setClock_ready hs hi, if_pos rfl, disableClock, regClr_eq]
    congr 1
    ext1 <;> simp [hs.inCall, clockOff]

end Sys2Proof.Machine
end

section
/-! The command family (41_command.md): the conditions a CSTA value is tested for, and SEND_COMMAND's next state
when the budget is spent. -/

namespace Sys2Proof

/-! ### One-bit fields -/

theorem Field.isSet_iff (f : Field) (v : Word) : f.isSet v = true ↔ f.get v = 1 := beq_iff_eq

/-- A one-bit field is its bit. -/
theorem Field.isSet_eq_getLsbD (lo : Nat) (v : Word) : (Field.mk lo 1).isSet v = v.getLsbD lo := by
  rw [← Bool.decide_coe ((Field.mk lo 1).isSet v), ← BitVec.testBit_toNat, Nat.testBit_eq_decide_div_mod_eq]
  exact decide_eq_decide.mpr (Field.isSet_iff _ v)

end Sys2Proof

namespace Sys2Proof.Machine

/-- Settles O15: R113's order is the model's own; under the default layout each of its four fields is one bit. -/
theorem commandStatusIsTestedInOrder : Obligations.CommandStatusIsTestedInOrder := by
  constructor
  · intro l d v
    simp only [cmdVerdict, Bool.and_eq_true, Bool.not_eq_true', Field.isSet_iff]
  · intro d v
    simp only [cmdVerdict, Layout.s3c2440, Field.isSet_eq_getLsbD]

/-! ### SEND_COMMAND -/

theorem exec_sendCommand_ready {s : State} (hs : s.Ready) {d : CommandDesc} (hd : d.wellFormed = true) :
    exec (.sendCommand d) s = .next (handBack (.command (sendCommand d s).1) (sendCommand d s).2) := by
  show enter s (internalCall _) = _
  rw [enter_internalCall_ready hs, if_pos hd]

theorem pollEvents_launchCommand (d : CommandDesc) (s : State) (n : Nat) :
    pollEvents (launchCommand d s) n = pollEvents s n := rfl

/-- SEND_COMMAND whose budget is spent with no terminal status (R115, R116). -/
theorem sendCommand_budget {s : State} {d : CommandDesc} (hmax : 0 < s.cfg.cmdPollMax)
    (hnone : ∀ m, m < s.cfg.cmdPollMax → cmdVerdict s.cfg.layout d (s.drawAt m) = none) :
    sendCommand d s = (.timeout, { s.afterReads s.cfg.cmdPollMax with
      i := s.cfg.cmdPollMax
      resp := none
      trace := s.trace ++ [.write .CARG (BitVec.ofNat 32 d.arg), .write .CCON (d.ccon s.cfg.layout)]
        ++ pollEvents s s.cfg.cmdPollMax ++ [.write .CSTA s.cfg.cmdstaClear] }) := by
  obtain ⟨left, hleft⟩ : ∃ left, s.cfg.cmdPollMax = left + 1 := Nat.exists_eq_add_one.mpr hmax
  rw [hleft] at hnone
  have hpoll := pollCommand_budget d left (launchCommand d s) hnone
  rw [sendCommand, hleft, hpoll, pollEvents_launchCommand]
  congr 1
  ext1 <;> simp [CommandOutcome.slot, CommandDesc.carg, zext32, Nat.add_comm]

/-- Settles O17: the poll loop ends with Timeout on the last poll the budget allows, and the clear follows. -/
theorem sendCommandTimesOutWhenTheBudgetIsSpent : Obligations.SendCommandTimesOutWhenTheBudgetIsSpent := by
  intro s d hs hd hnone
  obtain ⟨hmax, -⟩ := legal_bounds hs.legal
  rw [exec_sendCommand_ready hs hd, sendCommand_budget hmax hnone]
  rfl

end Sys2Proof.Machine
end

section
/-! The data family (42_data.md): ARM_TRANSFER's next states, and what every run of WAIT_AND_DRAIN leaves in its
events, its outcome and the buffer. -/

namespace Sys2Proof

/-- R81: a write descriptor is accepted as it stands. -/
theorem DataDesc.accepted_of_write (c : Config) {d : DataDesc} (hdir : d.dir = .write) : d.accepted c = true := by
  rw [DataDesc.accepted, hdir]

theorem DataDesc.accepted_of_read (c : Config) {d : DataDesc} (hdir : d.dir = .read) :
    d.accepted c = d.readable c := by
  rw [DataDesc.accepted, hdir]

end Sys2Proof

namespace Sys2Proof.Machine

/-! ### ARM_TRANSFER -/

theorem exec_armTransfer_ready {s : State} (hs : s.Ready) {d : DataDesc} (hd : d.accepted s.cfg = true) :
    exec (.armTransfer d) s = .next (handBack (.transfer (armTransfer d s).1) (armTransfer d s).2) := by
  show enter s (internalCall _) = _
  rw [enter_internalCall_ready hs, if_pos hd]

theorem armTransfer_read {d : DataDesc} (hdir : d.dir = .read) (s : State) :
    armTransfer d s = quiesce d s.cfg.armRetryMax { s with k := 0 } := by
  rw [armTransfer, hdir]

/-- The busy check after n rounds, counted from 0. -/
theorem regRead_roundsState (n : Nat) (s : State) :
    regRead .DSTA (roundsState n { s with k := 0 }) = { s.afterReads (2 * n + 1) with
      k := n
      trace := s.trace ++ roundEvents s n ++ [.read .DSTA (s.drawAt (2 * n))] } := by
  have hround : roundEvents { s with k := 0 } n = roundEvents s n := rfl
  have hdraw : (roundsState n { s with k := 0 }).drawAt 0 = s.drawAt (2 * n) := by
    rw [roundsState_eq]
    exact afterReads_drawAt s (2 * n) 0
  rw [regRead_eq, hdraw, roundsState_eq, hround]
  ext1 <;> simp [Nat.add_assoc]

/-- Settles O20: a write descriptor is accepted, and ARM_TRANSFER answers it before its first line. -/
theorem armTransferRejectsWrites : Obligations.ArmTransferRejectsWrites := by
  intro s d hs hdir
  rw [exec_armTransfer_ready hs (DataDesc.accepted_of_write s.cfg hdir), armTransfer_write d s hdir]
  rfl

/-- Settles O21: the busy loop takes n rounds and a quiet check, and the programming writes follow. -/
theorem armTransferProgramsAfterTheRounds : Obligations.ArmTransferProgramsAfterTheRounds := by
  intro s d n hs hdir hd hn hbusy hquiet
  have hloop := quiesce_after d n s.cfg.armRetryMax { s with k := 0 } hn hbusy hquiet
  rw [exec_armTransfer_ready hs hd, armTransfer_read hdir, hloop, regRead_roundsState]
  congr 1
  ext1 <;> simp [handBack, zext32]

/-- Settles O22: with every check busy the loop spends its rounds, and the check after the last one ends it. -/
theorem armTransferGivesUpOnAStuckTransfer : Obligations.ArmTransferGivesUpOnAStuckTransfer := by
  intro s d hs hdir hd hbusy
  have hloop := quiesce_stuck d s.cfg.armRetryMax { s with k := 0 } hbusy
  rw [exec_armTransfer_ready hs hd, armTransfer_read hdir, hloop, regRead_roundsState]
  rfl

/-! ### WAIT_AND_DRAIN -/

/-- Every answer of WAIT_AND_DRAIN on an accepted read descriptor: a next state, in which it has ended or has
faulted. -/
theorem exec_waitAndDrain_cases {s : State} (hs : s.Ready) {d : DataDesc} (hdir : d.dir = .read)
    (hd : d.accepted s.cfg = true) :
    (∃ t o es, exec (.waitAndDrain d) s = .next (handBack (.transfer o) t) ∧ WaitEnded d s t o es) ∨
    ∃ t es, exec (.waitAndDrain d) s = .next t ∧ WaitOverran d s t es := by
  obtain ⟨-, hmax, -⟩ := legal_bounds hs.legal
  have hreadable : (d.dir == .read && d.readable s.cfg) = true := by
    rw [hdir, ← DataDesc.accepted_of_read s.cfg hdir, hd]
    rfl
  have harm : exec (.waitAndDrain d) s = execWaitAndDrain d s := rfl
  rw [harm, execWaitAndDrain, enter_internalCall_ready hs, if_pos hreadable]
  rcases waitAndDrain_spec d s hmax with ⟨t, o, es, hrun, hend⟩ | ⟨t, es, hrun, hover⟩
  · exact .inl ⟨t, o, es, by rw [hrun], hend⟩
  · exact .inr ⟨t, es, by rw [hrun], hover⟩

theorem WaitOverran.fault_ne_none {d : DataDesc} {s t : State} {es : List Event} (h : WaitOverran d s t es) :
    t.fault ≠ none := by
  rw [h.poll.fault]
  exact Option.some_ne_none _

/-- A drain writes no register (R150). -/
theorem Drained.write_notMem {d : DataDesc} {s t : State} {es : List Event} (h : Drained d s t es) (r : Reg)
    (x : Word) : Event.write r x ∉ es := by
  intro he
  rcases h.own _ he with ⟨_, _, heq, _⟩ | ⟨_, _, heq, _⟩ | heq <;> cases heq

/-- The statuses of a run that does not fault: none before the last is terminal, and the last one decides (R143,
R145). -/
theorem WaitEnded.decided {d : DataDesc} {s t : State} {o : OutcomeKind} {es : List Event}
    (h : WaitEnded d s t o es) :
    ∃ vs v, readsOf .DSTA es = vs ++ [v] ∧ (∀ u ∈ vs, dataVerdict s.cfg.layout u = none) ∧
      t.i = vs.length + 1 ∧ t.i ≤ s.cfg.dataPollMax ∧ o = pollOutcome (dataVerdict s.cfg.layout v) ∧
      (dataVerdict s.cfg.layout v = none → t.i = s.cfg.dataPollMax) := by
  obtain ⟨u, -, ⟨vs, v, hdsta, hnone, hi, hlt, ho, hlast⟩, rfl⟩ := h.poll
  have hcount : (exitClears u).i = vs.length + 1 := by rw [exitClears_i, hi, Nat.add_comm]
  exact ⟨vs, v, hdsta, hnone, hcount, hcount.trans_le hlt, ho, fun hv => hcount.trans (hlast hv)⟩

/-- Before the exit clears no register is written (R150). -/
theorem WaitEnded.write_notMem {d : DataDesc} {s t : State} {o : OutcomeKind} {es : List Event}
    (h : WaitEnded d s t o es) (r : Reg) (x : Word) : Event.write r x ∉ es := by
  obtain ⟨u, hdrain, -, -⟩ := h.poll
  exact hdrain.write_notMem r x

/-- Settles O24: the poll is decided by its last status and writes no register, and the exit clears follow it. -/
theorem waitAndDrainIsDecidedByTheLastStatus : Obligations.WaitAndDrainIsDecidedByTheLastStatus := by
  intro s d hs hdir hd
  rcases exec_waitAndDrain_cases hs hdir hd with ⟨t, o, es, hexec, hend⟩ | ⟨t, es, hexec, hover⟩
  · obtain ⟨vs, v, hdsta, hnone, hi, hmax, ho, hspent⟩ := hend.decided
    have htrace : t.trace = s.trace ++ es ++ [.write .FSTA s.cfg.fstaClear, .write .DSTA s.cfg.dstaClear] := by
      rw [hend.ran.trace, List.append_assoc]
    have hresult : ∀ r, dataVerdict s.cfg.layout v = r →
        (handBack (.transfer o) t).result = some (.transfer (pollOutcome r)) := by
      rintro r rfl
      rw [ho]
      rfl
    exact ⟨_, hexec, fun _ => ⟨es, vs, v, htrace, hend.write_notMem, hdsta, hnone, hi, hmax,
      hresult _, hresult _, hresult _, fun hv => ⟨hresult _ hv, hspent hv⟩⟩⟩
  · exact ⟨t, hexec, fun hfault => absurd hfault hover.fault_ne_none⟩

/-- What a drain from word 0 of the buffer on leaves there: its first s.w words read from DAT, in order and within the
capacity, and every other byte as before (R53, R149). -/
theorem Drained.buffer {d : DataDesc} {s t : State} {es : List Event} (h : Drained d s t es) (h0 : s.w = 0) :
    t.w ≤ (readsOf .DAT es).length ∧ 4 * t.w ≤ d.bufCapacity ∧
    (∀ i j, i < t.w → j < 4 →
      t.mem.read (wordAddr d i + j) = ((readsOf .DAT es)[i]?).map (wordByte s.cfg.bufEndian · j)) ∧
    ∀ a, (a < wordAddr d 0 ∨ wordAddr d t.w ≤ a) → t.mem.read a = s.mem.read a := by
  obtain ⟨-, hcount⟩ := h.count
  have hcap := h.cap
  have hmem := h.mem
  rw [h0, Nat.sub_zero] at hcount hmem
  have hlen : ((readsOf .DAT es).take t.w).length = t.w := List.length_take_of_le hcount
  refine ⟨hcount, by omega, fun i j hi hj => ?_, fun a ha => ?_⟩
  · have hword := storeWords_same s.cfg.bufEndian d s.mem 0 ((readsOf .DAT es).take t.w) (n := i) (by omega) hj
    rwa [Nat.zero_add, List.getElem?_take_of_lt hi, ← hmem] at hword
  · rw [hmem]
    exact storeWords_other _ d _ 0 _ (by rwa [hlen, Nat.zero_add])

/-- Settles O25: both ends of the operation are a drain from word 0 of the buffer on; the exit clears read no word. -/
theorem waitAndDrainStoresTheWordsInOrder : Obligations.WaitAndDrainStoresTheWordsInOrder := by
  intro s d hs hdir hd
  rcases exec_waitAndDrain_cases hs hdir hd with ⟨t, o, es, hexec, hend⟩ | ⟨t, es, hexec, hover⟩
  · obtain ⟨u, hdrain, -, rfl⟩ := hend.poll
    obtain ⟨hle, hcap, hword, hother⟩ := hdrain.buffer rfl
    have hall : u.w = (readsOf .DAT es).length := by rw [hdrain.all, Nat.zero_add]
    have hdat : readsOf .DAT (es ++ [.write .FSTA s.cfg.fstaClear, .write .DSTA s.cfg.dstaClear]) =
        readsOf .DAT es := by
      simp [readsOf]
    refine ⟨_, _, hexec, hend.ran.trace, ?_⟩
    rw [hdat]
    exact ⟨hle, fun _ => hall, hcap, hword, hother⟩
  · obtain ⟨hle, hcap, hword, hother⟩ := hover.poll.buffer rfl
    exact ⟨t, es, hexec, hover.ran.trace, hle, fun hfault => absurd hfault hover.fault_ne_none, hcap,
      hword, hother⟩

end Sys2Proof.Machine
end

section
/-! The orchestrator family (43_orchestrator.md): the shared internal operations and RESET as next states, and
EXECUTE with a read as the run of its four stages. -/

namespace Sys2Proof.Machine

/-! ### CLEAR_ALL_STATUS, CONTROLLER_RESET and ISSUE_STOP by themselves -/

theorem exec_clearAllStatus_ready {s : State} (hs : s.Ready) :
    exec .clearAllStatus s = .next (handBack .done (clearAllStatus s)) :=
  enter_internalCall_ready hs _

theorem exec_controllerReset_ready {s : State} (hs : s.Ready) :
    exec .controllerReset s = .next (handBack .done (controllerReset s)) :=
  enter_internalCall_ready hs _

theorem exec_issueStop_ready {s : State} (hs : s.Ready) :
    exec .issueStop s = .next (handBack .done (issueStop s)) :=
  enter_internalCall_ready hs _

/-- Settles O28: the three clears of R166 are three writes, one after the other. -/
theorem clearAllStatusWritesThreeMasks : Obligations.ClearAllStatusWritesThreeMasks := by
  intro s hs
  rw [exec_clearAllStatus_ready hs]
  congr 1
  ext1 <;> simp [handBack]

/-- Settles O29: CONTROLLER_RESET is the read-modify-write that sets SDRESET. -/
theorem controllerResetSetsSdreset : Obligations.ControllerResetSetsSdreset := by
  intro s hs
  rw [exec_controllerReset_ready hs, controllerReset, regSet_eq]
  rfl

/-- Settles O30: ISSUE_STOP is the write of the stop value. -/
theorem issueStopWritesTheStopValue : Obligations.IssueStopWritesTheStopValue := by
  intro s hs
  rw [exec_issueStop_ready hs]
  rfl

/-! ### RESET -/

theorem exec_resetEngine_ready {s : State} (hs : s.Ready) (hi : s.initialized = true) :
    exec .resetEngine s = .next
      (hostReturn .done (delay .settleDelay (controllerReset { s with inCall := true }))) :=
  enter_hostCall_ready hs _ fun _ => hi

/-- Settles O32: RESET's body is the read-modify-write of CONTROLLER_RESET and the delay; entering and leaving the
call put `s.in_call` back. -/
theorem resetSettlesAndKeepsTheRecords : Obligations.ResetSettlesAndKeepsTheRecords := by
  intro s hs hi
  rw [exec_resetEngine_ready hs hi, controllerReset, regSet_eq]
  congr 1
  ext1 <;> simp [hostReturn, hs.inCall]

/-! ### A stage of EXECUTE and the same stage called by itself

Inside EXECUTE `s.in_call` is set and the result is still that of the call before; a stage called by itself finds
`s.in_call` clear and the result of the stage before it. No stage depends on either record. -/

/-- The state x as a stage of EXECUTE finds it, r being the result of the call before. -/
def inExecute (r : Option CallResult) (x : State) : State := { x with inCall := true, result := r }

theorem inExecute_handBack (r : Option CallResult) (q : CallResult) (x : State) :
    inExecute r (handBack q x) = inExecute r x := rfl

theorem clearAllStatus_inExecute (r : Option CallResult) (x : State) :
    clearAllStatus (inExecute r x) = inExecute r (clearAllStatus x) := rfl

theorem alike_inExecute (r : Option CallResult) (x : State) : Alike x (inExecute r x) :=
  ⟨rfl, rfl, rfl, rfl, rfl, rfl, rfl, rfl⟩

/-- Two runs alike, one of them inside EXECUTE, end in one state up to the two call records. -/
theorem RanAlike.eq_inExecute {r : Option CallResult} {x y t : State} (h : RanAlike x y (inExecute r x) t) :
    t = inExecute r y := by
  obtain ⟨es, hy, ht⟩ := h.events
  have hl := h.left
  have hr := h.right
  ext1
  case cfg => exact h.alike.cfg
  case initialized => exact hr.initialized.trans hl.initialized.symm
  case inCall => exact hr.inCall
  case pc => exact hr.pc.trans hl.pc.symm
  case stack => exact hr.stack.trans hl.stack.symm
  case clk => exact hr.clk.trans hl.clk.symm
  case resp => exact h.alike.resp
  case last => exact hr.last.trans hl.last.symm
  case i => exact h.alike.i
  case k => exact h.alike.k
  case w => exact h.alike.w
  case fault => exact hr.fault.trans hl.fault.symm
  case refusal => exact hr.refusal.trans hl.refusal.symm
  case mem => exact h.alike.mem
  case trace => exact ht.trans hy.symm
  case result => exact hr.result
  case supply => exact h.alike.supply
  case draws => exact h.alike.draws
  case arrivals => exact hr.arrivals.trans hl.arrivals.symm
  case locals => exact hr.locals.trans hl.locals.symm

theorem armTransfer_inExecute (d : DataDesc) (r : Option CallResult) (x : State) :
    armTransfer d (inExecute r x) = ((armTransfer d x).1, inExecute r (armTransfer d x).2) :=
  have ⟨houtcome, hran⟩ := armTransfer_alike d (alike_inExecute r x)
  Prod.ext houtcome hran.eq_inExecute

theorem sendCommand_inExecute (d : CommandDesc) (r : Option CallResult) (x : State) :
    sendCommand d (inExecute r x) = ((sendCommand d x).1, inExecute r (sendCommand d x).2) :=
  have ⟨houtcome, hran⟩ := sendCommand_alike d (alike_inExecute r x)
  Prod.ext houtcome hran.eq_inExecute

theorem waitAndDrain_inExecute_ok {d : DataDesc} {x y : State} {o : OutcomeKind} (r : Option CallResult)
    (h : waitAndDrain d x = .ok o y) : waitAndDrain d (inExecute r x) = .ok o (inExecute r y) := by
  have halike := waitAndDrain_alike d (alike_inExecute r x)
  rw [h] at halike
  generalize waitAndDrain d (inExecute r x) = z at halike
  cases halike with
  | ok hran => rw [hran.eq_inExecute]

/-! ### A run of stages, each called by itself -/

theorem State.Ready.handBack {s : State} (hs : s.Ready) (r : CallResult) : (handBack r s).Ready :=
  ⟨hs.fault, hs.legal, hs.inCall, hs.idle⟩

theorem KeepsAll.ready {s t : State} (h : KeepsAll s t) (hs : s.Ready) : t.Ready where
  fault := h.fault.trans hs.fault
  legal := by rw [h.cfg]; exact hs.legal
  inCall := h.inCall.trans hs.inCall
  idle := by rw [h.pc]; exact hs.idle

theorem State.Ready.clearAllStatus {s : State} (hs : s.Ready) : (clearAllStatus s).Ready :=
  ⟨hs.fault, hs.legal, hs.inCall, hs.idle⟩

theorem keepsAll_armTransfer {d : DataDesc} (hdir : d.dir = .read) (s : State) :
    KeepsAll s (armTransfer d s).2 :=
  have ⟨_, hran, _⟩ := armTransfer_spec d s hdir
  hran.keeps

theorem keepsAll_sendCommand (d : CommandDesc) {s : State} (hs : s.Ready) : KeepsAll s (sendCommand d s).2 :=
  have ⟨hmax, _⟩ := legal_bounds hs.legal
  have ⟨_, hran⟩ := sendCommand_spec d s hmax
  hran.keeps

theorem keepsAll_waitAndDrain {d : DataDesc} {s t : State} {o : OutcomeKind} (hs : s.Ready)
    (h : waitAndDrain d s = .ok o t) : KeepsAll s t := by
  obtain ⟨-, hmax, -⟩ := legal_bounds hs.legal
  rcases waitAndDrain_spec d s hmax with ⟨t', o', es, hrun, hend⟩ | ⟨t', es, hrun, -⟩
  · obtain ⟨rfl, rfl⟩ := Drain.ok.inj (h.symm.trans hrun)
    exact hend.keeps
  · cases h.symm.trans hrun

theorem fault_ne_none_of_overrun {d : DataDesc} {s t : State} (hs : s.Ready)
    (h : waitAndDrain d s = .overrun t) : t.fault ≠ none := by
  obtain ⟨-, hmax, -⟩ := legal_bounds hs.legal
  rcases waitAndDrain_spec d s hmax with ⟨t', o, es, hrun, -⟩ | ⟨t', es, hrun, hover⟩
  · cases h.symm.trans hrun
  · obtain rfl := Drain.overrun.inj (h.symm.trans hrun)
    exact hover.fault_ne_none

/-- What WAIT_AND_DRAIN called by itself leaves, by how it ends. -/
def Drain.handedBack : Drain OutcomeKind → State
  | .ok o t => handBack (.transfer o) t
  | .overrun t => t

theorem exec_waitAndDrain_ready {s : State} (hs : s.Ready) {d : DataDesc} (hdir : d.dir = .read)
    (hd : d.accepted s.cfg = true) : exec (.waitAndDrain d) s = .next (waitAndDrain d s).handedBack := by
  have hreadable : (d.dir == .read && d.readable s.cfg) = true := by
    rw [hdir, ← DataDesc.accepted_of_read s.cfg hdir, hd]
    rfl
  show enter s (internalCall _) = _
  rw [enter_internalCall_ready hs, if_pos hreadable]
  cases waitAndDrain d s <;> rfl

/-! ### EXECUTE -/

theorem exec_execute_ready {s : State} (hs : s.Ready) (hi : s.initialized = true) (cmd : CommandDesc)
    (data : Option DataDesc) :
    exec (.execute cmd data) s = .next (executeBody cmd data (inExecute s.result s)) :=
  enter_hostCall_ready hs _ fun _ => hi

/-- EXECUTE with accepted descriptors: the clears, and then the stages on the state they left. -/
theorem exec_execute_accepted {s : State} (hs : s.Ready) (hi : s.initialized = true) {cmd : CommandDesc}
    (hcmd : cmd.wellFormed = true) {d : DataDesc} (hd : d.accepted s.cfg = true) :
    exec (.execute cmd (some d)) s =
      .next (executeData cmd d (inExecute s.result (handBack .done (clearAllStatus s)))) := by
  rw [exec_execute_ready hs hi, inExecute_handBack, ← clearAllStatus_inExecute]
  exact congrArg _ (executeBody_accepted (inExecute s.result s) cmd (some d) hcmd hd)

theorem executeData_of_arm_failed {d : DataDesc} {s t : State} {a : OutcomeKind} (cmd : CommandDesc)
    (harm : armTransfer d s = (a, t)) (ha : a ≠ .success) :
    executeData cmd d s = finishExecute { final := a, cmd := none, data := some a } t := by
  rw [executeData, harm]
  cases a with
  | success => exact absurd rfl ha
  | timeout | commError | unsupported => rfl

theorem executeData_of_arm_success {d : DataDesc} {s t : State} (cmd : CommandDesc)
    (harm : armTransfer d s = (.success, t)) :
    executeData cmd d s = executeWait d (sendCommand cmd t).1 (sendCommand cmd t).2 := by
  rw [executeData, harm]

theorem executeWait_of_ok {d : DataDesc} {s t : State} {o : OutcomeKind} (c : CommandOutcome)
    (hwait : waitAndDrain d s = .ok o t) :
    executeWait d c s = finishExecute { final := o, cmd := some c, data := some o } t := by
  rw [executeWait, hwait]

/-- The end of EXECUTE clears `s.in_call`, which a stage called by itself has never set. -/
theorem finishExecute_inExecute {x : State} (hx : x.Ready) (o : TransactionOutcome) (r : Option CallResult) :
    finishExecute o (inExecute r x) = { x with last := some o, result := some (.transaction o) } := by
  simp only [finishExecute, hostReturn, inExecute, hx.inCall]

/-- WAIT_AND_DRAIN in EXECUTE from s, after a command outcome c, and called by itself: both end, and with the same
outcome and state, if the call by itself records no fault. -/
theorem executeWait_eq_exec_waitAndDrain {s : State} (hs : s.Ready) {d : DataDesc} (hdir : d.dir = .read)
    (hd : d.accepted s.cfg = true) (c : CommandOutcome) (r : Option CallResult) :
    ∃ t, exec (.waitAndDrain d) s = .next t ∧ (t.fault = none → ∃ o, t.result = some (.transfer o) ∧
      executeWait d c (inExecute r s) = { t with
        last := some { final := o, cmd := some c, data := some o }
        result := some (.transaction { final := o, cmd := some c, data := some o }) }) := by
  have hexec := exec_waitAndDrain_ready hs hdir hd
  cases hwait : waitAndDrain d s with
  | ok o t =>
    have ht := (keepsAll_waitAndDrain hs hwait).ready hs
    rw [hwait] at hexec
    refine ⟨_, hexec, fun _ => ⟨o, rfl, ?_⟩⟩
    rw [executeWait_of_ok c (waitAndDrain_inExecute_ok r hwait), finishExecute_inExecute ht]
    rfl
  | overrun t =>
    rw [hwait] at hexec
    exact ⟨t, hexec, fun hfault => absurd hfault (fault_ne_none_of_overrun hs hwait)⟩

/-- The last two stages of EXECUTE from s, after an arm that succeeded: the command, and WAIT_AND_DRAIN whatever the
command's outcome, each called by itself on the state the one before left. -/
theorem executeWait_eq_exec_sendCommand_waitAndDrain {s : State} (hs : s.Ready) {cmd : CommandDesc}
    (hcmd : cmd.wellFormed = true) {d : DataDesc} (hdir : d.dir = .read) (hd : d.accepted s.cfg = true)
    (r : Option CallResult) :
    ∃ t u c, exec (.sendCommand cmd) s = .next t ∧ t.result = some (.command c) ∧
      exec (.waitAndDrain d) t = .next u ∧ (u.fault = none → ∃ o, u.result = some (.transfer o) ∧
        executeWait d (sendCommand cmd (inExecute r s)).1 (sendCommand cmd (inExecute r s)).2 = { u with
          last := some { final := o, cmd := some c, data := some o }
          result := some (.transaction { final := o, cmd := some c, data := some o }) }) := by
  have hkeep := keepsAll_sendCommand cmd hs
  have ht := (hkeep.ready hs).handBack (.command (sendCommand cmd s).1)
  have hd' : d.accepted (sendCommand cmd s).2.cfg = true := by rwa [hkeep.cfg]
  obtain ⟨u, hwait, hend⟩ := executeWait_eq_exec_waitAndDrain ht hdir hd' (sendCommand cmd s).1 r
  refine ⟨_, u, _, exec_sendCommand_ready hs hcmd, rfl, hwait, ?_⟩
  rwa [sendCommand_inExecute]

/-- Settles O34: every stage does inside EXECUTE what it does when it is called by itself on the state the stage
before left, up to the two call records, which the end of EXECUTE writes. -/
theorem executeRunsItsStagesInOrder : Obligations.ExecuteRunsItsStagesInOrder := by
  intro s cmd d hs hi hcmd hdir hd
  have hs1 : (handBack .done (clearAllStatus s)).Ready := hs.clearAllStatus.handBack _
  have hd1 : d.accepted (handBack .done (clearAllStatus s)).cfg = true := hd
  have hclear := exec_clearAllStatus_ready hs
  have hexec := exec_execute_accepted hs hi hcmd hd
  generalize handBack .done (clearAllStatus s) = s1 at hs1 hd1 hclear hexec
  have hkeep := keepsAll_armTransfer hdir s1
  have harm := exec_armTransfer_ready hs1 hd1
  have harmIn := armTransfer_inExecute d s.result s1
  generalize armTransfer d s1 = arm at hkeep harm harmIn
  obtain ⟨a, t⟩ := arm
  have ht : t.Ready := hkeep.ready hs1
  refine ⟨s1, handBack (.transfer a) t, a, hclear, harm, rfl, fun ha => ?_, ?_⟩
  · rw [hexec, executeData_of_arm_failed cmd harmIn ha, finishExecute_inExecute ht]
    rfl
  · rintro rfl
    have hd2 : d.accepted t.cfg = true := by rwa [hkeep.cfg]
    obtain ⟨s3, s4, c, hcommand, hc, hwait, hend⟩ :=
      executeWait_eq_exec_sendCommand_waitAndDrain (ht.handBack (.transfer .success)) hcmd hdir hd2 s.result
    refine ⟨s3, s4, c, hcommand, hc, hwait, fun hfault => ?_⟩
    obtain ⟨o, ho, hfinal⟩ := hend hfault
    rw [inExecute_handBack] at hfinal
    exact ⟨o, ho, by rw [hexec, executeData_of_arm_success cmd harmIn, hfinal]⟩

end Sys2Proof.Machine
end

section
/-! The exceptions family (60_exceptions.md): which outcome kinds each stage of EXECUTE can give, and the one cause
of Unsupported (R183). -/

namespace Sys2Proof.Machine

/-! ### The outcome kinds of the stages -/

theorem CommandOutcome.status_ne_unsupported (c : CommandOutcome) : c.status ≠ .unsupported := by
  cases c <;> simp [CommandOutcome.status]

theorem pollOutcome_ne_unsupported (v : Option DataVerdict) : pollOutcome v ≠ .unsupported := by
  cases v with
  | none => simp [pollOutcome]
  | some v => cases v <;> simp [pollOutcome]

/-- On a read ARM_TRANSFER gives Success or CommError (R131, R133). -/
theorem armTransfer_read_ne_unsupported {d : DataDesc} (hdir : d.dir = .read) (s : State) :
    (armTransfer d s).1 ≠ .unsupported := by
  obtain ⟨-, -, -, hout⟩ := armTransfer_spec d s hdir
  rcases hout with hout | hout <;> simp [hout]

theorem WaitEnded.ne_unsupported {d : DataDesc} {s t : State} {o : OutcomeKind} {es : List Event}
    (h : WaitEnded d s t o es) : o ≠ .unsupported := by
  obtain ⟨-, v, -, -, -, -, rfl, -⟩ := h.decided
  exact pollOutcome_ne_unsupported _

/-! ### What EXECUTE hands to its caller -/

theorem finishExecute_result_iff (o p : TransactionOutcome) (s : State) :
    (finishExecute o s).result = some (.transaction p) ↔ o = p := by
  simp [finishExecute, hostReturn]

/-- WAIT_AND_DRAIN in EXECUTE: a fault hands over no transaction (R186), and a poll that ends is not Unsupported. -/
theorem executeWait_final_ne_unsupported {d : DataDesc} {c : CommandOutcome} {s : State} {o : TransactionOutcome}
    (hmax : 0 < s.cfg.dataPollMax) (hres : (executeWait d c s).result = some (.transaction o)) :
    o.final ≠ .unsupported := by
  rcases waitAndDrain_spec d s hmax with ⟨t, k, es, hrun, hend⟩ | ⟨t, es, hrun, hover⟩
  · rw [executeWait_of_ok c hrun, finishExecute_result_iff] at hres
    rw [← hres]
    exact hend.ne_unsupported
  · have hfaulted : (executeWait d c s).result = some (.faulted (.bufferOverrun t.w)) := by
      rw [executeWait, hrun]
      exact hover.poll.result
    cases hres.symm.trans hfaulted

/-- EXECUTE's stages with a read: neither an arm that fails nor the data outcome is Unsupported. -/
theorem executeData_read_final_ne_unsupported {cmd : CommandDesc} {d : DataDesc} {s : State}
    {o : TransactionOutcome} (hlegal : s.cfg.legal = true) (hdir : d.dir = .read)
    (hres : (executeData cmd d s).result = some (.transaction o)) : o.final ≠ .unsupported := by
  obtain ⟨hcmdMax, hdataMax, -⟩ := legal_bounds hlegal
  have harmKeeps := keepsAll_armTransfer hdir s
  have harmKind := armTransfer_read_ne_unsupported hdir s
  cases harm : armTransfer d s with
  | mk a t =>
    rw [harm] at harmKeeps harmKind
    by_cases ha : a = .success
    · subst ha
      rw [executeData_of_arm_success cmd harm] at hres
      obtain ⟨_, hcommand⟩ := sendCommand_spec cmd t (by rwa [harmKeeps.cfg])
      have hwaitMax : 0 < (sendCommand cmd t).2.cfg.dataPollMax := by
        rwa [hcommand.keeps.cfg, harmKeeps.cfg]
      exact executeWait_final_ne_unsupported hwaitMax hres
    · rw [executeData_of_arm_failed cmd harm ha, finishExecute_result_iff] at hres
      rw [← hres]
      exact harmKind

/-- EXECUTE's stages with a write: the arm ends them (R136, R162). -/
theorem executeData_write (cmd : CommandDesc) {d : DataDesc} (hdir : d.dir = .write) (s : State) :
    executeData cmd d s = finishExecute { final := .unsupported, cmd := none, data := some .unsupported } s :=
  executeData_of_arm_failed cmd (armTransfer_write d s hdir) (by decide)

theorem executePlain_final_ne_unsupported {cmd : CommandDesc} {s : State} {o : TransactionOutcome}
    (hres : (executePlain cmd s).result = some (.transaction o)) : o.final ≠ .unsupported := by
  rw [executePlain, finishExecute_result_iff] at hres
  rw [← hres]
  exact CommandOutcome.status_ne_unsupported _

/-- EXECUTE's two checks (R160 L1): a refusal that ends the call, or descriptors that both pass. -/
theorem executeBody_refused_or_accepted (cmd : CommandDesc) (data : Option DataDesc) (s : State) :
    (∃ r, executeBody cmd data s = refuseInCall r s) ∨
      cmd.wellFormed = true ∧ dataAccepted s.cfg data = true := by
  cases hcmd : cmd.wellFormed with
  | false => exact .inl ⟨.illFormedCommand, by simp [executeBody, hcmd]⟩
  | true =>
    cases hdata : dataAccepted s.cfg data with
    | false => exact .inl ⟨.illFormedData, by simp [executeBody, hcmd, hdata]⟩
    | true => exact .inr ⟨rfl, rfl⟩

/-- Settles O37: a refused call hands over no transaction; of the three accepted calls (no data, a read, a write)
only the write can end Unsupported, and it always does. -/
theorem unsupportedOnlyForWrites : Obligations.UnsupportedOnlyForWrites := by
  intro s t cmd data o hs hi hexec hres
  rw [exec_execute_ready hs hi] at hexec
  obtain rfl := Host.Outcome.next.inj hexec
  rcases executeBody_refused_or_accepted cmd data (inExecute s.result s) with ⟨r, hrefused⟩ | ⟨hcmd, hdata⟩
  · rw [hrefused, refuseInCall_result] at hres
    cases hres
  · rw [executeBody_accepted _ cmd data hcmd hdata] at hres
    cases data with
    | none => exact iff_of_false (executePlain_final_ne_unsupported hres) (by simp)
    | some d =>
      have hlegal : (clearAllStatus (inExecute s.result s)).cfg.legal = true := hs.legal
      change (executeData cmd d (clearAllStatus (inExecute s.result s))).result = _ at hres
      cases hdir : d.dir with
      | read => exact iff_of_false (executeData_read_final_ne_unsupported hlegal hdir hres) (by simp [hdir])
      | write =>
        rw [executeData_write cmd hdir, finishExecute_result_iff] at hres
        exact iff_of_true (by rw [← hres]) ⟨d, rfl, hdir⟩

end Sys2Proof.Machine
end

section
/-! The decoder and the encoder (30_encoding.md R71 to R76, R83, R84): a HOSTREQ word is its operation code, a control
word is its row's match beside its operands, and both ways of going round give back what one began with. -/

namespace Sys2Proof

/-! ### HOSTREQ words -/

theorem and_opMask_of_reservedBits_zero {w : Word} (hw : w &&& 0xFFFFFFF0#32 = 0#32) : w &&& 0xF#32 = w := by
  calc w &&& 0xF#32
      = (w &&& 0xFFFFFFF0#32) ||| (w &&& 0xF#32) := by rw [hw, BitVec.zero_or]
    _ = w &&& 0xFFFFFFFF#32 := by rw [← BitVec.and_or_distrib_left]; rfl
    _ = w := BitVec.and_allOnes

/-- A HOSTREQ word that decodes has its reserved bits clear, and decodes by its operation code. -/
theorem decodeHostreq_ok {w : Word} {o : Operands} {i : Instr} (h : decodeHostreq w o = .ok i) :
    w &&& 0xFFFFFFF0#32 = 0#32 ∧ decodeOp w.toNat o = .ok i := by
  unfold decodeHostreq at h
  split at h
  · rename_i hw
    rw [and_opMask_of_reservedBits_zero hw] at h
    exact ⟨hw, h⟩
  · cases h

/-- The operation code is the word of the encoding, and a frequency that decodes is in range (R71, R84). -/
theorem decodeOp_ok {n : Nat} {o : Operands} {i : Instr} (h : decodeOp n o = .ok i) :
    n ≤ 10 ∧ (encode i).word = BitVec.ofNat 32 n ∧ ∀ f, i = .setClock f → f < 2 ^ 32 := by
  unfold decodeOp at h
  split at h
  case h_3 =>
    split at h
    · rename_i hf
      cases h
      exact ⟨by omega, rfl, fun f hi => by cases hi; exact hf⟩
    · cases h
  case h_4 =>
    cases h
    cases o.hasData <;> exact ⟨by omega, rfl, nofun⟩
  case h_12 => cases h
  all_goals
    cases h
    exact ⟨by omega, rfl, nofun⟩

/-- A host request that decodes is one of OP 0 to 3 (R71, R84). -/
theorem decode_host_ok {w : Word} {o : Operands} {i : Instr} (h : decode (.host w o) = .ok i) :
    w.toNat < 4 ∧ decodeOp w.toNat o = .ok i := by
  rw [decode] at h
  split at h
  · cases h
  · rename_i hinternal
    obtain ⟨hw, hop⟩ := decodeHostreq_ok h
    obtain ⟨hle, -, -⟩ := decodeOp_ok hop
    exact ⟨by by_contra hge; exact hinternal ⟨hw, by omega, hle⟩, hop⟩

theorem decode_internal_ok {w : Word} {o : Operands} {i : Instr} (h : decode (.internal w o) = .ok i) :
    decodeOp w.toNat o = .ok i := by
  rw [decode] at h
  split at h
  · cases h
  · exact (decodeHostreq_ok h).2

/-! ### Control words -/

theorem encode_ccon_word (index : BitVec 6) :
    (encode (.cconNoresp index)).word = cconWord Layout.s3c2440 index.toNat false false ∧
    (encode (.cconShort index)).word = cconWord Layout.s3c2440 index.toNat true false ∧
    (encode (.cconLong index)).word = cconWord Layout.s3c2440 index.toNat true true := by
  have hi : index.toNat ≤ 63 := by have := index.isLt; omega
  rw [cconWord_default hi, cconWord_default hi, cconWord_default hi, cconWord_zero, cconWord_zero, cconWord_zero,
    BitVec.ofNat_toNat, BitVec.or_comm (x := index.setWidth 32), BitVec.or_comm (x := index.setWidth 32),
    BitVec.or_comm (x := index.setWidth 32)]
  exact ⟨rfl, rfl, rfl⟩

theorem encode_dconRead_word (wide : Bool) (blknum : BitVec 12) :
    (encode (.dconRead wide blknum)).word = dconReadWord Layout.s3c2440 blknum.toNat wide := by
  have hn : blknum.toNat ≤ 4095 := by have := blknum.isLt; omega
  rw [dconReadWord_default hn, dconReadWord_zero, BitVec.ofNat_toNat, BitVec.or_comm (x := blknum.setWidth 32)]
  rfl

/-- The decoder reads the width and the block count from the read form (R75). -/
theorem decodeDcon_dconReadWord_default {blockCount : Nat} (hn : blockCount ≤ 4095) (wide : Bool) :
    decodeDcon (dconReadWord Layout.s3c2440 blockCount wide) = .ok (.dconRead wide (BitVec.ofNat 12 blockCount)) := by
  have hle : blockCount < 2 ^ 16 := by omega
  have hwide : (dconReadWord Layout.s3c2440 blockCount wide).getLsbD 16 = wide := by
    have hfixed : ∀ b, (dconReadWord Layout.s3c2440 0 b).getLsbD 16 = b := by decide
    rw [dconReadWord_default hn, BitVec.getLsbD_or, hfixed, BitVec.getLsbD_ofNat, Nat.testBit_lt_two_pow hle,
      Bool.and_false, Bool.false_or]
  have hcount : (dconReadWord Layout.s3c2440 blockCount wide).extractLsb' 0 12 = BitVec.ofNat 12 blockCount := by
    have hfixed : ∀ b, (dconReadWord Layout.s3c2440 0 b).extractLsb' 0 12 = 0#12 := by decide
    rw [dconReadWord_default hn, BitVec.extractLsb'_or, hfixed, BitVec.or_zero,
      ← BitVec.setWidth_eq_extractLsb' (by decide), BitVec.setWidth_ofNat_of_le (by decide)]
  rw [decodeDcon, if_pos (dconReadWord_default_and_mask hn wide), hwide, hcount]

/-- A word is its match under a mask beside its bits outside the mask. -/
theorem match_or_and_not {w m c : Word} (h : w &&& m = c) : c ||| (w &&& ~~~m) = w := by
  rw [← h, ← BitVec.and_or_distrib_left, BitVec.or_not_self, BitVec.and_allOnes]

theorem setWidth_extractLsb'_eq_and (w : Word) (n : Nat) :
    (w.extractLsb' 0 n).setWidth 32 = w &&& BitVec.ofNat 32 (2 ^ n - 1) := by
  refine BitVec.eq_of_getLsbD_eq fun i hi => ?_
  rw [BitVec.getLsbD_setWidth, BitVec.getLsbD_extractLsb', BitVec.getLsbD_and, BitVec.getLsbD_ofNat,
    Nat.testBit_two_pow_sub_one, Nat.zero_add, decide_eq_true hi, Bool.true_and, Bool.true_and, Bool.and_comm]

theorem cconMatch_or_index {w c : Word} (h : w &&& 0xFFFFFFC0#32 = c) :
    c ||| (w.extractLsb' 0 6).setWidth 32 = w := by
  rw [setWidth_extractLsb'_eq_and]
  exact match_or_and_not h

theorem dconMatch_or_fields {w c : Word} (h : w &&& 0xFFFEF000#32 = c) :
    c ||| (if w.getLsbD 16 then 0x00010000#32 else 0#32) ||| (w.extractLsb' 0 12).setWidth 32 = w := by
  have hwide : (if w.getLsbD 16 then 0x00010000#32 else 0#32) = w &&& 0x00010000#32 :=
    (BitVec.and_twoPow w 16).symm
  rw [setWidth_extractLsb'_eq_and, hwide, BitVec.or_assoc, ← BitVec.and_or_distrib_left]
  exact match_or_and_not h

theorem decodeCcon_ok {w : Word} {i : Instr} (h : decodeCcon w = .ok i) :
    (encode i).word = w ∧ ∀ f, i ≠ .setClock f := by
  unfold decodeCcon at h
  split at h
  · cases h; exact ⟨cconMatch_or_index ‹_›, nofun⟩
  · split at h
    · cases h; exact ⟨cconMatch_or_index ‹_›, nofun⟩
    · split at h
      · cases h; exact ⟨cconMatch_or_index ‹_›, nofun⟩
      · cases h

theorem decodeDcon_ok {w : Word} {i : Instr} (h : decodeDcon w = .ok i) :
    (encode i).word = w ∧ ∀ f, i ≠ .setClock f := by
  unfold decodeDcon at h
  split at h
  · cases h; exact ⟨dconMatch_or_fields ‹_›, nofun⟩
  · split at h
    · cases h; exact ⟨Eq.symm ‹_›, nofun⟩
    · cases h

/-! ### Both ways round -/

/-- Every instruction decodes back from its encoding; of all operands only a frequency can be out of range. -/
theorem decode_encode (i : Instr) (hf : ∀ f, i = .setClock f → f < 2 ^ 32) : decode (encode i) = .ok i := by
  have hindex (x : BitVec 6) : x.toNat ≤ 63 := by have := x.isLt; omega
  cases i with
  | setClock f =>
    show (if f < 2 ^ 32 then Except.ok (Instr.setClock f) else .error DecodeError.frequencyRange) = _
    rw [if_pos (hf f rfl)]
  | execute cmd data => cases data <;> rfl
  | cconNoresp x =>
    show decodeCcon (encode (.cconNoresp x)).word = _
    rw [(encode_ccon_word x).1, decodeCcon_cconWord_default (hindex x), BitVec.ofNat_toNat, BitVec.setWidth_eq]; rfl
  | cconShort x =>
    show decodeCcon (encode (.cconShort x)).word = _
    rw [(encode_ccon_word x).2.1, decodeCcon_cconWord_default (hindex x), BitVec.ofNat_toNat, BitVec.setWidth_eq]; rfl
  | cconLong x =>
    show decodeCcon (encode (.cconLong x)).word = _
    rw [(encode_ccon_word x).2.2, decodeCcon_cconWord_default (hindex x), BitVec.ofNat_toNat, BitVec.setWidth_eq]; rfl
  | dconRead wide n =>
    have hn : n.toNat ≤ 4095 := by have := n.isLt; omega
    show decodeDcon (encode (.dconRead wide n)).word = _
    rw [encode_dconRead_word, decodeDcon_dconReadWord_default hn, BitVec.ofNat_toNat, BitVec.setWidth_eq]
  | initEngine | resetEngine | calcDivider | sendCommand | armTransfer | waitAndDrain | clearAllStatus
  | controllerReset | issueStop | dconStop => rfl

/-- What a request decodes to is encoded by the request's own word, its frequency in range. -/
theorem decode_ok {r : Request} {i : Instr} (h : decode r = .ok i) :
    (encode i).word = r.word ∧ ∀ f, i = .setClock f → f < 2 ^ 32 := by
  have hostreq {w : Word} {o : Operands} (hop : decodeOp w.toNat o = .ok i) :
      (encode i).word = w ∧ ∀ f, i = .setClock f → f < 2 ^ 32 := by
    obtain ⟨-, hword, hf⟩ := decodeOp_ok hop
    exact ⟨by rw [hword, BitVec.ofNat_toNat, BitVec.setWidth_eq], hf⟩
  match r with
  | .host w o => exact hostreq (decode_host_ok h).2
  | .internal w o => exact hostreq (decode_internal_ok h)
  | .control .CCON w => exact (decodeCcon_ok h).imp_right fun hne f hi => absurd hi (hne f)
  | .control .DCON w => exact (decodeDcon_ok h).imp_right fun hne f hi => absurd hi (hne f)

/-- Settles O2: the only operand the word does not leave free is SET_CLOCK's frequency, which well-formedness
bounds and the decoder checks. -/
theorem decodeAndEncodeAgree : Obligations.DecodeAndEncodeAgree := by
  refine ⟨fun c i hwf => decode_encode i ?_, fun r i h => ?_⟩
  · rintro f rfl
    exact of_decide_eq_true hwf
  · obtain ⟨hword, hf⟩ := decode_ok h
    exact ⟨hword, decode_encode i hf⟩

/-- Settles O1: each word is computed by the decoder. -/
theorem writtenWordsDecode : Obligations.WrittenWordsDecode := by
  unfold Obligations.WrittenWordsDecode
  decide

/-! ### The opcode table -/

/-- The rows of the opcode table in the order of the constructors (30_encoding.md R83): match and mask. -/
def tableRows : Fin 16 → Word × Word :=
  ![(0x0#32, 0xFFFFFFFF#32), (0x1#32, 0xFFFFFFFF#32), (0x2#32, 0xFFFFFFFF#32), (0x3#32, 0xFFFFFFFF#32),
    (0x4#32, 0xFFFFFFFF#32), (0x5#32, 0xFFFFFFFF#32), (0x6#32, 0xFFFFFFFF#32), (0x7#32, 0xFFFFFFFF#32),
    (0x8#32, 0xFFFFFFFF#32), (0x9#32, 0xFFFFFFFF#32), (0xA#32, 0xFFFFFFFF#32), (0x140#32, 0xFFFFFFC0#32),
    (0x340#32, 0xFFFFFFC0#32), (0x740#32, 0xFFFFFFC0#32), (0x008A6000#32, 0xFFFEF000#32),
    (0x4000#32, 0xFFFFFFFF#32)]

theorem tableRows_ctorIdx (i : Instr) :
    ∃ n : Fin 16, n.val = i.ctorIdx ∧ tableRows n = (i.tableMatch, i.tableMask) := by
  cases i with
  | initEngine => exact ⟨0, rfl, rfl⟩
  | resetEngine => exact ⟨1, rfl, rfl⟩
  | setClock => exact ⟨2, rfl, rfl⟩
  | execute => exact ⟨3, rfl, rfl⟩
  | calcDivider => exact ⟨4, rfl, rfl⟩
  | sendCommand => exact ⟨5, rfl, rfl⟩
  | armTransfer => exact ⟨6, rfl, rfl⟩
  | waitAndDrain => exact ⟨7, rfl, rfl⟩
  | clearAllStatus => exact ⟨8, rfl, rfl⟩
  | controllerReset => exact ⟨9, rfl, rfl⟩
  | issueStop => exact ⟨10, rfl, rfl⟩
  | cconNoresp => exact ⟨11, rfl, rfl⟩
  | cconShort => exact ⟨12, rfl, rfl⟩
  | cconLong => exact ⟨13, rfl, rfl⟩
  | dconRead => exact ⟨14, rfl, rfl⟩
  | dconStop => exact ⟨15, rfl, rfl⟩

/-- Two rows that agree where both their masks look are one row. -/
theorem tableRows_injective : ∀ n m : Fin 16,
    (tableRows n).1 &&& (tableRows m).2 = (tableRows m).1 &&& (tableRows n).2 → n = m := by decide

theorem encode_word_and_tableMask (i : Instr) : (encode i).word &&& i.tableMask = i.tableMatch := by
  cases i with
  | initEngine => exact Laws.TableRow.initEngine
  | resetEngine => exact Laws.TableRow.resetEngine
  | setClock f => exact Laws.TableRow.setClock f
  | execute cmd data => exact Laws.TableRow.execute cmd data
  | calcDivider fRef f => exact Laws.TableRow.calcDivider fRef f
  | sendCommand cmd => exact Laws.TableRow.sendCommand cmd
  | armTransfer d => exact Laws.TableRow.armTransfer d
  | waitAndDrain d => exact Laws.TableRow.waitAndDrain d
  | clearAllStatus => exact Laws.TableRow.clearAllStatus
  | controllerReset => exact Laws.TableRow.controllerReset
  | issueStop => exact Laws.TableRow.issueStop
  | cconNoresp index => exact Laws.TableRow.cconNoresp index
  | cconShort index => exact Laws.TableRow.cconShort index
  | cconLong index => exact Laws.TableRow.cconLong index
  | dconRead wide blknum => exact Laws.TableRow.dconRead wide blknum
  | dconStop => exact Laws.TableRow.dconStop

/-- Settles O4: under both masks a word shows both matches, so two rows it falls under agree there. -/
theorem tableRowsAreDisjoint : Obligations.TableRowsAreDisjoint := by
  refine ⟨encode_word_and_tableMask, fun i j w hi hj => ?_⟩
  obtain ⟨n, hn, hni⟩ := tableRows_ctorIdx i
  obtain ⟨m, hm, hmj⟩ := tableRows_ctorIdx j
  have hagree : i.tableMatch &&& j.tableMask = j.tableMatch &&& i.tableMask := by
    rw [← hi, ← hj, BitVec.and_assoc, BitVec.and_assoc, BitVec.and_comm i.tableMask]
  have hnm : n = m := tableRows_injective n m (by rw [hni, hmj]; exact hagree)
  rw [← hn, ← hm, hnm]

end Sys2Proof

namespace Sys2Proof.Machine

/-! ### Requests that decode to nothing -/

theorem onRequest_host_error {run : Instr → State → Host.Outcome State Fault Refusal} {w : Word} {o : Operands}
    {e : DecodeError} (h : decode (.host w o) = .error e) (s : State) :
    onRequest run (.host w o) s = enter s (refuse .badRequest) := by
  simp only [onRequest, h]

theorem onRequest_other_error {run : Instr → State → Host.Outcome State Fault Refusal} {r : Request}
    {e : DecodeError} (h : decode r = .error e) (hr : ∀ w o, r ≠ .host w o) (s : State) :
    onRequest run r s = .refused .neverIssued := by
  simp only [onRequest, h]
  cases r with
  | host w o => exact absurd rfl (hr w o)
  | internal w o => rfl
  | control reg w => rfl

theorem onRequest_ok {run : Instr → State → Host.Outcome State Fault Refusal} {r : Request} {i : Instr}
    (h : decode r = .ok i) (s : State) : onRequest run r s = run i s := by
  simp only [onRequest, h]

theorem decode_host_out_of_range {w : Word} {o : Operands}
    (h : 4 ≤ w.toNat ∨ (w = 2#32 ∧ 2 ^ 32 ≤ o.f)) : ∃ e, decode (.host w o) = .error e := by
  cases hdec : decode (.host w o) with
  | error e => exact ⟨e, rfl⟩
  | ok i =>
    obtain ⟨hlt, hop⟩ := decode_host_ok hdec
    rcases h with hge | ⟨rfl, hf⟩
    · omega
    · have hrange : decodeOp (2#32).toNat o = .error .frequencyRange := if_neg (by omega)
      cases hop.symm.trans hrange

/-- Settles O3: the codes are computed by the decoder; a host word that decodes is one of OP 0 to 3 with its
frequency in range, and every other is BadRequest. -/
theorem hostRequestsByOperationCode : Obligations.HostRequestsByOperationCode := by
  refine ⟨fun o => ⟨rfl, rfl, fun hf => if_pos hf, rfl, rfl, rfl, rfl, rfl, rfl, rfl, rfl⟩,
    fun s w o hfault hlegal hw => ?_⟩
  obtain ⟨e, he⟩ := decode_host_out_of_range hw
  have hrefused := enter_next (refuse .badRequest) hfault hlegal
  exact ⟨(onRequest_host_error he s).trans hrefused, (onRequest_host_error he s).trans hrefused⟩

/-- A step takes the next arrival (log 5). -/
theorem step_arrival {s : State} {a : Arrival} {rest : List Arrival} (hfault : s.fault = none)
    (ha : s.arrivals = a :: rest) : step s = runArrival a { s with arrivals := rest } := by
  rw [step, hfault, ha]

/-- Settles O42: a step takes the next arrival, and `onRequest` answers it by what it decodes to, whichever way an
instruction would run. -/
theorem stepRunsTheDecodedInstruction : Obligations.StepRunsTheDecodedInstruction := by
  intro s r rest hfault
  have whole (ha : s.arrivals = .request r :: rest) : step s = onRequest exec r { s with arrivals := rest } :=
    step_arrival hfault ha
  have lineByLine (ha : s.arrivals = .lineByLine r :: rest) :
      step s = onRequest (fun i s => .next (start i s)) r { s with arrivals := rest } :=
    step_arrival hfault ha
  refine ⟨fun i hi => ⟨fun ha => (whole ha).trans (onRequest_ok hi _),
    fun ha => (lineByLine ha).trans (onRequest_ok hi _)⟩, fun e he ha => ?_⟩
  obtain ⟨run, hrun⟩ : ∃ run, step s = onRequest run r { s with arrivals := rest } :=
    ha.elim (fun ha => ⟨_, whole ha⟩) fun ha => ⟨_, lineByLine ha⟩
  refine ⟨?_, fun hr => hrun.trans (onRequest_other_error he hr _)⟩
  rintro w o rfl
  have henter := hrun.trans (onRequest_host_error he _)
  exact ⟨fun hlegal => henter.trans (enter_next _ hfault hlegal),
    fun hlegal => henter.trans (enter_badConfig _ hfault hlegal)⟩

/-- Settles O41: a control word between two calls is its write; under the default layout the composed word is the
encoding's, and an operand in range is carried whole. -/
theorem controlWordsAreWrittenWhole : Obligations.ControlWordsAreWrittenWhole := by
  have hword {s : State} (hs : s.Ready) (r : Reg) {v w : Word} (h : v = w) :
      enter s (controlWord r v) = .next { s with trace := s.trace ++ [.write r w] } :=
    h ▸ enter_controlWord_ready hs r v
  constructor
  · intro s index wide n hs hlayout hstop
    obtain ⟨hnoresp, hshort, hlong⟩ := encode_ccon_word index
    have hread := encode_dconRead_word wide n
    rw [← hlayout] at hnoresp hshort hlong hread
    exact ⟨hword hs .CCON hnoresp.symm, hword hs .CCON hshort.symm, hword hs .CCON hlong.symm,
      hword hs .DCON hread.symm, hword hs .DCON hstop⟩
  · intro s d b hs hi hn
    have hindex : (BitVec.ofNat 6 d.index).toNat = d.index := by
      rw [BitVec.toNat_ofNat]; omega
    have hcount : (BitVec.ofNat 12 b.blockCount).toNat = b.blockCount := by
      rw [BitVec.toNat_ofNat]; omega
    refine ⟨?_, hword hs .DCON (by rw [hcount]; rfl), hword hs .DCON rfl⟩
    cases hp : d.present with
    | false => exact hword hs .CCON (by rw [hindex, CommandDesc.ccon, hp]; rfl)
    | true =>
      cases hl : d.long with
      | false => exact hword hs .CCON (by rw [hindex, CommandDesc.ccon, hp, hl])
      | true => exact hword hs .CCON (by rw [hindex, CommandDesc.ccon, hp, hl])

end Sys2Proof.Machine
end

section
/-! A call run whole and the same call run line by line (10_state.md R22; 70_reset_and_hazards.md R214): for each
routine called by itself, the lines from its L1 end in the state the whole call gives. -/

namespace Sys2Proof.Machine

/-! ### Calls under an accepted configuration and under a refused one -/

theorem hostCall_ready {s : State} (hs : s.Ready) {b : Bool} (hi : b = true → s.initialized = true)
    (body : State → State) : hostCall b body s = body { s with inCall := true } := by
  rcases hostCall_cases b body s with ⟨hbusy, -⟩ | ⟨-, hb, hinit, -⟩ | ⟨-, -, h⟩
  · cases hs.busy.symm.trans hbusy
  · cases hinit.symm.trans (hi hb)
  · exact h

theorem internalCall_ready {s : State} (hs : s.Ready) (body : State → State) : internalCall body s = body s := by
  rcases internalCall_cases body s with ⟨hbusy, -⟩ | ⟨-, h⟩
  · cases hs.busy.symm.trans hbusy
  · exact h

theorem hostCall_notInitialized {s : State} (hs : s.Ready) (hi : s.initialized = false) (body : State → State) :
    hostCall true body s = refuse .notInitialized s := by
  rcases hostCall_cases true body s with ⟨hbusy, -⟩ | ⟨-, -, -, h⟩ | ⟨-, hinit, -⟩
  · cases hs.busy.symm.trans hbusy
  · exact h
  · cases hi.symm.trans (hinit rfl)

/-- Every instruction enters (R185, R186): it answers a recorded fault, and refuses a configuration that is not
accepted. -/
theorem exec_eq_enter (i : Instr) (s : State) : ∃ run, exec i s = enter s run := by
  cases i <;> exact ⟨_, rfl⟩

theorem exec_badConfig {s : State} (hfault : s.fault = none) (hlegal : s.cfg.legal = false) (i : Instr) :
    exec i s = .next (refuse .badConfig s) := by
  obtain ⟨run, hrun⟩ := exec_eq_enter i s
  exact hrun.trans (enter_badConfig run hfault hlegal)

theorem start_badConfig {s : State} (hfault : s.fault = none) (hlegal : s.cfg.legal = false) (i : Instr) :
    start i s = refuse .badConfig s := by
  simp [start, hfault, hlegal]

/-! ### A routine that returns to nobody -/

/-- The records of the sequencer's position as the whole-call operations leave them. -/
structure State.AtRest (x : State) : Prop where
  fault : x.fault = none
  pc : x.pc = Pos.idle
  stack : x.stack = []
  locals : x.locals = Locals.clear

theorem State.Idle.atRest {s : State} (h : s.Idle) (hfault : s.fault = none) : s.AtRest :=
  ⟨hfault, h.pc, h.stack, h.locals⟩

theorem State.AtRest.inCall {x : State} (h : x.AtRest) (b : Bool) : ({ x with inCall := b } : State).AtRest :=
  ⟨h.fault, h.pc, h.stack, h.locals⟩

theorem KeepsAll.atRest {x y : State} (h : KeepsAll x y) (hx : x.AtRest) : y.AtRest :=
  ⟨h.fault.trans hx.fault, h.pc.trans hx.pc, h.stack.trans hx.stack, h.locals.trans hx.locals⟩

/-- The last line of the outermost routine is the return of a host operation (R22). -/
theorem Ends.of_return {u y : State} {r : CallResult} {p : Pos} {L : Locals}
    (h : Reaches u (returnFrom r (atLine p L y))) (hy : y.AtRest) : Ends u (hostReturn r y) := by
  have hreturn : returnFrom r (atLine p L y) =
      { atLine p L y with pc := Pos.idle, inCall := false, result := some r, locals := Locals.clear } :=
    returnFrom_empty r _ hy.stack
  refine Ends.of h ?_ fun _ => by rw [hreturn]
  rw [hreturn]
  ext1 <;> simp [atLine, hy.pc, hy.locals]

theorem handBack_eq_hostReturn {y : State} (r : CallResult) (h : y.inCall = false) : handBack r y = hostReturn r y := by
  simp only [handBack, hostReturn, ← h]

/-- The same for an internal operation, which has not set `s.in_call`. -/
theorem Ends.of_internal_return {u y : State} {r : CallResult} {p : Pos} {L : Locals}
    (h : Reaches u (returnFrom r (atLine p L y))) (hy : y.AtRest) (hcall : y.inCall = false) :
    Ends u (handBack r y) := by
  rw [handBack_eq_hostReturn r hcall]
  exact Ends.of_return h hy

/-- A host operation refused at its first line (R185, log 3). -/
theorem Ends.of_refuseLine {u x : State} {r : RefuseReason} {p : Pos} {L : Locals}
    (h : Reaches u (refuseLine r (atLine p L x))) (hx : x.AtRest) : Ends u (refuseInCall r x) := by
  refine Ends.of h ?_ fun _ => rfl
  ext1 <;> simp [refuseLine, refuse, refuseInCall, atLine, hx.pc, hx.stack, hx.locals]

/-- Putting the variables aside changes nothing where none are held. -/
theorem clearLocals_eq {y : State} (h : y.locals = Locals.clear) : { y with locals := Locals.clear } = y := by
  rw [← h]

/-- A call that has no lines: refused before its first, or a control word. -/
theorem Ends.of_atRest {x : State} (hpc : x.pc = Pos.idle) (hlocals : x.locals = Locals.clear) : Ends x x :=
  Ends.stay (clearLocals_eq hlocals) fun _ => hpc

theorem ends_refuse {x : State} (hx : x.AtRest) (r : RefuseReason) : Ends (refuse r x) (refuse r x) :=
  Ends.of_atRest hx.pc hx.locals

/-! ### The routines -/

variable {x : State}

theorem ends_initEngine (hx : x.AtRest) :
    Ends (begin_ .initEngine Locals.clear x) (if x.initialized then refuseInCall .alreadyInitialized x
      else hostReturn .done { regWrite .IMSK 0#32 (bringUp x) with initialized := true }) := by
  have l1 : line (begin_ .initEngine Locals.clear x) = if x.initialized
      then refuseLine .alreadyInitialized (atLine (label .initEngine 1) Locals.clear x)
      else atLine (label .initEngine 2) Locals.clear x := line_initEngine 1 _ x hx.fault
  cases hi : x.initialized with
  | true =>
    rw [hi] at l1
    exact Ends.of_refuseLine (.one l1) hx
  | false =>
    rw [hi] at l1
    refine Ends.of_return (.step l1 (.step (line_initEngine 2 _ _ hx.fault) (.step (line_initEngine 3 _ _ hx.fault)
      (.step (line_initEngine 4 _ _ hx.fault) (.one (line_initEngine 5 _ _ hx.fault)))))) ?_
    exact ⟨hx.fault, hx.pc, hx.stack, hx.locals⟩

theorem ends_resetEngine (hx : x.AtRest) :
    Ends (begin_ .resetEngine Locals.clear x) (hostReturn .done (delay .settleDelay (controllerReset x))) := by
  have hreset := reaches_controllerReset Locals.clear x hx.fault (label .resetEngine 1) (label .resetEngine 2)
    (line_resetEngine 1 _ x hx.fault)
  have hfault : (controllerReset x).fault = none := (controllerReset_fault x).trans hx.fault
  refine Ends.of_return (hreset.trans (.step (line_resetEngine 2 _ _ hfault) (.one (line_resetEngine 3 _ _ hfault)))) ?_
  exact ⟨hfault, (controllerReset_pc x).trans hx.pc, (controllerReset_stack x).trans hx.stack,
    (controllerReset_locals x).trans hx.locals⟩

theorem ends_setClock (hx : x.AtRest) (f : Nat) :
    Ends (begin_ .setClock { Locals.clear with freq := f } x)
      (hostReturn .done (if f = 0 then disableClock x else enableClock f x)) := by
  have l1 : line (begin_ .setClock { Locals.clear with freq := f } x) = if f = 0
      then atLine (label .setClock 5) { Locals.clear with freq := f } x
      else atLine (label .setClock 2) { Locals.clear with freq := f } x := line_setClock 1 _ x hx.fault
  by_cases hf : f = 0
  · rw [if_pos hf] at l1 ⊢
    refine Ends.of_return (.step l1 (.one (line_setClock 5 _ _ hx.fault))) ?_
    exact ⟨hx.fault, hx.pc, hx.stack, hx.locals⟩
  · rw [if_neg hf] at l1 ⊢
    refine Ends.of_return (.step l1 (.step (line_setClock 2 _ _ hx.fault) (.step (line_setClock 3 _ _ hx.fault)
      (.one (line_setClock 4 _ _ hx.fault))))) ?_
    exact ⟨hx.fault, hx.pc, hx.stack, hx.locals⟩

theorem executeBody_illFormedCommand {cmd : CommandDesc} (hcmd : cmd.wellFormed = false) (data : Option DataDesc)
    (s : State) : executeBody cmd data s = refuseInCall .illFormedCommand s := by
  simp [executeBody, hcmd]

theorem executeBody_illFormedData {cmd : CommandDesc} (hcmd : cmd.wellFormed = true) {data : Option DataDesc}
    {s : State} (hdata : dataAccepted s.cfg data = false) :
    executeBody cmd data s = refuseInCall .illFormedData s := by
  simp [executeBody, hcmd, hdata]

theorem ends_execute (hx : x.AtRest) (hlegal : x.cfg.legal = true) (cmd : CommandDesc) (data : Option DataDesc) :
    Ends (begin_ .execute { Locals.clear with cmd := cmd, data := data } x) (executeBody cmd data x) := by
  have l1 : line (begin_ .execute { Locals.clear with cmd := cmd, data := data } x) =
      if !cmd.wellFormed then refuseLine .illFormedCommand
        (atLine (label .execute 1) { Locals.clear with cmd := cmd, data := data } x)
      else if !dataAccepted x.cfg data then refuseLine .illFormedData
        (atLine (label .execute 1) { Locals.clear with cmd := cmd, data := data } x)
      else atLine (label .execute 2) { Locals.clear with cmd := cmd, data := data } x := line_execute 1 _ x hx.fault
  cases hcmd : cmd.wellFormed with
  | false =>
    rw [hcmd] at l1
    rw [executeBody_illFormedCommand hcmd]
    exact Ends.of_refuseLine (.one l1) hx
  | true =>
    cases hdata : dataAccepted x.cfg data with
    | false =>
      rw [hcmd, hdata] at l1
      rw [executeBody_illFormedData hcmd hdata]
      exact Ends.of_refuseLine (.one l1) hx
    | true =>
      have hend := execute_ends x cmd data hx.fault hx.pc hx.stack hlegal hcmd hdata
      have hlocals : (executeBody cmd data x).locals = Locals.clear :=
        (executeBody_locals cmd data x hlegal).trans hx.locals
      rwa [clearLocals_eq hlocals] at hend

theorem ends_calcDivider (hx : x.AtRest) (hcall : x.inCall = false) (fRef f : Nat) :
    Ends (begin_ .calcDivider { Locals.clear with fRef := fRef, freq := f } x)
      (handBack (.divider (calcDivider fRef f)) x) := by
  have l1 : line (begin_ .calcDivider { Locals.clear with fRef := fRef, freq := f } x) =
      match searchDivider fRef f 256 0 with
      | some d =>
        returnFrom (.divider d) (atLine (label .calcDivider 1) { Locals.clear with fRef := fRef, freq := f } x)
      | none => atLine (label .calcDivider 2) { Locals.clear with fRef := fRef, freq := f } x :=
    line_calcDivider 1 _ x hx.fault
  rw [calcDivider]
  cases hd : searchDivider fRef f 256 0 with
  | some d =>
    rw [hd] at l1
    exact Ends.of_internal_return (.one l1) hx hcall
  | none =>
    rw [hd] at l1
    exact Ends.of_internal_return (.step l1 (.one (line_calcDivider 2 _ _ hx.fault))) hx hcall

theorem ends_sendCommand (hx : x.AtRest) (hcall : x.inCall = false) (hmax : 0 < x.cfg.cmdPollMax) (cmd : CommandDesc) :
    Ends (begin_ .sendCommand { Locals.clear with cmd := cmd } x)
      (handBack (.command (sendCommand cmd x).1) (sendCommand cmd x).2) := by
  obtain ⟨_, -, -, -, hreach⟩ := reaches_sendCommand x { Locals.clear with cmd := cmd } hx.fault hmax
  obtain ⟨_, hran⟩ := sendCommand_spec cmd x hmax
  exact Ends.of_internal_return hreach (hran.keeps.atRest hx) (hran.keeps.inCall.trans hcall)

theorem keepsAll_armTransfer_any (d : DataDesc) (s : State) : KeepsAll s (armTransfer d s).2 := by
  cases hdir : d.dir with
  | read => exact keepsAll_armTransfer hdir s
  | write => rw [armTransfer_write d s hdir]; exact .refl s

theorem ends_armTransfer (hx : x.AtRest) (hcall : x.inCall = false) (d : DataDesc) :
    Ends (begin_ .armTransfer { Locals.clear with data := some d } x)
      (handBack (.transfer (armTransfer d x).1) (armTransfer d x).2) := by
  obtain ⟨_, _, -, -, -, -, hreach⟩ := reaches_armTransfer x { Locals.clear with data := some d } d rfl hx.fault
  have hkeep := keepsAll_armTransfer_any d x
  exact Ends.of_internal_return hreach (hkeep.atRest hx) (hkeep.inCall.trans hcall)

/-- A drain that overruns ends the call at its line, with the fault recorded (log 2). -/
theorem ends_waitAndDrain (hx : x.AtRest) (hcall : x.inCall = false) (hmax : 0 < x.cfg.dataPollMax) (d : DataDesc) :
    Ends (begin_ .waitAndDrain { Locals.clear with data := some d } x) (waitAndDrain d x).handedBack := by
  have hreach := reaches_waitAndDrain x { Locals.clear with data := some d } d rfl hx.fault hmax
  rcases waitAndDrain_spec d x hmax with ⟨t, o, es, hrun, hend⟩ | ⟨t, es, hrun, hover⟩
  · rw [hrun] at hreach ⊢
    obtain ⟨_, -, -, -, -, -, hreach⟩ := hreach
    exact Ends.of_internal_return hreach (hend.keeps.atRest hx) (hend.keeps.inCall.trans hcall)
  · rw [hrun] at hreach ⊢
    obtain ⟨_, -, -, -, hreach⟩ := hreach
    have hlocals : t.locals = Locals.clear := hover.keeps.locals.trans hx.locals
    exact Ends.of hreach (clearLocals_eq hlocals) fun hfault => absurd hfault hover.fault_ne_none

theorem ends_clearAllStatus (hx : x.AtRest) (hcall : x.inCall = false) :
    Ends (begin_ .clearAllStatus Locals.clear x) (handBack .done (clearAllStatus x)) :=
  Ends.of_internal_return (reaches_clearAllStatus Locals.clear x hx.fault)
    ⟨hx.fault, hx.pc, hx.stack, hx.locals⟩ hcall

theorem ends_controllerReset (hx : x.AtRest) (hcall : x.inCall = false) :
    Ends (begin_ .controllerReset Locals.clear x) (handBack .done (controllerReset x)) := by
  have hfault : (controllerReset x).fault = none := (controllerReset_fault x).trans hx.fault
  exact Ends.of_internal_return
    (.step (line_controllerReset 1 _ x hx.fault) (.one (line_controllerReset 2 _ _ hfault)))
    ((keepsAll_regSet .CON _ x).atRest hx) hcall

theorem ends_issueStop (hx : x.AtRest) (hcall : x.inCall = false) :
    Ends (begin_ .issueStop Locals.clear x) (handBack .done (issueStop x)) :=
  Ends.of_internal_return (.step (line_issueStop 1 _ x hx.fault) (.one (line_issueStop 2 _ _ hx.fault)))
    ((keepsAll_regWrite .DCON _ x).atRest hx) hcall

/-! ### Every instruction -/

/-- A host operation, whole and line by line. -/
theorem hostCall_ends {s : State} (hs : s.Ready) (hrest : s.AtRest) {b : Bool} {body first : State → State}
    (h : Ends (first { s with inCall := true }) (body { s with inCall := true })) :
    Ends (hostCall b first s) (hostCall b body s) := by
  rcases hostCall_cases b body s with ⟨hbusy, -⟩ | ⟨-, rfl, hi, hbody⟩ | ⟨-, hi, hbody⟩
  · cases hs.busy.symm.trans hbusy
  · rw [hbody, hostCall_notInitialized hs hi]
    exact ends_refuse hrest _
  · rw [hbody, hostCall_ready hs hi]
    exact h

/-- An internal operation, whole and line by line. -/
theorem internalCall_ends {s : State} (hs : s.Ready) {body first : State → State} (h : Ends (first s) (body s)) :
    Ends (internalCall first s) (internalCall body s) := by
  rw [internalCall_ready hs, internalCall_ready hs]
  exact h

/-- A call whose descriptor is checked first. -/
theorem checked_ends {s : State} (hrest : s.AtRest) {ok : Bool} {r : RefuseReason} {body first : State}
    (h : Ends first body) : Ends (if ok then first else refuse r s) (if ok then body else refuse r s) := by
  cases ok with
  | false => exact ends_refuse hrest r
  | true => exact h

theorem controlWord_ends {s : State} (hs : s.Ready) (hrest : s.AtRest) (r : Reg) (v : Word) :
    Ends (controlWord r v s) (controlWord r v s) :=
  internalCall_ends hs (Ends.of_atRest hrest.pc hrest.locals)

/-- The lines of a call from an idle engine end in the state of the whole call. -/
theorem start_ends {s : State} (hs : s.Ready) (hrest : s.AtRest) (i : Instr) :
    ∃ t, exec i s = .next t ∧ Ends (start i s) t := by
  obtain ⟨hcmdMax, hdataMax, -⟩ := legal_bounds hs.legal
  have henter := fun run : State → State => enter_next run hs.fault hs.legal
  have hin := hrest.inCall true
  have hcall := hs.inCall
  simp only [start, hs.fault, hs.legal, Option.isSome_none, Bool.not_true, Bool.false_eq_true, if_false]
  cases i with
  | initEngine => exact ⟨_, henter _, hostCall_ends hs hrest (ends_initEngine hin)⟩
  | resetEngine => exact ⟨_, henter _, hostCall_ends hs hrest (ends_resetEngine hin)⟩
  | setClock f => exact ⟨_, henter _, hostCall_ends hs hrest (ends_setClock hin f)⟩
  | execute cmd data => exact ⟨_, henter _, hostCall_ends hs hrest (ends_execute hin hs.legal cmd data)⟩
  | calcDivider fRef f => exact ⟨_, henter _, internalCall_ends hs (ends_calcDivider hrest hcall fRef f)⟩
  | sendCommand cmd =>
    exact ⟨_, henter _, internalCall_ends hs (checked_ends hrest (ends_sendCommand hrest hcall hcmdMax cmd))⟩
  | armTransfer d =>
    exact ⟨_, henter _, internalCall_ends hs (checked_ends hrest (ends_armTransfer hrest hcall d))⟩
  | waitAndDrain d =>
    refine ⟨_, henter _, internalCall_ends hs (checked_ends hrest ?_)⟩
    have hend := ends_waitAndDrain hrest hcall hdataMax d
    cases hrun : waitAndDrain d s <;> rwa [hrun] at hend
  | clearAllStatus => exact ⟨_, henter _, internalCall_ends hs (ends_clearAllStatus hrest hcall)⟩
  | controllerReset => exact ⟨_, henter _, internalCall_ends hs (ends_controllerReset hrest hcall)⟩
  | issueStop => exact ⟨_, henter _, internalCall_ends hs (ends_issueStop hrest hcall)⟩
  | cconNoresp | cconShort | cconLong | dconRead | dconStop =>
    exact ⟨_, henter _, controlWord_ends hs hrest _ _⟩

/-- Settles O49: under a refused configuration both ways refuse at once; otherwise each routine's lines end in the
state of its whole call. -/
theorem sequencerRunsWholeCalls : Obligations.SequencerRunsWholeCalls := by
  intro i s hfault hidle
  have hrest := hidle.atRest hfault
  have hends : ∃ t, exec i s = .next t ∧ Ends (start i s) t := by
    cases hlegal : s.cfg.legal with
    | false =>
      rw [start_badConfig hfault hlegal]
      exact ⟨_, exec_badConfig hfault hlegal i, ends_refuse hrest _⟩
    | true => exact start_ends ⟨hfault, hlegal, hidle.inCall, by rw [hidle.pc]; rfl⟩ hrest i
  obtain ⟨t, hexec, n, hstate, hpc⟩ := hends
  exact ⟨n, t, hexec, hstate, hpc⟩

end Sys2Proof.Machine
end

section
/-! Fields and status values (00_scope.md R16; 30_encoding.md R78, R86; 42_data.md R131, R143). -/

namespace Sys2Proof

/-! ### A field, bit by bit -/

/-- A put sets the bits of its field and keeps the others. -/
theorem Field.getLsbD_put (f : Field) (v : Word) (x : Nat) {b : Nat} (hb : b < 32) :
    (f.put v x).getLsbD b =
      if f.lo ≤ b ∧ b < f.lo + f.width then x.testBit (b - f.lo) else v.getLsbD b := by
  rw [Field.put, BitVec.getLsbD_or, BitVec.getLsbD_and, BitVec.getLsbD_and, BitVec.getLsbD_not, BitVec.getLsbD_ofNat,
    Nat.testBit_mul_two_pow, f.getLsbD_mask, decide_eq_true hb]
  by_cases hlo : f.lo ≤ b
  · by_cases hw : b - f.lo < f.width
    · rw [if_pos ⟨hlo, by omega⟩, decide_eq_true hlo, decide_eq_true hw]; simp
    · rw [if_neg (by omega), decide_eq_true hlo, decide_eq_false hw]; simp
  · rw [if_neg (by omega), decide_eq_false hlo]; simp

theorem Field.testBit_get (f : Field) (v : Word) (i : Nat) :
    (f.get v).testBit i = (decide (i < f.width) && v.getLsbD (f.lo + i)) := by
  rw [Field.get, Nat.testBit_mod_two_pow, Nat.testBit_div_two_pow, BitVec.testBit_toNat, Nat.add_comm]

/-- R16: a value that fits its field reads back. -/
theorem Field.get_put {f : Field} (hf : f.lo + f.width ≤ 32) (v : Word) {x : Nat} (hx : x < 2 ^ f.width) :
    f.get (f.put v x) = x := by
  refine Nat.eq_of_testBit_eq fun i => ?_
  rw [f.testBit_get]
  by_cases hi : i < f.width
  · rw [decide_eq_true hi, f.getLsbD_put v x (by omega), if_pos (by omega), Nat.add_sub_cancel_left, Bool.true_and]
  · have hle : 2 ^ f.width ≤ 2 ^ i := Nat.pow_le_pow_right (by omega) (by omega)
    rw [decide_eq_false hi, Nat.testBit_lt_two_pow (by omega), Bool.false_and]

theorem Field.getLsbD_put_outside (f : Field) (v : Word) (x : Nat) {b : Nat} (hb : b < f.lo ∨ f.lo + f.width ≤ b) :
    (f.put v x).getLsbD b = v.getLsbD b := by
  by_cases h32 : b < 32
  · rw [f.getLsbD_put v x h32, if_neg (by omega)]
  · rw [BitVec.getLsbD_of_ge _ _ (by omega), BitVec.getLsbD_of_ge _ _ (by omega)]

/-- Settles O14: bit by bit; a layout places INDEX, BLKNUM and DIV within the word. -/
theorem fieldPutThenGet : Obligations.FieldPutThenGet := by
  refine ⟨by decide, by decide, fun f v x hf hx => ⟨Field.get_put hf v hx, fun b => f.getLsbD_put_outside v x⟩,
    fun l v x => ⟨fun hx => ?_, fun hx => ?_, fun hx => ?_⟩⟩
  · have hlo := l.ccon.indexLo.isLt
    exact Field.get_put (f := l.ccon.INDEX) (show l.ccon.indexLo.val + 6 ≤ 32 by omega) v
      (show x < 2 ^ 6 by omega)
  · have hlo := l.dcon.blknumLo.isLt
    exact Field.get_put (f := l.dcon.BLKNUM) (show l.dcon.blknumLo.val + 12 ≤ 32 by omega) v
      (show x < 2 ^ 12 by omega)
  · have hlo := l.preDIVLo.isLt
    exact Field.get_put (f := l.preDIV) (show l.preDIVLo.val + 8 ≤ 32 by omega) v (show x < 2 ^ 8 by omega)

theorem Field.get_one_bit (lo : Nat) (v : Word) : (Field.mk lo 1).get v = (v.getLsbD lo).toNat := by
  rw [← Field.isSet_eq_getLsbD, Field.isSet]
  rcases Nat.mod_two_eq_zero_or_one (v.toNat / 2 ^ lo) with h | h <;> simp [Field.get, h]

end Sys2Proof

namespace Sys2Proof.Machine

/-- Settles O19: R131's and R143's order is the model's own; under the default layout each of the fields tested is one
bit, and FFCNT the lowest seven. -/
theorem dataStatusIsTestedInOrder : Obligations.DataStatusIsTestedInOrder := by
  constructor
  · intro l v
    simp only [transferBusy, dataVerdict, fifoHasData, fifoWords, Field.isSet_iff]
    simp
  · intro v
    simp only [transferBusy, dataVerdict, fifoHasData, fifoWords, Layout.s3c2440, Field.isSet_eq_getLsbD,
      Field.get_one_bit, true_and]
    constructor
    · cases v.getLsbD 1 <;> cases v.getLsbD 0 <;> rfl
    · rw [Field.get, Nat.pow_zero, Nat.div_one]; rfl

/-- Settles O57: the tests of O15 and O19 look at single bits, which the masks keep. -/
theorem otherStatusBitsAreIgnored : Obligations.OtherStatusBitsAreIgnored := by
  have hcmd := commandStatusIsTestedInOrder.2
  have hstatus := dataStatusIsTestedInOrder.2
  intro d v
  refine ⟨?_, ?_, ?_, ?_, ?_⟩
  · rw [hcmd, hcmd]; simp
  · obtain ⟨hbusy, -, -, -⟩ := hstatus v
    obtain ⟨hbusy', -, -, -⟩ := hstatus (v &&& 0x00000003#32)
    rw [hbusy, hbusy']; simp
  · obtain ⟨-, hverdict, -, -⟩ := hstatus v
    obtain ⟨-, hverdict', -, -⟩ := hstatus (v &&& 0x00000070#32)
    rw [hverdict, hverdict']; simp
  · obtain ⟨-, -, hdata, -⟩ := hstatus v
    obtain ⟨-, -, hdata', -⟩ := hstatus (v &&& 0x00001000#32)
    rw [hdata, hdata']; simp
  · obtain ⟨-, -, -, hwords⟩ := hstatus v
    obtain ⟨-, -, -, hwords'⟩ := hstatus (v &&& 0x0000007F#32)
    have hlow : v.toNat &&& 127 = v.toNat % 128 := Nat.and_two_pow_sub_one_eq_mod v.toNat 7
    rw [hwords, hwords', BitVec.toNat_and]
    show _ = (v.toNat &&& 127) % 128 / 4
    rw [hlow, Nat.mod_mod]

end Sys2Proof.Machine
end

section
/-! The outcome codes (60_exceptions.md R180), the records at power-on (10_state.md R51), the depth of the stack (R22)
and the buffer of an accepted read (30_encoding.md R81). -/

namespace Sys2Proof

theorem DataDesc.readable_iff (c : Config) (d : DataDesc) : d.readable c = true ↔
    1 ≤ d.blockCount ∧ d.blockCount ≤ 4095 ∧ d.blockSize % 4 = 0 ∧ 4 ≤ d.blockSize ∧ d.blockSize ≤ 4092 ∧
    (d.width = 1 ∨ d.width = 4) ∧ d.buf % 4 = 0 ∧ d.blockCount * d.blockSize ≤ d.bufCapacity ∧
    d.buf + d.bufCapacity ≤ 2 ^ 32 ∧
    (c.regBase.toNat + 0x43 < d.buf ∨ d.buf + d.bufCapacity ≤ c.regBase.toNat) := by
  simp only [DataDesc.readable, DataDesc.meetsRegisters, Bool.and_eq_true, Bool.or_eq_true, Bool.not_eq_true',
    Bool.and_eq_false_iff, decide_eq_true_eq, decide_eq_false_iff_not, beq_iff_eq, Nat.not_le, Nat.not_lt, and_assoc]

/-- Settles O9: the clauses of R81 (b), at a word the capacity admits. -/
theorem acceptedBufferHoldsTheTransfer : Obligations.AcceptedBufferHoldsTheTransfer := by
  intro c d hdir hd
  rw [DataDesc.accepted_of_read c hdir, DataDesc.readable_iff] at hd
  obtain ⟨-, -, -, -, -, -, halign, htransfer, hend, hregs⟩ := hd
  refine ⟨htransfer, fun i hi => ?_⟩
  simp only [Machine.wordAddr]
  omega

end Sys2Proof

namespace Sys2Proof.Machine

theorem OutcomeKind.code_injective (a b : OutcomeKind) (h : a.code = b.code) : a = b := by
  cases a <;> cases b <;> simp [OutcomeKind.code] at h ⊢

/-- Settles O60: the codes are the model's own. -/
theorem outcomeKindsHaveTheirCodes : Obligations.OutcomeKindsHaveTheirCodes :=
  ⟨rfl, rfl, rfl, rfl, OutcomeKind.code_injective⟩

/-- Settles O46: at power-on no record holds anything and no call is in progress. -/
theorem recordsAreConsistentAtPowerOn : Obligations.RecordsAreConsistentAtPowerOn := fun c => {
  mem := powerOn_mem_wf c
  resp := rfl
  clk := rfl
  last := rfl
  pc := by rw [powerOn_pc]; rfl
  stack := rfl
  inCall := rfl
  started := nofun
  before := fun _ => ⟨rfl, rfl⟩
  cout := rfl
  setClock := rfl }

/-! ### The stack -/

/-- Only EXECUTE, RESET and ARM_TRANSFER call routines; what ARM_TRANSFER calls, it alone calls or RESET (R22). -/
theorem returnsTo_op {op : Routine} {p : Pos} (h : returnsTo op p = true) :
    p.op = .execute ∨ p.op = .resetEngine ∨ p.op = .armTransfer := by
  cases op <;> simp only [returnsTo, Bool.or_eq_true, beq_iff_eq, Bool.false_eq_true] at h
  case controllerReset => rcases h with rfl | rfl <;> simp [label]
  all_goals
    subst h
    simp [label]

theorem returnsTo_armTransfer {p : Pos} (h : returnsTo .armTransfer p = true) : p.op = .execute := by
  rw [returnsTo, beq_iff_eq] at h
  rw [h]

/-- A routine that no other calls has no caller. -/
theorem stack_eq_nil_of_stackOk {op : Routine} {stack : List Pos} (h : stackOk op stack = true)
    (hop : ∀ p, returnsTo op p = false) : stack = [] := by
  cases stack with
  | nil => rfl
  | cons p rest => simp [stackOk, hop p] at h

theorem stackOk_cons {op : Routine} {p : Pos} {rest : List Pos} (h : stackOk op (p :: rest) = true) :
    returnsTo op p = true ∧ stackOk p.op rest = true := by
  simpa [stackOk] using h

theorem returnsTo_hostOp {op : Routine} (h : op.isHostOp = true) (p : Pos) : returnsTo op p = false := by
  cases op <;> simp [Routine.isHostOp, returnsTo] at h ⊢

/-- R190: below EXECUTE and RESET nothing is on the stack, and below ARM_TRANSFER only EXECUTE. -/
theorem stackOk_length {op : Routine} {stack : List Pos} (h : stackOk op stack = true) : stack.length ≤ 2 := by
  have below {op : Routine} {rest : List Pos} (hrest : stackOk op rest = true)
      (hop : op = .execute ∨ op = .resetEngine) :
      rest = [] := stack_eq_nil_of_stackOk hrest (returnsTo_hostOp (by rcases hop with rfl | rfl <;> rfl))
  cases stack with
  | nil => simp
  | cons p rest =>
    obtain ⟨hp, hrest⟩ := stackOk_cons h
    rcases returnsTo_op hp with hop | hop | hop
    · simp [below hrest (.inl hop)]
    · simp [below hrest (.inr hop)]
    · cases rest with
      | nil => simp
      | cons q rest =>
        rw [hop] at hrest
        obtain ⟨hq, hrest⟩ := stackOk_cons hrest
        simp [below hrest (.inl (returnsTo_armTransfer hq))]

/-- Settles O48: the invariant's stack holds the callers of the routine in progress. -/
theorem callsNestAtMostThreeDeep : Obligations.CallsNestAtMostThreeDeep := fun _ h =>
  Nat.succ_le_succ (stackOk_length h.stack)

end Sys2Proof.Machine
end

section
/-! Calls that run nothing: out of turn, under a refused configuration, with a descriptor that is not accepted, or on
an engine that is faulted or idle (60_exceptions.md R185, R186, R193, R194, R199). -/

namespace Sys2Proof

theorem Config.legal_iff (c : Config) : c.legal = true ↔
    c.regBase.toNat % 4 = 0 ∧ 0 < c.fRef ∧ 0 < c.cmdPollMax ∧ 0 < c.dataPollMax ∧ 0 < c.armRetryMax ∧
    c.dataTimeout.toNat < 2 ^ c.layout.dtimerVALUE.width := by
  simp only [Config.legal, Config.timeoutInRange, Bool.and_eq_true, beq_iff_eq, decide_eq_true_eq, and_assoc]

end Sys2Proof

namespace Sys2Proof.Machine

/-! ### A recorded fault, and an idle engine -/

theorem step_fault {s : State} {f : Fault} (h : s.fault = some f) : step s = .fault f := by
  rw [step, h]

/-- Settles O44: a step looks at the recorded fault first, and so does every instruction. -/
theorem recordedFaultStopsTheEngine : Obligations.RecordedFaultStopsTheEngine := by
  refine fun s f h => ⟨step_fault h, fun i => ?_⟩
  obtain ⟨run, hrun⟩ := exec_eq_enter i s
  exact hrun.trans (enter_fault run h)

theorem step_no_arrival {s : State} (hfault : s.fault = none) (ha : s.arrivals = []) : step s = .next (line s) := by
  rw [step, hfault, ha]

theorem line_idle {s : State} (hpc : s.pc.op = .idle) : line s = s := by
  rw [line, hpc]
  cases s.fault <;> rfl

/-- Settles O43: with no arrival a step is one line, and the engine has none when Idle. -/
theorem idleEngineWaits : Obligations.IdleEngineWaits := by
  intro s hfault ha
  have hstep := step_no_arrival hfault ha
  exact ⟨hstep, fun hpc => by rw [hstep, line_idle (by rw [hpc]; rfl)]⟩

/-- Settles O18: the read of a response word is answered at once, with the word or with the fault. -/
theorem readingAnUnpopulatedResponseFaults : Obligations.ReadingAnUnpopulatedResponseFaults := by
  intro s j rest hfault ha
  have hstep : step s = .next (readResponse j { s with arrivals := rest }) := step_arrival hfault ha
  have hread := readResponse_cases j { s with arrivals := rest }
  constructor
  · intro ws w hws hw
    rcases hread with ⟨ws', w', hws', hw', hread⟩ | ⟨hnone, -⟩
    · obtain rfl : ws = ws' := Option.some.inj (hws.symm.trans hws')
      obtain rfl : w = w' := Option.some.inj (hw.symm.trans hw')
      rw [hstep, hread]
    · rcases hnone with hnone | ⟨ws', hws', hlen⟩
      · cases hws.symm.trans hnone
      · obtain rfl : ws = ws' := Option.some.inj (hws.symm.trans hws')
        rw [List.getElem?_eq_none hlen] at hw
        cases hw
  · intro hnone
    rcases hread with ⟨ws, w, hws, hw, -⟩ | ⟨-, hread⟩
    · rcases hnone with hnone | ⟨ws', hws', hlen⟩
      · cases hws.symm.trans hnone
      · obtain rfl : ws = ws' := Option.some.inj (hws.symm.trans hws')
        rw [List.getElem?_eq_none hlen] at hw
        cases hw
    · exact ⟨_, hstep, hread, by rw [hread]; exact step_fault rfl⟩

/-! ### Out of turn -/

/-- Every instruction begins as a host operation or as an internal one (R193; log 14). -/
theorem exec_call (i : Instr) (s : State) :
    (∃ b body, exec i s = enter s (hostCall b body)) ∨ ∃ body, exec i s = enter s (internalCall body) := by
  cases i with
  | initEngine | resetEngine | setClock | execute => exact .inl ⟨_, _, rfl⟩
  | calcDivider | sendCommand | armTransfer | waitAndDrain | clearAllStatus | controllerReset | issueStop
  | cconNoresp | cconShort | cconLong | dconRead | dconStop => exact .inr ⟨_, rfl⟩

theorem exec_reentrant {s : State} (hfault : s.fault = none) (hlegal : s.cfg.legal = true) (hbusy : s.busy = true)
    (i : Instr) : exec i s = .next (refuse .reentrant s) := by
  have hcall : ∃ run, exec i s = enter s run ∧ run s = refuse .reentrant s := by
    rcases exec_call i s with ⟨b, body, hrun⟩ | ⟨body, hrun⟩
    · exact ⟨_, hrun, if_pos hbusy⟩
    · exact ⟨_, hrun, if_pos hbusy⟩
  obtain ⟨run, hrun, hrefused⟩ := hcall
  rw [hrun, enter_next run hfault hlegal, hrefused]

theorem enter_notInitialized {s : State} (hs : s.Ready) (hi : s.initialized = false) (body : State → State) :
    enter s (hostCall true body) = .next (refuse .notInitialized s) := by
  rw [enter_next _ hs.fault hs.legal, hostCall_notInitialized hs hi]

/-- Settles O39: every instruction is a call, and a call's checks come in the order of log 13. -/
theorem callsOutOfTurnAreRefused : Obligations.CallsOutOfTurnAreRefused := by
  intro s f cmd data hfault
  refine ⟨fun hlegal hcall => ?_, fun hs hi => ?_, fun hbad => ?_⟩
  · exact exec_reentrant hfault hlegal (by rcases hcall with h | h <;> simp [State.busy, h])
  · exact ⟨enter_notInitialized hs hi _, enter_notInitialized hs hi _, enter_notInitialized hs hi _⟩
  · refine exec_badConfig hfault (Bool.eq_false_iff.mpr fun hlegal => ?_)
    obtain ⟨hbase, href, hcmd, hdata, harm, htimeout⟩ := s.cfg.legal_iff.mp hlegal
    rcases hbad with h | h | h | h | h | h | ⟨hlayout, h⟩
    · exact h hbase
    · omega
    · omega
    · omega
    · omega
    · omega
    · rw [hlayout] at htimeout
      exact absurd htimeout (Nat.not_lt.mpr h)

/-! ### INITIALIZE, and descriptors that are not accepted -/

theorem refuseInCall_inExecute {s : State} (hs : s.Ready) (r : RefuseReason) (q : Option CallResult) :
    refuseInCall r (inExecute q s) = turnedAway r s := by
  simp only [refuseInCall, refuse, inExecute, turnedAway, hs.inCall]

/-- Settles O31: entering and leaving the call put `s.in_call` back. -/
theorem initializeMasksInterruptsOnce : Obligations.InitializeMasksInterruptsOnce := by
  intro s hs
  have hexec : exec .initEngine s = _ := enter_hostCall_ready hs _ nofun
  constructor
  · intro hi
    rw [hexec, if_neg (by rw [hi]; exact Bool.false_ne_true)]
    congr 1
    ext1 <;> simp [hs.inCall]
  · intro hi
    rw [hexec, if_pos hi]
    exact congrArg _ (refuseInCall_inExecute hs _ s.result)

/-- Settles O38: EXECUTE's two checks, in their order. -/
theorem executeRefusesIllFormedDescriptors : Obligations.ExecuteRefusesIllFormedDescriptors := by
  intro s cmd data hs hi
  rw [exec_execute_ready hs hi]
  refine ⟨fun hcmd => ?_, fun hcmd d hdata hd => ?_⟩
  · rw [executeBody_illFormedCommand hcmd, refuseInCall_inExecute hs]
  · subst hdata
    rw [executeBody_illFormedData (s := inExecute s.result s) hcmd (data := some d) hd, refuseInCall_inExecute hs]

/-- Settles O36: a write descriptor is accepted, and ARM_TRANSFER ends the call after the clears. -/
theorem executeRejectsWritesAfterTheClears : Obligations.ExecuteRejectsWritesAfterTheClears := by
  intro s cmd d hs hi hcmd hdir
  have hready : (handBack .done (clearAllStatus s)).Ready := hs.clearAllStatus.handBack .done
  rw [exec_execute_accepted hs hi hcmd (DataDesc.accepted_of_write s.cfg hdir), executeData_write cmd hdir,
    finishExecute_inExecute hready]
  congr 1
  ext1 <;> simp

/-- Settles O40: the check of an internal operation called by itself. -/
theorem internalCallsRefuseIllFormedDescriptors : Obligations.InternalCallsRefuseIllFormedDescriptors := by
  intro s cmd d hs
  have hinternal := enter_internalCall_ready hs
  refine ⟨fun hcmd => (hinternal _).trans ?_, fun hd => (hinternal _).trans ?_, fun hd => (hinternal _).trans ?_⟩
  · rw [if_neg (by simp [hcmd])]; rfl
  · rw [if_neg (by simp [hd])]; rfl
  · have hcheck : ¬ (d.dir == .read && d.readable s.cfg) = true := by
      rcases hd with hdir | hd
      · simp [hdir]
      · simp only [Bool.and_eq_true, beq_iff_eq, not_and, Bool.not_eq_true]
        intro hdir
        rwa [← DataDesc.accepted_of_read s.cfg hdir]
    rw [if_neg hcheck]; rfl

end Sys2Proof.Machine
end

section
/-! SEND_COMMAND up to its first terminal status (41_command.md R110 to R118), EXECUTE around its stages
(43_orchestrator.md R160), and the stages after one clear and after two (10_state.md R40). -/

namespace Sys2Proof.Machine

/-! ### SEND_COMMAND -/

theorem cmdVerdict_respond {l : Layout} {d : CommandDesc} {v : Word} (h : cmdVerdict l d v = some .respond) :
    d.present = true := by
  cases hp : d.present with
  | true => rfl
  | false =>
    simp only [cmdVerdict, hp, Bool.false_and, Bool.false_eq_true, if_false] at h
    split at h
    · cases h
    · split at h
      · cases h
      · split at h <;> cases h

theorem captured_respond {d : CommandDesc} (hp : d.present = true) :
    captured d .respond = if d.long then 4 else 1 := by
  rw [captured, CommandDesc.respWords, if_pos hp]

/-- How the poll loop ends on a terminal status: the words captured are the next answers (R113, R114). -/
theorem pollEnd_eq {d : CommandDesc} (s : State) {v : CmdVerdict} (hv : v = .respond → d.present = true) :
    pollEnd d s v = (outcomeOf s d 0 v, { s.afterReads (captured d v) with
      trace := s.trace ++ captureEvents s 0 (captured d v) }) := by
  cases v with
  | respond =>
    have hcount : d.respWords = if d.long then 4 else 1 := captured_respond (hv rfl)
    rw [pollEnd_respond, outcomeOf, captured, hcount]
  | timeout | commError | sent =>
    refine Prod.ext rfl ?_
    ext1 <;> simp [pollEnd, captured, captureEvents]

theorem outcomeOf_slot {d : CommandDesc} (s : State) (n : Nat) {v : CmdVerdict}
    (hv : v = .respond → d.present = true) : (outcomeOf s d n v).slot = slotOf s d n v := by
  cases v with
  | respond =>
    have hcount : ∃ k, d.respWords = k + 1 := by
      rw [CommandDesc.respWords, if_pos (hv rfl)]
      cases d.long <;> exact ⟨_, rfl⟩
    obtain ⟨k, hk⟩ := hcount
    rw [outcomeOf, slotOf, hk, capturedWords_succ, CommandOutcome.slot]
  | timeout | commError | sent => rfl

theorem captureEvents_shift (s t : State) (a b n : Nat) (h : ∀ m, t.drawAt (a + m) = s.drawAt (b + m)) :
    captureEvents t a n = captureEvents s b n := by
  simp [captureEvents, h]

theorem outcomeOf_shift (s t : State) (d : CommandDesc) (a b : Nat) (h : ∀ m, t.drawAt (a + m) = s.drawAt (b + m))
    (v : CmdVerdict) : outcomeOf t d a v = outcomeOf s d b v := by
  cases v with
  | respond => rw [outcomeOf, outcomeOf, capturedWords_shift s t a b _ h]
  | timeout | commError | sent => rfl

/-- SEND_COMMAND whose poll n + 1 is the first with a terminal status (R110, R118). -/
theorem sendCommand_terminal {s : State} {d : CommandDesc} {n : Nat} {v : CmdVerdict} (hn : n < s.cfg.cmdPollMax)
    (hnone : ∀ m, m < n → cmdVerdict s.cfg.layout d (s.drawAt m) = none)
    (hv : cmdVerdict s.cfg.layout d (s.drawAt n) = some v) :
    sendCommand d s = (outcomeOf s d (n + 1) v, afterCommand s d n v) := by
  have hrespond : v = .respond → d.present = true := fun h => cmdVerdict_respond (h ▸ hv)
  have hpoll := pollCommand_terminal d n s.cfg.cmdPollMax (launchCommand d s) v hn hnone hv
  rw [pollEnd_eq _ hrespond, pollEvents_launchCommand] at hpoll
  rw [sendCommand, hpoll]
  generalize hy : ({ (launchCommand d s).afterReads (n + 1) with
    i := (launchCommand d s).i + n
    trace := (launchCommand d s).trace ++ pollEvents s (n + 1) } : State) = y
  have hshift : ∀ m, y.drawAt (0 + m) = s.drawAt (n + 1 + m) := fun m => by
    rw [← hy, Nat.zero_add]
    exact afterReads_drawAt (launchCommand d s) (n + 1) m
  have houtcome := outcomeOf_shift s y d 0 (n + 1) hshift v
  have hslot := outcomeOf_slot s (n + 1) hrespond
  rw [captureEvents_shift s y 0 (n + 1) _ hshift, houtcome, hslot]
  subst hy
  refine Prod.ext rfl ?_
  ext1 <;> simp [afterCommand, CommandDesc.carg, zext32, Nat.add_comm, Nat.add_assoc]

/-- Settles O16: the poll loop ends on the first terminal status, and the clear follows the capture. -/
theorem sendCommandEndsAtTheFirstTerminalStatus : Obligations.SendCommandEndsAtTheFirstTerminalStatus := by
  intro s d n v hs hd hn hnone hv
  rw [exec_sendCommand_ready hs hd, sendCommand_terminal hn hnone hv]
  rfl

/-! ### EXECUTE around its stages -/

/-- Settles O33: SEND_COMMAND does inside EXECUTE what it does when it is called by itself after the clears. -/
theorem executeWithoutDataIsClearThenCommand : Obligations.ExecuteWithoutDataIsClearThenCommand := by
  intro s cmd hs hi hcmd
  have hs1 : (handBack .done (clearAllStatus s)).Ready := hs.clearAllStatus.handBack .done
  have hexec : exec (.execute cmd none) s =
      .next (executePlain cmd (inExecute s.result (handBack .done (clearAllStatus s)))) := by
    rw [exec_execute_ready hs hi, executeBody_accepted _ cmd none hcmd rfl]
    rfl
  have hs2 := (keepsAll_sendCommand cmd hs1).ready hs1
  refine ⟨_, _, _, exec_clearAllStatus_ready hs, exec_sendCommand_ready hs1 hcmd, rfl, ?_⟩
  rw [hexec, executePlain, sendCommand_inExecute, finishExecute_inExecute hs2]
  rfl

/-- A drain that overruns inside EXECUTE leaves the state of the call by itself, but for `s.in_call`. -/
theorem waitAndDrain_inExecute_overrun {d : DataDesc} {x y : State} (r : Option CallResult)
    (h : waitAndDrain d x = .overrun y) :
    waitAndDrain d (inExecute r x) = .overrun { y with inCall := true } := by
  have halike := waitAndDrain_alike d (alike_inExecute r x)
  rw [h] at halike
  generalize waitAndDrain d (inExecute r x) = z at halike
  cases halike with
  | @overrun _ t hend hevents hl hr hpc hfault hresult =>
    obtain ⟨es, hy, ht⟩ := hevents
    congr 1
    ext1
    case cfg => exact hend.cfg
    case initialized => exact hr.initialized.trans hl.initialized.symm
    case inCall => exact hr.inCall
    case pc => exact hpc
    case stack => exact hr.stack.trans hl.stack.symm
    case clk => exact hr.clk.trans hl.clk.symm
    case resp => exact hend.resp
    case last => exact hr.last.trans hl.last.symm
    case i => exact hend.i
    case k => exact hend.k
    case w => exact hend.w
    case fault => exact hfault
    case refusal => exact hr.refusal.trans hl.refusal.symm
    case mem => exact hend.mem
    case trace => exact ht.trans hy.symm
    case result => exact hresult
    case supply => exact hend.supply
    case draws => exact hend.draws
    case arrivals => exact hr.arrivals.trans hl.arrivals.symm
    case locals => exact hr.locals.trans hl.locals.symm

theorem executeWait_of_overrun {d : DataDesc} {s t : State} (c : CommandOutcome)
    (hwait : waitAndDrain d s = .overrun t) :
    executeWait d c s = { t with stack := executeAfterWait :: t.stack } := by
  rw [executeWait, hwait]

/-- WAIT_AND_DRAIN called by itself that records a fault has overrun. -/
theorem overrun_of_handedBack_fault {d : DataDesc} {s : State} (hs : s.Ready)
    (hfault : (waitAndDrain d s).handedBack.fault ≠ none) :
    waitAndDrain d s = .overrun (waitAndDrain d s).handedBack := by
  cases hwait : waitAndDrain d s with
  | overrun t => rfl
  | ok o t =>
    rw [hwait] at hfault
    exact absurd ((keepsAll_waitAndDrain hs hwait).fault.trans hs.fault) hfault

/-- WAIT_AND_DRAIN in EXECUTE when the call by itself records a fault. -/
theorem executeWait_of_exec_fault {s t : State} (hs : s.Ready) {d : DataDesc} (hdir : d.dir = .read)
    (hd : d.accepted s.cfg = true) (c : CommandOutcome) (r : Option CallResult)
    (hwait : exec (.waitAndDrain d) s = .next t) (hfault : t.fault ≠ none) :
    executeWait d c (inExecute r s) = { t with inCall := true, stack := executeAfterWait :: t.stack } := by
  obtain rfl := Host.Outcome.next.inj ((exec_waitAndDrain_ready hs hdir hd).symm.trans hwait)
  have hover := waitAndDrain_inExecute_overrun r (overrun_of_handedBack_fault hs hfault)
  rw [executeWait_of_overrun c hover]

/-- The last two stages in EXECUTE when the drain by itself, after the command by itself, records a fault. -/
theorem executeWait_of_exec_sendCommand_fault {s t u : State} (hs : s.Ready) {cmd : CommandDesc}
    (hcmd : cmd.wellFormed = true) {d : DataDesc} (hdir : d.dir = .read) (hd : d.accepted s.cfg = true)
    (r : Option CallResult) (hcommand : exec (.sendCommand cmd) s = .next t)
    (hwait : exec (.waitAndDrain d) t = .next u) (hfault : u.fault ≠ none) :
    executeWait d (sendCommand cmd (inExecute r s)).1 (sendCommand cmd (inExecute r s)).2 =
      { u with inCall := true, stack := executeAfterWait :: u.stack } := by
  obtain rfl := Host.Outcome.next.inj ((exec_sendCommand_ready hs hcmd).symm.trans hcommand)
  have hkeep := keepsAll_sendCommand cmd hs
  have hd' : d.accepted (sendCommand cmd s).2.cfg = true := by rwa [hkeep.cfg]
  rw [sendCommand_inExecute]
  exact executeWait_of_exec_fault ((hkeep.ready hs).handBack _) hdir hd' (sendCommand cmd s).1 r hwait hfault

/-- Settles O35: the stages before the drain do inside EXECUTE what they do by themselves, and so does the drain that
overruns, which leaves EXECUTE's return position on the stack. -/
theorem executeEndsWhereTheDrainFaults : Obligations.ExecuteEndsWhereTheDrainFaults := by
  intro s s1 s2 s3 s4 cmd d hs hi hcmd hdir hd hclear harm hsuccess hcommand hwait hfault
  have hexec := exec_execute_accepted hs hi hcmd hd
  obtain rfl := Host.Outcome.next.inj ((exec_clearAllStatus_ready hs).symm.trans hclear)
  have hs1 : (handBack .done (clearAllStatus s)).Ready := hs.clearAllStatus.handBack .done
  have hd1 : d.accepted (handBack .done (clearAllStatus s)).cfg = true := hd
  generalize handBack .done (clearAllStatus s) = s1 at hexec harm hs1 hd1
  obtain rfl := Host.Outcome.next.inj ((exec_armTransfer_ready hs1 hd1).symm.trans harm)
  have hkeep := keepsAll_armTransfer hdir s1
  have hs2 := (hkeep.ready hs1).handBack (.transfer (armTransfer d s1).1)
  have hd2 : d.accepted (armTransfer d s1).2.cfg = true := by rwa [hkeep.cfg]
  have harmIn : armTransfer d (inExecute s.result s1) = (.success, inExecute s.result (armTransfer d s1).2) := by
    rw [armTransfer_inExecute]
    simpa using hsuccess
  rw [hexec, executeData_of_arm_success cmd harmIn]
  exact congrArg _ (executeWait_of_exec_sendCommand_fault hs2 hcmd hdir hd2 s.result hcommand hwait hfault)

/-! ### One clear and two -/

theorem alike_clearAllStatus_handBack (r : CallResult) (s : State) : Alike s (handBack r (clearAllStatus s)) :=
  ⟨rfl, rfl, rfl, rfl, rfl, rfl, rfl, rfl⟩

theorem exec_sendCommand_eq {s : State} (hs : s.Ready) (d : CommandDesc) :
    exec (.sendCommand d) s = .next (if d.wellFormed
      then handBack (.command (sendCommand d s).1) (sendCommand d s).2 else refuse .illFormedCommand s) :=
  enter_internalCall_ready hs _

theorem exec_armTransfer_eq {s : State} (hs : s.Ready) (d : DataDesc) :
    exec (.armTransfer d) s = .next (if d.accepted s.cfg
      then handBack (.transfer (armTransfer d s).1) (armTransfer d s).2 else refuse .illFormedData s) :=
  enter_internalCall_ready hs _

theorem exec_waitAndDrain_eq {s : State} (hs : s.Ready) (d : DataDesc) :
    exec (.waitAndDrain d) s = .next (if d.dir == .read && d.readable s.cfg
      then (waitAndDrain d s).handedBack else refuse .illFormedData s) := by
  refine (enter_internalCall_ready hs _).trans ?_
  cases waitAndDrain d s <;> rfl

theorem Drain.AlikeEnds.handedBack {s t : State} {x y : Drain OutcomeKind} (h : Drain.AlikeEnds s t x y) :
    y.handedBack.result = x.handedBack.result ∧ y.handedBack.mem = x.handedBack.mem ∧
      y.handedBack.w = x.handedBack.w := by
  cases h with
  | ok h => exact ⟨rfl, h.alike.mem, h.alike.w⟩
  | overrun h _ _ _ _ _ hresult => exact ⟨hresult, h.mem, h.w⟩

/-- Settles O58: the second clear changes nothing that a stage reads, so the stages run alike after it. -/
theorem clearingTwiceChangesNoResult : Obligations.ClearingTwiceChangesNoResult := by
  intro s s1 s2 hs hclear hclear2
  have hs1 : s1.Ready := by
    rw [← Host.Outcome.next.inj ((exec_clearAllStatus_ready hs).symm.trans hclear)]
    exact hs.clearAllStatus.handBack .done
  obtain rfl := Host.Outcome.next.inj ((exec_clearAllStatus_ready hs1).symm.trans hclear2)
  have hs2 : (handBack .done (clearAllStatus s1)).Ready := hs1.clearAllStatus.handBack .done
  have halike := alike_clearAllStatus_handBack .done s1
  generalize handBack .done (clearAllStatus s1) = s2 at hs2 halike
  refine ⟨fun cmd t1 t2 h1 h2 => ?_, fun d t1 t2 h1 h2 => ?_, fun d t1 t2 h1 h2 => ?_⟩
  · obtain rfl := Host.Outcome.next.inj ((exec_sendCommand_eq hs1 cmd).symm.trans h1)
    obtain rfl := Host.Outcome.next.inj ((exec_sendCommand_eq hs2 cmd).symm.trans h2)
    obtain ⟨houtcome, hran⟩ := sendCommand_alike cmd halike
    cases cmd.wellFormed with
    | true => exact ⟨by simp [houtcome], hran.alike.resp.symm⟩
    | false => exact ⟨rfl, halike.resp.symm⟩
  · obtain rfl := Host.Outcome.next.inj ((exec_armTransfer_eq hs1 d).symm.trans h1)
    obtain rfl := Host.Outcome.next.inj ((exec_armTransfer_eq hs2 d).symm.trans h2)
    obtain ⟨houtcome, hran⟩ := armTransfer_alike d halike
    rw [halike.cfg]
    cases d.accepted s1.cfg with
    | true => exact ⟨by simp [houtcome], hran.alike.k.symm⟩
    | false => exact ⟨rfl, halike.k.symm⟩
  · obtain rfl := Host.Outcome.next.inj ((exec_waitAndDrain_eq hs1 d).symm.trans h1)
    obtain rfl := Host.Outcome.next.inj ((exec_waitAndDrain_eq hs2 d).symm.trans h2)
    obtain ⟨hresult, hmem, hw⟩ := (waitAndDrain_alike d halike).handedBack
    rw [halike.cfg]
    cases d.dir == .read && d.readable s1.cfg with
    | true => exact ⟨hresult.symm, hmem.symm, hw.symm⟩
    | false => exact ⟨rfl, halike.mem.symm, halike.w.symm⟩

end Sys2Proof.Machine
end

section
/-! WAIT_AND_DRAIN iteration by iteration (42_data.md R140 to R147): the end of the poll at iteration n, with the
residue or without, and the burst that overruns the buffer (R146). -/

namespace Sys2Proof.Machine

variable {s : State} {d : DataDesc} {n : Nat}

/-! ### The poll up to iteration n -/

/-- The poll of WAIT_AND_DRAIN at an iteration within the budget that none before has ended. -/
theorem pollData_reaches (hn : n < s.cfg.dataPollMax)
    (hnone : ∀ m, m < n → dataVerdict s.cfg.layout (dataStatus s m) = none)
    (hcap : 4 * (drainedWords s n).length ≤ d.bufCapacity) :
    ∃ left, s.cfg.dataPollMax = n + (left + 1) ∧
      pollData d s.cfg.dataPollMax { s with w := 0, i := 1 } = pollData d (left + 1) (atIteration s d n) := by
  obtain ⟨left, hleft⟩ : ∃ left, s.cfg.dataPollMax = n + (left + 1) := ⟨s.cfg.dataPollMax - n - 1, by omega⟩
  exact ⟨left, hleft, by rw [hleft]; exact pollData_atIteration s d n left hnone hcap⟩

theorem waitAndDrain_of_pollData_ok {o : OutcomeKind} {t : State}
    (h : pollData d s.cfg.dataPollMax { s with w := 0, i := 1 } = .ok o t) :
    waitAndDrain d s = .ok o (exitClears t) := by
  rw [waitAndDrain, h]

theorem waitAndDrain_of_pollData_overrun {t : State}
    (h : pollData d s.cfg.dataPollMax { s with w := 0, i := 1 } = .overrun t) : waitAndDrain d s = .overrun t := by
  rw [waitAndDrain, h]

/-- The state in which iteration n ends the poll, the transfer status read. -/
def endedAt (s : State) (d : DataDesc) (n : Nat) : State := { atIteration s d (n + 1) with i := n + 1 }

/-- The poll that iteration n ends without a final drain: CommError, Timeout, or the budget spent (R143, R145). -/
theorem waitAndDrain_decided {o : OutcomeKind} (hn : n < s.cfg.dataPollMax)
    (hnone : ∀ m, m < n → dataVerdict s.cfg.layout (dataStatus s m) = none)
    (hcap : 4 * (drainedWords s (n + 1)).length ≤ d.bufCapacity)
    (ho : dataVerdict s.cfg.layout (dataStatus s n) = some .commError ∧ o = .commError ∨
      dataVerdict s.cfg.layout (dataStatus s n) = some .timeout ∧ o = .timeout ∨
      dataVerdict s.cfg.layout (dataStatus s n) = none ∧ n + 1 = s.cfg.dataPollMax ∧ o = .timeout) :
    waitAndDrain d s = .ok o (exitClears (endedAt s d n)) := by
  have hmono := drainedWords_mono s (Nat.le_add_right n 1)
  obtain ⟨left, hleft, hpoll⟩ := pollData_reaches (d := d) hn hnone (by omega)
  rw [pollData_decides s d n left hcap] at hpoll
  refine waitAndDrain_of_pollData_ok ?_
  rcases ho with ⟨hv, rfl⟩ | ⟨hv, rfl⟩ | ⟨hv, hlast, rfl⟩
  · rw [hv] at hpoll; exact hpoll
  · rw [hv] at hpoll; exact hpoll
  · obtain rfl : left = 0 := by omega
    rw [hv] at hpoll; exact hpoll

/-- The poll that iteration n ends with DATFIN: the final drain decides how it ends (R144). -/
theorem pollData_finished (hn : n < s.cfg.dataPollMax)
    (hnone : ∀ m, m < n → dataVerdict s.cfg.layout (dataStatus s m) = none)
    (hcap : 4 * (drainedWords s (n + 1)).length ≤ d.bufCapacity)
    (hv : dataVerdict s.cfg.layout (dataStatus s n) = some .finished) :
    pollData d s.cfg.dataPollMax { s with w := 0, i := 1 } =
      match finalDrain d (endedAt s d n) with
      | .ok _ t => .ok .success t
      | .overrun t => .overrun t := by
  have hmono := drainedWords_mono s (Nat.le_add_right n 1)
  obtain ⟨left, hleft, hpoll⟩ := pollData_reaches (d := d) hn hnone (by omega)
  rw [hpoll, pollData_decides s d n left hcap, hv]
  rfl

theorem endedAt_drawAt (s : State) (d : DataDesc) (n k : Nat) :
    (endedAt s d n).drawAt k = s.drawAt (iterationAt s (n + 1) + k) := atIteration_drawAt s d (n + 1) k

/-- The poll that DATFIN ends with a residue of m words, all within the capacity. -/
theorem waitAndDrain_finished {m : Nat} (hn : n < s.cfg.dataPollMax)
    (hnone : ∀ m, m < n → dataVerdict s.cfg.layout (dataStatus s m) = none)
    (hv : dataVerdict s.cfg.layout (dataStatus s n) = some .finished)
    (hm : fifoWords s.cfg.layout (s.drawAt (iterationAt s (n + 1))) = m)
    (hcap : 4 * ((drainedWords s (n + 1)).length + m) ≤ d.bufCapacity) :
    waitAndDrain d s = .ok .success (exitClears (afterWords d m (regRead .FSTA (endedAt s d n)))) := by
  have hpoll := pollData_finished (d := d) hn hnone (by omega) hv
  have hcount : fifoWords (endedAt s d n).cfg.layout ((endedAt s d n).drawAt 0) = m := by
    rw [endedAt_drawAt]; exact hm
  rw [finalDrain_fits d m (endedAt s d n) hcount hcap] at hpoll
  exact waitAndDrain_of_pollData_ok hpoll

/-- The state after m words of a burst at iteration n does not depend on the iteration number. -/
theorem afterWords_atIteration_i (s : State) (d : DataDesc) (n k m : Nat) :
    afterWords d m (regRead .FSTA { atIteration s d n with i := k }) = { (atIteration s d n).afterReads (m + 1) with
      i := k
      w := (drainedWords s n).length + m
      mem := storeWords s.cfg.bufEndian d s.mem 0 (drainedWords s n ++ capturedWords s (iterationAt s n + 1) m)
      trace := (atIteration s d n).trace ++ [.read .FSTA (s.drawAt (iterationAt s n))]
        ++ burstEvents s (iterationAt s n + 1) (drainedWords s n).length m } :=
  congrArg (fun x : State => { x with i := k }) (afterWords_atIteration s d n m)

/-- Settles O23: the poll ends at iteration n, as its transfer status decides, and the exit clears follow. -/
theorem waitAndDrainReadsABurstAndTheResidue : Obligations.WaitAndDrainReadsABurstAndTheResidue := by
  intro s d n hs hdir hd hn hnone hcap
  rw [exec_waitAndDrain_ready hs hdir hd]
  refine ⟨fun o ho => ?_, ?_⟩
  · rw [waitAndDrain_decided hn hnone hcap ho, Drain.handedBack]
    congr 1
    ext1 <;> simp [endedAt]
  · rintro _ m hv rfl hm hres
    rw [waitAndDrain_finished hn hnone hv hm hres, Drain.handedBack]
    rw [endedAt, afterWords_atIteration_i]
    congr 1
    ext1 <;> simp [Nat.add_assoc]

/-! ### Past the capacity -/

theorem pollData_of_drainOnce_overrun {left : Nat} {t u : State} (h : drainOnce d t = .overrun u) :
    pollData d (left + 1) t = .overrun u := by
  rw [pollData, h]

/-- A final drain of more words than the capacity holds after the first m (R146). -/
theorem finalDrain_overruns {m : Nat} (t : State) (hm : m < fifoWords t.cfg.layout (t.drawAt 0))
    (h1 : m = 0 ∨ 4 * (t.w + m) ≤ d.bufCapacity) (h2 : d.bufCapacity < 4 * (t.w + m) + 4) :
    finalDrain d t = .overrun (raiseFault (.bufferOverrun (t.w + m)) finalBurstPos
      (regRead .DAT (afterWords d m (regRead .FSTA t)))) := by
  rw [drawAt_zero] at hm
  exact burst_overruns d finalBurstPos _ m (regRead .FSTA t) hm h1 h2

/-- The state a burst of iteration n, or the final drain after it, leaves at the word past the capacity, c words of
the burst having been stored; k is the iteration number (R146, log 2). -/
theorem overrunAt_eq (s : State) (d : DataDesc) (n k c : Nat) (p : Pos)
    (hc : d.bufCapacity / 4 = (drainedWords s n).length + c) :
    raiseFault (.bufferOverrun ((drainedWords s n).length + c)) p
      (regRead .DAT (afterWords d c (regRead .FSTA { atIteration s d n with i := k }))) =
    { s.afterReads (iterationAt s n + c + 2) with
      i := k
      w := d.bufCapacity / 4
      mem := storeWords s.cfg.bufEndian d s.mem 0 (drainedWords s n ++ capturedWords s (iterationAt s n + 1) c)
      trace := s.trace ++ (List.range n).flatMap (iterationEvents s) ++ [.read .FSTA (s.drawAt (iterationAt s n))]
        ++ burstEvents s (iterationAt s n + 1) (drainedWords s n).length c
        ++ [.read .DAT (s.drawAt (iterationAt s n + c + 1))]
      fault := some (.bufferOverrun (d.bufCapacity / 4))
      pc := p
      result := some (.faulted (.bufferOverrun (d.bufCapacity / 4))) } := by
  rw [hc, afterWords_atIteration_i, regRead_eq]
  ext1
  case trace =>
    simp [Nat.add_assoc]
    exact drawAt_add s _ (iterationAt s n + (c + 1)) 0 rfl rfl
  all_goals simp [Nat.add_assoc]

/-- Settles O26: the words that fit are stored, by the burst of the poll or by the final drain, and the next one is
read and faults. -/
theorem waitAndDrainFaultsPastTheCapacity : Obligations.WaitAndDrainFaultsPastTheCapacity := by
  intro s d n a c hs hdir hd hn hnone hc
  rw [exec_waitAndDrain_ready hs hdir hd]
  constructor
  · rintro rfl hdata hcap
    have hstored : drainOnce d (atIteration s d n) = _ := drainOnce_overruns d c (atIteration s d n)
      (by rw [atIteration_drawAt]; exact hdata) (by rw [atIteration_drawAt]; exact hc)
      (.inr (by rw [atIteration_w]; omega)) (by rw [atIteration_w]; omega)
    obtain ⟨left, -, hpoll⟩ := pollData_reaches (d := d) hn hnone (by omega)
    rw [pollData_of_drainOnce_overrun hstored] at hpoll
    rw [waitAndDrain_of_pollData_overrun hpoll]
    exact ⟨_, rfl, overrunAt_eq s d n (n + 1) c loopBurstPos hcap, by rw [hcap]; exact step_fault rfl⟩
  · rintro hv rfl hcap
    have hstored := finalDrain_overruns (d := d) (m := c) (endedAt s d n) (by rw [endedAt_drawAt]; exact hc)
      (.inr (show 4 * ((drainedWords s (n + 1)).length + c) ≤ _ by omega))
      (show d.bufCapacity < 4 * ((drainedWords s (n + 1)).length + c) + 4 by omega)
    have hpoll := pollData_finished (d := d) hn hnone (by omega) hv
    rw [hstored] at hpoll
    rw [waitAndDrain_of_pollData_overrun hpoll]
    exact ⟨_, rfl, overrunAt_eq s d (n + 1) (n + 1) c finalBurstPos hcap, by rw [hcap]; exact step_fault rfl⟩

/-- Settles O27: a refusal records no fault, and neither does a poll that ends; a poll that overruns has read the word
at its index, and a drain writes no register. -/
theorem overrunLeavesNoExitClear : Obligations.OverrunLeavesNoExitClear := by
  intro s t d f hs hexec hfault
  obtain ⟨-, hmax, -⟩ := legal_bounds hs.legal
  rw [exec_waitAndDrain_eq hs] at hexec
  obtain rfl := Host.Outcome.next.inj hexec
  split at hfault
  · rename_i hd
    rw [if_pos hd]
    rcases waitAndDrain_spec d s hmax with ⟨t, o, es, hrun, hend⟩ | ⟨t, es, hrun, hover⟩
    · rw [hrun] at hfault
      cases (hend.keeps.fault.trans hs.fault).symm.trans hfault
    · rw [hrun] at hfault ⊢
      obtain ⟨as, v, rfl⟩ := hover.poll.last
      have htrace : t.trace = s.trace ++ as ++ [.read .DAT v] := by rw [hover.ran.trace, List.append_assoc]
      exact ⟨Option.some.inj (hfault.symm.trans hover.poll.fault), hover.poll.past, as, v, htrace,
        fun r x hmem => hover.poll.write_notMem r x (List.mem_append_left _ hmem)⟩
  · cases hs.fault.symm.trans hfault

end Sys2Proof.Machine
end

section
/-! Everything an instruction can do (00_scope.md R6): a refusal, or the run of its own stages. -/

namespace Sys2Proof.Machine

/-! ### EXECUTE -/

/-- The five ways in which an EXECUTE whose descriptors are accepted ends (43_orchestrator.md R160 to R165). The
clears come first; then the stages, each from the state the one before left. -/
inductive ExecuteRan (cmd : CommandDesc) (x : State) : Option DataDesc → State → Prop where
  | plain {y : State} {c : CommandOutcome} {es : List Event} (command : CommandRan cmd (clearAllStatus x) y c es) :
    ExecuteRan cmd x none (finishExecute { final := c.status, cmd := some c, data := none } y)
  | write {d : DataDesc} :
    ExecuteRan cmd x (some d)
      (finishExecute { final := .unsupported, cmd := none, data := some .unsupported } (clearAllStatus x))
  | armFailed {d : DataDesc} {y : State} {a : OutcomeKind} {as : List Event} (arm : ArmRan d (clearAllStatus x) y as)
    (checks : (readsOf .DSTA as).length ≤ x.cfg.armRetryMax + 1) (failed : a ≠ .success) :
    ExecuteRan cmd x (some d) (finishExecute { final := a, cmd := none, data := some a } y)
  | ended {d : DataDesc} {y z u : State} {c : CommandOutcome} {o : OutcomeKind} {as cs ws : List Event}
    (read : d.dir = .read) (readable : d.readable x.cfg = true) (arm : ArmRan d (clearAllStatus x) y as)
    (checks : (readsOf .DSTA as).length ≤ x.cfg.armRetryMax + 1) (command : CommandRan cmd y z c cs)
    (wait : WaitEnded d z u o ws) :
    ExecuteRan cmd x (some d) (finishExecute { final := o, cmd := some c, data := some o } u)
  | overran {d : DataDesc} {y z u : State} {c : CommandOutcome} {as cs ws : List Event}
    (read : d.dir = .read) (readable : d.readable x.cfg = true) (arm : ArmRan d (clearAllStatus x) y as)
    (checks : (readsOf .DSTA as).length ≤ x.cfg.armRetryMax + 1) (command : CommandRan cmd y z c cs)
    (wait : WaitOverran d z u ws) :
    ExecuteRan cmd x (some d) { u with stack := executeAfterWait :: u.stack }

/-- The stages of EXECUTE with a read descriptor. -/
theorem executeData_ran {cmd : CommandDesc} {d : DataDesc} {x : State} (hx : x.cfg.legal = true)
    (hdir : d.dir = .read) (hd : d.readable x.cfg = true) :
    ExecuteRan cmd x (some d) (executeData cmd d (clearAllStatus x)) := by
  obtain ⟨hcmdMax, hdataMax, -⟩ := legal_bounds hx
  obtain ⟨as, harm, hchecks, ho⟩ := armTransfer_spec d (clearAllStatus x) hdir
  by_cases hsuccess : (armTransfer d (clearAllStatus x)).1 = .success
  · have hycfg := harm.keeps.cfg
    obtain ⟨cs, hcommand⟩ := sendCommand_spec cmd (armTransfer d (clearAllStatus x)).2
      (by rw [hycfg]; exact hcmdMax)
    rw [executeData_of_arm_success cmd (Prod.ext hsuccess rfl)]
    rcases waitAndDrain_spec d (sendCommand cmd (armTransfer d (clearAllStatus x)).2).2
      (by rw [hcommand.keeps.cfg, hycfg]; exact hdataMax) with ⟨u, o, ws, hwait, hend⟩ | ⟨u, ws, hwait, hover⟩
    · rw [executeWait_of_ok _ hwait]
      exact .ended hdir hd harm hchecks hcommand hend
    · rw [executeWait_of_overrun _ hwait]
      exact .overran hdir hd harm hchecks hcommand hover
  · rw [executeData_of_arm_failed cmd rfl hsuccess]
    exact .armFailed harm hchecks hsuccess

/-- Everything the body of EXECUTE can do. -/
theorem executeBody_ran (cmd : CommandDesc) (data : Option DataDesc) {x : State} (hx : x.cfg.legal = true) :
    (∃ r, executeBody cmd data x = refuseInCall r x) ∨ ExecuteRan cmd x data (executeBody cmd data x) := by
  rcases executeBody_refused_or_accepted cmd data x with hrefused | ⟨hcmd, hdata⟩
  · exact .inl hrefused
  · rw [executeBody_accepted x cmd data hcmd hdata]
    cases data with
    | none =>
      obtain ⟨es, hcommand⟩ := sendCommand_spec cmd (clearAllStatus x) (legal_bounds hx).1
      exact .inr (.plain hcommand)
    | some d =>
      cases hdir : d.dir with
      | write => exact .inr (by simpa only [executeData_write cmd hdir] using .write)
      | read => exact .inr (executeData_ran hx hdir (by rwa [← DataDesc.accepted_of_read x.cfg hdir]))

/-! ### Every instruction -/

/-- The register and the word of a control-word row (30_encoding.md R72, R73, R75, R76). -/
def controlWrite (c : Config) : Instr → Option (Reg × Word)
  | .cconNoresp index => some (.CCON, cconWord c.layout index.toNat false false)
  | .cconShort index => some (.CCON, cconWord c.layout index.toNat true false)
  | .cconLong index => some (.CCON, cconWord c.layout index.toNat true true)
  | .dconRead wide blknum => some (.DCON, dconReadWord c.layout blknum.toNat wide)
  | .dconStop => some (.DCON, c.dconStopValue)
  | _ => none

/-- The instructions that write no record but the log, from s. -/
inductive Logged (s : State) : Instr → State → Prop where
  | resetEngine : Logged s .resetEngine (handBack .done (delay .settleDelay (controllerReset s)))
  | calcDivider {fRef f : Nat} : Logged s (.calcDivider fRef f) (handBack (.divider (calcDivider fRef f)) s)
  | armWrite {d : DataDesc} : Logged s (.armTransfer d) (handBack (.transfer .unsupported) s)
  | clearAllStatus : Logged s .clearAllStatus (handBack .done (clearAllStatus s))
  | controllerReset : Logged s .controllerReset (handBack .done (controllerReset s))
  | issueStop : Logged s .issueStop (handBack .done (issueStop s))
  | controlWord {i : Instr} {r : Reg} {v : Word} (row : controlWrite s.cfg i = some (r, v)) :
    Logged s i (regWrite r v s)

/-- Everything an instruction that is not refused can do from s. -/
inductive Executed (s : State) : Instr → State → Prop where
  | logged {i : Instr} {t : State} (logged : Logged s i t) : Executed s i t
  | initEngine :
    Executed s .initEngine (handBack .done { regWrite .IMSK 0#32 (bringUp s) with initialized := true })
  | clockOff (init : s.initialized = true) : Executed s (.setClock 0) (handBack .done (disableClock s))
  | clockOn {f : Nat} (init : s.initialized = true) (on : f ≠ 0) :
    Executed s (.setClock f) (handBack .done (enableClock f s))
  | execute {cmd : CommandDesc} {data : Option DataDesc} {t : State} (init : s.initialized = true)
    (ran : ExecuteRan cmd (inExecute s.result s) data t) : Executed s (.execute cmd data) t
  | sendCommand {cmd : CommandDesc} {t : State} {c : CommandOutcome} {es : List Event}
    (ran : CommandRan cmd s t c es) : Executed s (.sendCommand cmd) (handBack (.command c) t)
  | armTransfer {d : DataDesc} {t : State} {a : OutcomeKind} {es : List Event} (read : d.dir = .read)
    (ran : ArmRan d s t es) (checks : (readsOf .DSTA es).length ≤ s.cfg.armRetryMax + 1) :
    Executed s (.armTransfer d) (handBack (.transfer a) t)
  | waitEnded {d : DataDesc} {t : State} {o : OutcomeKind} {es : List Event} (readable : d.readable s.cfg = true)
    (ran : WaitEnded d s t o es) : Executed s (.waitAndDrain d) (handBack (.transfer o) t)
  | waitOverran {d : DataDesc} {t : State} {es : List Event} (readable : d.readable s.cfg = true)
    (ran : WaitOverran d s t es) : Executed s (.waitAndDrain d) t

theorem executed_sendCommand {s : State} (hs : s.Ready) {cmd : CommandDesc} :
    Executed s (.sendCommand cmd) (handBack (.command (sendCommand cmd s).1) (sendCommand cmd s).2) := by
  obtain ⟨es, hran⟩ := sendCommand_spec cmd s (legal_bounds hs.legal).1
  exact .sendCommand hran

theorem executed_armTransfer {s : State} {d : DataDesc} :
    Executed s (.armTransfer d) (handBack (.transfer (armTransfer d s).1) (armTransfer d s).2) := by
  cases hdir : d.dir with
  | write =>
    rw [armTransfer_write d s hdir]
    exact .logged .armWrite
  | read =>
    obtain ⟨es, hran, hchecks, -⟩ := armTransfer_spec d s hdir
    exact .armTransfer hdir hran hchecks

theorem executed_waitAndDrain {s : State} (hs : s.Ready) {d : DataDesc} (hd : d.readable s.cfg = true) :
    Executed s (.waitAndDrain d) (waitAndDrain d s).handedBack := by
  rcases waitAndDrain_spec d s (legal_bounds hs.legal).2.1 with ⟨t, o, es, hwait, hran⟩ | ⟨t, es, hwait, hran⟩
  · rw [hwait]
    exact .waitEnded hd hran
  · rw [hwait]
    exact .waitOverran hd hran

/-- A next state of an instruction is a refusal's, or one of an engine that was ready and ran it. -/
theorem exec_next_ready {i : Instr} {s t : State} (h : exec i s = .next t) : (∃ r, t = refuse r s) ∨ s.Ready := by
  rcases exec_call i s with ⟨b, body, hi⟩ | ⟨body, hi⟩ <;> rw [hi] at h
  · exact (enter_hostCall_next h).imp_right fun hran => hran.1
  · exact (enter_internalCall_next h).imp_right fun hran => hran.1

/-- The start of a host operation on a ready engine, and its end: no trace of the call is left. -/
theorem hostCall_returns {s : State} (hs : s.Ready) {b : Bool} {body f : State → State} {r : CallResult}
    {t : State} (h : enter s (hostCall b body) = .next t)
    (hbody : body { s with inCall := true } = hostReturn r (f s)) (hf : (f s).inCall = s.inCall) :
    (∃ e, t = refuse e s) ∨ (b = true → s.initialized = true) ∧ t = handBack r (f s) := by
  rcases enter_hostCall_next h with hrefused | ⟨-, hi, rfl⟩
  · exact .inl hrefused
  · exact .inr ⟨hi, hbody.trans (handBack_eq_hostReturn r (hf.trans hs.inCall)).symm⟩

theorem exec_next_initEngine {s t : State} (hs : s.Ready) (h : exec .initEngine s = .next t) :
    (∃ r, t = refuse r s) ∨ Executed s .initEngine t := by
  cases hi : s.initialized with
  | true =>
    obtain rfl := Host.Outcome.next.inj ((initializeMasksInterruptsOnce s hs).2 hi |>.symm.trans h)
    exact .inl ⟨_, rfl⟩
  | false =>
    refine (hostCall_returns hs (f := fun s => { regWrite .IMSK 0#32 (bringUp s) with initialized := true }) h
      (if_neg (by rw [hi]; exact Bool.false_ne_true)) rfl).imp_right ?_
    rintro ⟨-, rfl⟩
    exact .initEngine

theorem exec_next_resetEngine {s t : State} (hs : s.Ready) (h : exec .resetEngine s = .next t) :
    (∃ r, t = refuse r s) ∨ Executed s .resetEngine t := by
  refine (hostCall_returns hs (f := fun s => delay .settleDelay (controllerReset s)) h rfl rfl).imp_right ?_
  rintro ⟨-, rfl⟩
  exact .logged .resetEngine

theorem exec_next_setClock {s t : State} {f : Nat} (hs : s.Ready) (h : exec (.setClock f) s = .next t) :
    (∃ r, t = refuse r s) ∨ Executed s (.setClock f) t := by
  by_cases hf : f = 0
  · subst hf
    refine (hostCall_returns hs (f := disableClock) h rfl rfl).imp_right ?_
    rintro ⟨hi, rfl⟩
    exact .clockOff (hi rfl)
  · refine (hostCall_returns hs (f := enableClock f) h (by rw [if_neg hf]; rfl) rfl).imp_right ?_
    rintro ⟨hi, rfl⟩
    exact .clockOn (hi rfl) hf

theorem exec_next_execute {s t : State} {cmd : CommandDesc} {data : Option DataDesc} (hs : s.Ready)
    (h : exec (.execute cmd data) s = .next t) :
    (∃ r, t = refuse r s) ∨ Executed s (.execute cmd data) t := by
  rcases enter_hostCall_next h with hrefused | ⟨-, hi, rfl⟩
  · exact .inl hrefused
  · rcases executeBody_ran cmd data (x := inExecute s.result s) hs.legal with ⟨r, hrefused⟩ | hran
    · exact .inl ⟨r, hrefused.trans (refuseInCall_inExecute hs r s.result)⟩
    · exact .inr (.execute (hi rfl) hran)

/-- Everything an instruction can do. -/
theorem exec_next_cases {i : Instr} {s t : State} (h : exec i s = .next t) :
    (∃ r, t = refuse r s) ∨ s.Ready ∧ Executed s i t := by
  rcases exec_next_ready h with hrefused | hs
  · exact .inl hrefused
  suffices hexec : (∃ r, t = refuse r s) ∨ Executed s i t from hexec.imp_right fun hran => ⟨hs, hran⟩
  have ran {y : State} (hy : exec i s = .next y) : t = y := Host.Outcome.next.inj (h.symm.trans hy)
  cases i with
  | initEngine => exact exec_next_initEngine hs h
  | resetEngine => exact exec_next_resetEngine hs h
  | setClock f => exact exec_next_setClock hs h
  | execute cmd data => exact exec_next_execute hs h
  | calcDivider fRef f =>
    obtain rfl := ran (enter_internalCall_ready hs _)
    exact .inr (.logged .calcDivider)
  | sendCommand cmd =>
    obtain rfl := ran (exec_sendCommand_eq hs cmd)
    split
    · exact .inr (executed_sendCommand hs)
    · exact .inl ⟨_, rfl⟩
  | armTransfer d =>
    obtain rfl := ran (exec_armTransfer_eq hs d)
    split
    · exact .inr executed_armTransfer
    · exact .inl ⟨_, rfl⟩
  | waitAndDrain d =>
    obtain rfl := ran (exec_waitAndDrain_eq hs d)
    split
    next hd => exact .inr (executed_waitAndDrain hs (Bool.and_eq_true_iff.mp hd).2)
    next => exact .inl ⟨_, rfl⟩
  | clearAllStatus =>
    obtain rfl := ran (exec_clearAllStatus_ready hs)
    exact .inr (.logged .clearAllStatus)
  | controllerReset =>
    obtain rfl := ran (exec_controllerReset_ready hs)
    exact .inr (.logged .controllerReset)
  | issueStop =>
    obtain rfl := ran (exec_issueStop_ready hs)
    exact .inr (.logged .issueStop)
  | cconNoresp | cconShort | cconLong | dconRead | dconStop =>
    obtain rfl := ran (enter_controlWord_ready hs _ _)
    exact .inr (.logged (.controlWord rfl))

end Sys2Proof.Machine
end

section
/-! What every instruction does to the environment and to memory: its events and their reads (00_scope.md R9, R18),
the bounds of its loops (70_reset_and_hazards.md R214), its accesses and its stores (20_memory.md R52, R56, R59). -/

namespace Sys2Proof.Machine

/-! ### What a stage of an instruction does -/

/-- How often SEND_COMMAND may read a status register. -/
def commandReads (c : Config) : Reg → Nat
  | .CSTA => c.cmdPollMax
  | _ => 0

/-- How often ARM_TRANSFER may. -/
def armReads (c : Config) : Reg → Nat
  | .DSTA => c.armRetryMax + 1
  | _ => 0

/-- How often WAIT_AND_DRAIN may. -/
def waitReads (c : Config) : Reg → Nat
  | .DSTA => c.dataPollMax
  | .FSTA => c.dataPollMax + 1
  | _ => 0

/-- How often an instruction may read a status register (R214). -/
def statusReads (c : Config) : Instr → Reg → Nat
  | .execute _ _ => armReads c + commandReads c + waitReads c
  | .sendCommand _ => commandReads c
  | .armTransfer _ => armReads c
  | .waitAndDrain _ => waitReads c
  | _ => 0

/-- The registers the engine polls. -/
def IsStatus (r : Reg) : Prop := r = .CSTA ∨ r = .DSTA ∨ r = .FSTA

theorem readsOf_eq_nil {r : Reg} {es : List Event} (h : ∀ v, Event.read r v ∉ es) : readsOf r es = [] := by
  induction es with
  | nil => rfl
  | cons e es ih =>
    have hes : readsOf r es = [] := ih fun v hv => h v (List.mem_cons_of_mem _ hv)
    cases e with
    | read r' v =>
      have hne : r' ≠ r := fun heq => h v (by rw [heq]; exact List.mem_cons_self)
      rw [readsOf, if_neg hne, hes]
    | write | store | delay | bringUp => rw [readsOf, hes]

/-- From s to t a part of the instruction i, run under the parameters c, produced the events es: its reads are the
answers in order; each event is one of i's own; it stores within the buffer of i and changes no byte outside it; it
reads each status register n times at most, and for each read of FSTA at most a FIFO's words. -/
structure Did (c : Config) (i : Instr) (n : Reg → Nat) (s t : State) (es : List Event) : Prop where
  ran : Ran s t es
  cfg : s.cfg = c ∧ t.cfg = c
  own : ∀ e ∈ es, mayEmit c i e = true
  stores : ∀ k v, Event.store k v ∈ es → ∃ d, bufferOf i = some d ∧ d.readable c = true ∧ 4 * k + 4 ≤ d.bufCapacity
  mem : ∀ a, (∀ d, bufferOf i = some d → a < d.buf ∨ d.buf + d.bufCapacity ≤ a) → t.mem.read a = s.mem.read a
  status : ∀ r, IsStatus r → (readsOf r es).length ≤ n r
  words : ∀ b, (∀ v, fifoWords c.layout v ≤ b) → (readsOf .DAT es).length ≤ b * (readsOf .FSTA es).length

variable {c : Config} {i : Instr} {n m : Reg → Nat} {s t u : State} {es as bs : List Event}

theorem Did.trans (h1 : Did c i n s t as) (h2 : Did c i m t u bs) : Did c i (n + m) s u (as ++ bs) where
  ran := h1.ran.trans h2.ran
  cfg := ⟨h1.cfg.1, h2.cfg.2⟩
  own := fun e he => (List.mem_append.mp he).elim (h1.own e) (h2.own e)
  stores := fun k v he => (List.mem_append.mp he).elim (h1.stores k v) (h2.stores k v)
  mem := fun a ha => (h2.mem a ha).trans (h1.mem a ha)
  status := fun r hr => by
    rw [readsOf_append, List.length_append]
    exact Nat.add_le_add (h1.status r hr) (h2.status r hr)
  words := fun b hb => by
    rw [readsOf_append, readsOf_append, List.length_append, List.length_append, Nat.mul_add]
    exact Nat.add_le_add (h1.words b hb) (h2.words b hb)

/-- Records that `Did` does not speak of may change. -/
theorem Did.congr (h : Did c i n s t es) (hran : Ran s u es) (hcfg : u.cfg = t.cfg) (hmem : u.mem = t.mem) :
    Did c i n s u es :=
  ⟨hran, ⟨h.cfg.1, hcfg.trans h.cfg.2⟩, h.own, h.stores, fun a ha => hmem ▸ h.mem a ha, h.status, h.words⟩

/-- A run of events that polls nothing and stores nothing. -/
theorem Did.of_quiet (hran : Ran s t es) (hs : s.cfg = c) (hcfg : t.cfg = s.cfg) (hmem : t.mem = s.mem)
    (hown : ∀ e ∈ es, mayEmit c i e = true) (hstore : ∀ k v, Event.store k v ∉ es)
    (hreads : ∀ r, IsStatus r ∨ r = .DAT → readsOf r es = []) : Did c i 0 s t es where
  ran := hran
  cfg := ⟨hs, hcfg.trans hs⟩
  own := hown
  stores := fun k v he => absurd he (hstore k v)
  mem := fun a _ => by rw [hmem]
  status := fun r hr => by rw [hreads r (.inl hr)]; exact Nat.zero_le _
  words := fun b _ => by rw [hreads .DAT (.inr rfl)]; exact Nat.zero_le _

theorem CommandOwn.commandEvent {d : CommandDesc} {e : Event} (h : CommandOwn c d e) : commandEvent c d e = true := by
  rcases h with ⟨v, rfl⟩ | ⟨j, v, rfl⟩ | rfl | rfl | rfl | rfl
  · rfl
  · unfold rspReg
    split <;> rfl
  · rfl
  · simp [Machine.commandEvent, CommandDesc.carg, zext32]
  · simp [Machine.commandEvent]
  · simp [Machine.commandEvent]

theorem ArmOwn.armEvent {d : DataDesc} {e : Event} (h : ArmOwn c d e) : armEvent c d e = true := by
  rcases h with ⟨v, rfl⟩ | ⟨v, rfl⟩ | ⟨v, rfl⟩ | rfl | rfl | rfl | rfl | rfl <;> simp [Machine.armEvent, zext32]

theorem Drained.event_own {d : DataDesc} (h : Drained d s t es) : ∀ e ∈ es, waitEvent c e = true := by
  intro e he
  rcases h.own e he with ⟨r, v, rfl, hr⟩ | ⟨k, v, rfl, -, -⟩ | rfl
  · rcases hr with rfl | rfl | rfl <;> rfl
  · rfl
  · rfl

theorem CommandRan.did {d : CommandDesc} {o : CommandOutcome} (h : CommandRan d s t o es) (hs : s.cfg = c)
    (hi : ∀ e, commandEvent c d e = true → mayEmit c i e = true) : Did c i (commandReads c) s t es where
  ran := h.ran
  cfg := ⟨hs, h.keeps.cfg.trans hs⟩
  own := fun e he => hi e (hs ▸ h.own e he).commandEvent
  stores := fun k v he => by
    rcases h.own _ he with ⟨_, heq⟩ | ⟨_, _, heq⟩ | heq | heq | heq | heq <;> cases heq
  mem := fun a _ => by rw [h.mem]
  status := fun r hr => by
    rcases hr with rfl | rfl | rfl
    · exact hs ▸ h.csta
    · rw [h.dsta]; exact Nat.zero_le _
    · rw [h.fsta]; exact Nat.zero_le _
  words := fun b _ => by rw [h.dat]; exact Nat.zero_le _

theorem ArmRan.did {d : DataDesc} (h : ArmRan d s t es) (hs : s.cfg = c)
    (hchecks : (readsOf .DSTA es).length ≤ c.armRetryMax + 1)
    (hi : ∀ e, armEvent c d e = true → mayEmit c i e = true) : Did c i (armReads c) s t es where
  ran := h.ran
  cfg := ⟨hs, h.keeps.cfg.trans hs⟩
  own := fun e he => hi e (hs ▸ h.own e he).armEvent
  stores := fun k v he => by
    rcases h.own _ he with ⟨_, heq⟩ | ⟨_, heq⟩ | ⟨_, heq⟩ | heq | heq | heq | heq | heq <;> cases heq
  mem := fun a _ => by rw [h.mem]
  status := fun r hr => by
    rcases hr with rfl | rfl | rfl
    · rw [h.csta]; exact Nat.zero_le _
    · exact hchecks
    · rw [h.fsta]; exact Nat.zero_le _
  words := fun b _ => by rw [h.dat]; exact Nat.zero_le _

theorem Drained.csta {d : DataDesc} (h : Drained d s t es) : readsOf .CSTA es = [] := by
  refine readsOf_eq_nil fun v he => ?_
  rcases h.own _ he with ⟨r, _, heq, hr⟩ | ⟨_, _, heq, -, -⟩ | heq
  · obtain ⟨rfl, -⟩ := Event.read.inj heq
    simp at hr
  · cases heq
  · cases heq

/-- The poll of WAIT_AND_DRAIN, from s with the counters set. -/
theorem Drained.did {d : DataDesc} (h : Drained d { s with w := 0, i := 1 } t es)
    (hbounds : PollBounds s es s.cfg.dataPollMax) (hs : s.cfg = c) (hd : d.readable c = true)
    (hbuf : bufferOf i = some d) (hi : ∀ e, waitEvent c e = true → mayEmit c i e = true) :
    Did c i (waitReads c) s t es where
  ran := h.ran.congr_left rfl rfl rfl
  cfg := ⟨hs, h.keeps.cfg.trans hs⟩
  own := fun e he => hi e (h.event_own e he)
  stores := fun k v he => by
    obtain ⟨-, hcap, -, -⟩ := h.buffer rfl
    rcases h.own _ he with ⟨_, _, heq, _⟩ | ⟨k', _, heq, -, hk⟩ | heq
    · cases heq
    · obtain ⟨rfl, -⟩ := Event.store.inj heq
      exact ⟨d, hbuf, hd, by omega⟩
    · cases heq
  mem := fun a ha => by
    obtain ⟨-, hcap, -, hother⟩ := h.buffer rfl
    have ha := ha d hbuf
    refine hother a ?_
    simp only [wordAddr]
    omega
  status := fun r hr => by
    rcases hr with rfl | rfl | rfl
    · rw [h.csta]; exact Nat.zero_le _
    · exact hs ▸ hbounds.dsta
    · exact hs ▸ hbounds.fsta
  words := fun b hb => hbounds.words b (hs ▸ hb)

/-! ### Every instruction -/

theorem clearEvents_quiet (c : Config) (r : Reg) : readsOf r (clearEvents c) = [] :=
  readsOf_eq_nil fun v he => by simp [clearEvents] at he

/-- CLEAR_ALL_STATUS, by itself and in EXECUTE. -/
theorem clearAllStatus_did (hs : s.cfg = c) (hi : ∀ e ∈ clearEvents c, mayEmit c i e = true) :
    Did c i 0 s (clearAllStatus s) (clearEvents c) := by
  subst hs
  exact .of_quiet (((ran_regWrite .CSTA _ s).trans (ran_regWrite .DSTA _ _)).trans (ran_regWrite .FSTA _ _)) rfl rfl rfl
    hi (by simp [clearEvents]) fun r _ => clearEvents_quiet _ r

/-- The exit clears of WAIT_AND_DRAIN. -/
theorem exitClears_did (hs : s.cfg = c) (hi : ∀ e, waitEvent c e = true → mayEmit c i e = true) :
    Did c i 0 s (exitClears s) [.write .FSTA c.fstaClear, .write .DSTA c.dstaClear] := by
  subst hs
  exact .of_quiet (ran_exitClears s) rfl rfl rfl (by simp [hi, waitEvent]) (by simp) (by simp [readsOf])

theorem WaitEnded.did {d : DataDesc} {o : OutcomeKind} (h : WaitEnded d s t o es) (hs : s.cfg = c)
    (hd : d.readable c = true) (hbuf : bufferOf i = some d)
    (hi : ∀ e, waitEvent c e = true → mayEmit c i e = true) :
    Did c i (waitReads c) s t (es ++ [.write .FSTA c.fstaClear, .write .DSTA c.dstaClear]) := by
  obtain ⟨u, hdrain, -, rfl⟩ := h.poll
  exact (hdrain.did h.bounds hs hd hbuf hi).trans (exitClears_did (hdrain.keeps.cfg.trans hs) hi)

theorem WaitOverran.did {d : DataDesc} (h : WaitOverran d s t es) (hs : s.cfg = c)
    (hd : d.readable c = true) (hbuf : bufferOf i = some d)
    (hi : ∀ e, waitEvent c e = true → mayEmit c i e = true) : Did c i (waitReads c) s t es :=
  h.poll.toDrained.did h.bounds hs hd hbuf hi

/-- A part that may read a status register less often. -/
theorem Did.mono (h : Did c i n s t es) (hn : ∀ r, n r ≤ m r) : Did c i m s t es :=
  { h with status := fun r hr => (h.status r hr).trans (hn r) }

theorem Did.finishExecute (h : Did c i n s t es) (o : TransactionOutcome) : Did c i n s (finishExecute o t) es :=
  h.congr (h.ran.congr rfl rfl rfl) rfl rfl

theorem Did.handBack (h : Did c i n s t es) (r : CallResult) : Did c i n s (handBack r t) es :=
  h.congr (h.ran.congr rfl rfl rfl) rfl rfl

theorem Did.onStack (h : Did c i n s t es) (st : List Pos) : Did c i n s { t with stack := st } es :=
  h.congr (h.ran.congr rfl rfl rfl) rfl rfl

/-- The stages of EXECUTE with a read descriptor, up to the drain. -/
theorem Did.stages {cmd : CommandDesc} {d : DataDesc} {y z : State} {o : CommandOutcome} (hs : s.cfg = c)
    (harm : ArmRan d (clearAllStatus s) y as) (hchecks : (readsOf .DSTA as).length ≤ c.armRetryMax + 1)
    (hcommand : CommandRan cmd y z o bs) (hclear : ∀ e ∈ clearEvents c, mayEmit c i e = true)
    (ha : ∀ e, armEvent c d e = true → mayEmit c i e = true)
    (hc : ∀ e, commandEvent c cmd e = true → mayEmit c i e = true) :
    Did c i (0 + armReads c + commandReads c) s z (clearEvents c ++ as ++ bs) := by
  have hy := harm.did hs hchecks ha
  exact ((clearAllStatus_did hs hclear).trans hy).trans (hcommand.did hy.cfg.2 hc)

theorem ExecuteRan.did {cmd : CommandDesc} {data : Option DataDesc} (h : ExecuteRan cmd s data t) (hs : s.cfg = c) :
    ∃ es, Did c (.execute cmd data) (statusReads c (.execute cmd data)) s t es := by
  have hclear : ∀ e ∈ clearEvents c, mayEmit c (.execute cmd data) e = true := fun e he => by simp [mayEmit, he]
  have hcommand : ∀ e, commandEvent c cmd e = true → mayEmit c (.execute cmd data) e = true := fun e he => by
    simp [mayEmit, he]
  have harm : ∀ d e, data = some d → armEvent c d e = true → mayEmit c (.execute cmd data) e = true := by
    rintro d e rfl he
    simp [mayEmit, he]
  have hwait : ∀ d e, data = some d → d.dir = .read → waitEvent c e = true →
      mayEmit c (.execute cmd data) e = true := by
    rintro d e rfl hdir he
    simp [mayEmit, he, hdir]
  have bounds (r : Reg) : statusReads c (.execute cmd data) r = armReads c r + commandReads c r + waitReads c r := rfl
  cases h with
  | plain command =>
    refine ⟨_, ((clearAllStatus_did hs hclear).trans (command.did hs hcommand)).finishExecute _ |>.mono fun r => ?_⟩
    rw [bounds, Pi.add_apply, Pi.zero_apply]
    omega
  | write =>
    exact ⟨_, (clearAllStatus_did hs hclear).finishExecute _ |>.mono fun r => Nat.zero_le _⟩
  | armFailed arm checks failed =>
    refine ⟨_, ((clearAllStatus_did hs hclear).trans
      (arm.did hs (hs ▸ checks) (harm _ · rfl))).finishExecute _ |>.mono fun r => ?_⟩
    rw [bounds, Pi.add_apply, Pi.zero_apply]
    omega
  | ended read readable arm checks command wait =>
    have hz := Did.stages hs arm (hs ▸ checks) command hclear (harm _ · rfl) hcommand
    refine ⟨_, (hz.trans (wait.did hz.cfg.2 (hs ▸ readable) rfl (hwait _ · rfl read))).finishExecute _ |>.mono
      fun r => ?_⟩
    rw [bounds, Pi.add_apply, Pi.add_apply, Pi.add_apply, Pi.zero_apply, Nat.zero_add]
  | overran read readable arm checks command wait =>
    have hz := Did.stages hs arm (hs ▸ checks) command hclear (harm _ · rfl) hcommand
    have hu := hz.trans (wait.did hz.cfg.2 (hs ▸ readable) rfl (hwait _ · rfl read))
    refine ⟨_, (hu.onStack _).mono fun r => ?_⟩
    rw [bounds, Pi.add_apply, Pi.add_apply, Pi.add_apply, Pi.zero_apply, Nat.zero_add]

/-- The instructions that neither poll nor store: their events, all quiet. -/
theorem Did.quiet (hran : Ran s t es) (hcfg : t.cfg = s.cfg) (hmem : t.mem = s.mem)
    (hown : ∀ e ∈ es, mayEmit s.cfg i e = true) (hstore : ∀ k v, Event.store k v ∉ es)
    (hreads : ∀ r, IsStatus r ∨ r = .DAT → readsOf r es = []) :
    ∃ es, Did s.cfg i (statusReads s.cfg i) s t es :=
  ⟨es, (Did.of_quiet hran rfl hcfg hmem hown hstore hreads).mono fun _ => Nat.zero_le _⟩

theorem readsOf_con {r : Reg} (hr : IsStatus r ∨ r = .DAT) (v w : Word) :
    readsOf r [.read .CON v, .write .CON w] = [] := by
  rcases hr with (rfl | rfl | rfl) | rfl <;> rfl

theorem Ran.handBack (h : Ran s t es) {r : CallResult} : Ran s (handBack r t) es := h.congr rfl rfl rfl

theorem ran_controllerReset (s : State) : Ran s (controllerReset s)
    [.read .CON s.draw, .write .CON (s.draw ||| s.cfg.layout.con.SDRESET.mask)] := ran_regSet .CON _ s

theorem ran_disableClock (s : State) : Ran s (disableClock s)
    [.read .CON s.draw, .write .CON (s.draw &&& ~~~s.cfg.layout.con.ENCLK.mask)] :=
  (ran_regClr .CON _ s).congr rfl rfl rfl

theorem ran_enableClock (f : Nat) (s : State) : Ran s (enableClock f s)
    ([.write .PRE (zext32 (calcDivider s.cfg.fRef f))] ++
      [.read .CON s.draw, .write .CON (s.draw ||| s.cfg.layout.con.ENCLK.mask)]) := by
  have hran := (ran_regWrite .PRE (zext32 (calcDivider s.cfg.fRef f)) s).trans
    (ran_regSet .CON s.cfg.layout.con.ENCLK.mask _)
  exact hran.congr (by simp [enableClock]) (by simp [enableClock]) (by simp [enableClock])

theorem zext32_calcDivider_le (fRef f : Nat) : (zext32 (calcDivider fRef f)).toNat ≤ 255 := by
  rw [zext32, BitVec.toNat_ofNat, calcDivider_eq_min]
  exact (Nat.mod_le _ _).trans (Nat.min_le_left _ _)

theorem controlWrite_own {r : Reg} {v : Word} (h : controlWrite c i = some (r, v)) :
    mayEmit c i (.write r v) = true := by
  cases i with
  | cconNoresp | cconShort | cconLong | dconRead | dconStop =>
    obtain ⟨rfl, rfl⟩ := Prod.mk.inj (Option.some.inj h)
    exact beq_self_eq_true _
  | _ => cases h

theorem Logged.did (h : Logged s i t) : ∃ es, Did s.cfg i (statusReads s.cfg i) s t es := by
  cases h with
  | resetEngine =>
    refine Did.quiet ((ran_controllerReset s).trans (ran_delay .settleDelay _)).handBack (by simp) (by simp)
      (by simp [mayEmit]) (by simp) fun r hr => ?_
    rw [readsOf_append, readsOf_con hr]
    rfl
  | calcDivider | armWrite =>
    exact Did.quiet (Ran.refl s).handBack rfl rfl (by simp) (by simp) (by simp [readsOf])
  | clearAllStatus => exact ⟨_, (clearAllStatus_did rfl fun e he => by simp [mayEmit, he]).handBack _⟩
  | controllerReset =>
    exact Did.quiet (ran_controllerReset s).handBack rfl rfl (by simp [mayEmit]) (by simp)
      fun r hr => readsOf_con hr _ _
  | issueStop =>
    exact Did.quiet (ran_regWrite .DCON _ s).handBack rfl rfl (by simp [mayEmit]) (by simp) (by simp [readsOf])
  | controlWord row =>
    exact Did.quiet (ran_regWrite _ _ s) rfl rfl (by simpa using controlWrite_own row) (by simp) (by simp [readsOf])

theorem Executed.did (h : Executed s i t) : ∃ es, Did s.cfg i (statusReads s.cfg i) s t es := by
  cases h with
  | logged logged => exact logged.did
  | initEngine =>
    exact Did.quiet (((ran_bringUp s).trans (ran_regWrite .IMSK 0#32 _)).congr rfl rfl rfl) rfl rfl
      (by simp [mayEmit]) (by simp) (by simp [readsOf])
  | clockOff init =>
    exact Did.quiet (ran_disableClock s).handBack rfl rfl (by simp [mayEmit]) (by simp) fun r hr => readsOf_con hr _ _
  | clockOn init on =>
    refine Did.quiet (ran_enableClock _ s).handBack (by simp [enableClock]) (by simp [enableClock])
      (by simp [mayEmit, on, zext32_calcDivider_le]) (by simp) fun r hr => ?_
    rw [readsOf_append, readsOf_con hr]
    rfl
  | execute init ran =>
    obtain ⟨es, hes⟩ := ran.did rfl
    exact ⟨es, { hes with ran := hes.ran.congr_left rfl rfl rfl }⟩
  | sendCommand ran => exact ⟨_, (ran.did rfl fun _ => id).handBack _⟩
  | armTransfer read ran checks =>
    exact ⟨_, (ran.did rfl checks fun e he => by simp [mayEmit, read, he]).handBack _⟩
  | waitEnded readable ran => exact ⟨_, (ran.did rfl readable rfl fun _ => id).handBack _⟩
  | waitOverran readable ran => exact ⟨_, ran.did rfl readable rfl fun _ => id⟩

/-- What every instruction does. -/
theorem exec_did (h : exec i s = .next t) : ∃ es, Did s.cfg i (statusReads s.cfg i) s t es := by
  rcases exec_next_cases h with ⟨r, rfl⟩ | ⟨-, hran⟩
  · exact Did.quiet (ran_of_same rfl rfl rfl) rfl rfl (by simp) (by simp) (by simp [readsOf])
  · exact hran.did

/-- Settles O51: what the stages read are the answers, in order. -/
theorem readsAreTheEnvironmentsAnswers : Obligations.ReadsAreTheEnvironmentsAnswers := by
  intro i s t h
  obtain ⟨es, hdid⟩ := exec_did h
  obtain ⟨htrace, hreads, hsupply, hdraws⟩ := hdid.ran
  exact ⟨es, htrace, hdraws, hsupply, hreads⟩

/-- Settles O52: each stage's events are among those of the instruction it is a stage of. -/
theorem instructionsTouchOnlyTheirRegisters : Obligations.InstructionsTouchOnlyTheirRegisters := by
  intro i s t h
  obtain ⟨es, hdid⟩ := exec_did h
  exact ⟨es, hdid.ran.trace, hdid.own⟩

/-- Settles O55: every word a drain stores is within the capacity. -/
theorem memoryOutsideTheBufferIsKept : Obligations.MemoryOutsideTheBufferIsKept := by
  intro i s t h
  obtain ⟨es, hdid⟩ := exec_did h
  exact hdid.mem

/-- One read of FSTA for each data iteration and one for the final drain (R142, R144). -/
theorem exec_waitAndDrain_pairs {d : DataDesc} (h : exec (.waitAndDrain d) s = .next t)
    (htrace : t.trace = s.trace ++ es) : (readsOf .FSTA es).length ≤ (readsOf .DSTA es).length + 1 := by
  have events {bs : List Event} (hran : Ran s t bs) : es = bs := List.append_cancel_left (htrace.symm.trans hran.trace)
  rcases exec_next_cases h with ⟨r, rfl⟩ | ⟨-, hran⟩
  · rw [events (ran_of_same rfl rfl rfl)]
    exact Nat.zero_le _
  · cases hran with
    | waitEnded _ ran =>
      rw [events (ran.ran.congr rfl rfl rfl)]
      simpa [readsOf] using ran.bounds.pairs
    | waitOverran _ ran =>
      rw [events ran.ran]
      exact ran.bounds.pairs
    | logged logged => cases logged with | controlWord row => cases row

/-- Under the default layout the FIFO holds 31 words at most (R37, R78). -/
theorem fifoWords_default_le (v : Word) : fifoWords Layout.s3c2440 v ≤ 31 := by
  have hcount : Layout.s3c2440.fsta.FFCNT.get v < 128 := Nat.mod_lt _ (by decide)
  unfold fifoWords
  omega

/-- Settles O53: the bounds of each stage's loops, added over the stages. -/
theorem loopsAreBounded : Obligations.LoopsAreBounded := by
  intro i s t h
  obtain ⟨es, hdid⟩ := exec_did h
  have hcsta := hdid.status .CSTA (.inl rfl)
  have hdsta := hdid.status .DSTA (.inr (.inl rfl))
  have hfsta := hdid.status .FSTA (.inr (.inr rfl))
  have hmax (r : Reg) : statusReads s.cfg i r ≤ armReads s.cfg r + commandReads s.cfg r + waitReads s.cfg r := by
    cases i <;> simp [statusReads] <;> omega
  have hcstaMax := hmax .CSTA
  have hdstaMax := hmax .DSTA
  have hfstaMax := hmax .FSTA
  simp only [armReads, commandReads, waitReads] at hcstaMax hdstaMax hfstaMax
  refine ⟨es, hdid.ran.trace, by omega, by omega, ?_, ?_, by omega, ?_, fun hlayout => ?_⟩
  · rintro d rfl
    exact hdsta
  · rintro d rfl
    exact hdsta
  · rintro d rfl
    exact exec_waitAndDrain_pairs h hdid.ran.trace
  · have hwords := hdid.words 31 fun v => by rw [hlayout]; exact fifoWords_default_le v
    exact ⟨hwords, by omega⟩

theorem regOff_default (r : Reg) :
    regOff Layout.s3c2440.off r % 4 = 0 ∧ regOff Layout.s3c2440.off r + 4 ≤ 0x44 := by
  cases r <;> decide

/-- Settles O54: a register access is at its offset from a base that is a multiple of 4, and a store at a word of an
accepted buffer. -/
theorem accessesAreAlignedWords : Obligations.AccessesAreAlignedWords := by
  intro i s t d hlayout hlegal h hbuf
  obtain ⟨-, -, -, -, hbase⟩ := legal_bounds hlegal
  obtain ⟨es, hdid⟩ := exec_did h
  have register (r : Reg) : regAddr s.cfg r % 4 = 0 ∧ s.cfg.regBase.toNat ≤ regAddr s.cfg r ∧
      regAddr s.cfg r + 4 ≤ s.cfg.regBase.toNat + 0x44 := by
    obtain ⟨halign, hlast⟩ := regOff_default r
    simp only [regAddr, hlayout]
    omega
  refine ⟨es, hdid.ran.trace, fun e he a ha => ?_⟩
  cases e with
  | read r v =>
    obtain rfl := Option.some.inj ha
    obtain ⟨halign, hfirst, hlast⟩ := register r
    exact ⟨rfl, halign, .inl ⟨r, v, .inl rfl, hfirst, hlast⟩, fun hend => hlast.trans hend⟩
  | write r v =>
    obtain rfl := Option.some.inj ha
    obtain ⟨halign, hfirst, hlast⟩ := register r
    exact ⟨rfl, halign, .inl ⟨r, v, .inr rfl, hfirst, hlast⟩, fun hend => hlast.trans hend⟩
  | store k w =>
    obtain rfl := Option.some.inj ha
    obtain ⟨b, hb, hreadable, hcap⟩ := hdid.stores k w he
    obtain rfl := hbuf b hb
    obtain ⟨-, -, -, -, -, -, halign, -, hend, -⟩ := (DataDesc.readable_iff _ _).mp hreadable
    have hword : wordAddr b k % 4 = 0 ∧ b.buf ≤ wordAddr b k ∧ wordAddr b k + 4 ≤ b.buf + b.bufCapacity := by
      simp only [wordAddr]
      omega
    obtain ⟨halign, hfirst, hlast⟩ := hword
    exact ⟨rfl, halign, .inr ⟨k, w, rfl, hb, hfirst, hlast⟩, fun _ => hlast.trans hend⟩
  | delay | bringUp => cases ha

end Sys2Proof.Machine
end

section
/-! The records each instruction leaves alone (10_state.md R20 to R51; 40_clock.md R105). -/

namespace Sys2Proof.Machine

/-- The records a stage of the data path or of the command path owns, kept by the instruction i unless i runs it. -/
structure StageRecords (i : Instr) (s t : State) : Prop where
  resp : (∀ c, i ≠ .sendCommand c) → t.resp = s.resp
  k : (∀ d, i ≠ .armTransfer d) → t.k = s.k
  drain : (∀ d, i ≠ .waitAndDrain d) → t.w = s.w ∧ t.mem = s.mem
  i : (∀ c, i ≠ .sendCommand c) → (∀ d, i ≠ .waitAndDrain d) → t.i = s.i

/-- The records of s that the instruction i keeps at t. A refusal mark, once set, is among them (60_exceptions.md
R185). -/
structure Frame (i : Instr) (s t : State) : Prop where
  cfg : t.cfg = s.cfg
  arrivals : t.arrivals = s.arrivals
  locals : t.locals = s.locals
  refusal : ∀ r, s.refusal = some r → t.refusal = some r
  initialized : i ≠ .initEngine → t.initialized = s.initialized
  started : s.initialized = true → t.initialized = true
  clk : (∀ f, i ≠ .setClock f) → t.clk = s.clk
  last : (∀ c d, i ≠ .execute c d) → t.last = s.last
  stack : (∀ c d, i ≠ .execute c d) → t.stack = s.stack
  stages : (∀ c d, i ≠ .execute c d) → StageRecords i s t
  call : t.fault = none → t.pc = s.pc ∧ t.stack = s.stack ∧ t.inCall = s.inCall

variable {i : Instr} {s t : State}

/-- What runs below a host operation keeps all but the records of its own stage. -/
theorem Frame.of_keeps (h : Keeps s t) (hpc : t.fault = none → t.pc = s.pc) (hstages : StageRecords i s t) :
    Frame i s t where
  cfg := h.cfg
  arrivals := h.arrivals
  locals := h.locals
  refusal := fun _ hr => h.refusal.trans hr
  initialized := fun _ => h.initialized
  started := fun hi => h.initialized.trans hi
  clk := fun _ => h.clk
  last := fun _ => h.last
  stack := fun _ => h.stack
  stages := fun _ => hstages
  call := fun hf => ⟨hpc hf, h.stack, h.inCall⟩

/-- From s to t only the trace, the answers taken and the result have changed. -/
def OnlyLogs (s t : State) : Prop :=
  ∃ trace supply draws result, t = { s with trace := trace, supply := supply, draws := draws, result := result }

theorem OnlyLogs.trans {u : State} (h1 : OnlyLogs s t) (h2 : OnlyLogs t u) : OnlyLogs s u := by
  obtain ⟨_, _, _, _, rfl⟩ := h1
  obtain ⟨_, _, _, _, rfl⟩ := h2
  exact ⟨_, _, _, _, rfl⟩

theorem onlyLogs_regRead (r : Reg) (s : State) : OnlyLogs s (regRead r s) := ⟨_, _, _, _, rfl⟩

theorem onlyLogs_regWrite (r : Reg) (v : Word) (s : State) : OnlyLogs s (regWrite r v s) := ⟨_, _, _, _, rfl⟩

theorem onlyLogs_delay (k : DelayKind) (s : State) : OnlyLogs s (delay k s) := ⟨_, _, _, _, rfl⟩

theorem onlyLogs_regSet (r : Reg) (m : Word) (s : State) : OnlyLogs s (regSet r m s) :=
  (onlyLogs_regRead r s).trans (onlyLogs_regWrite r _ _)

theorem onlyLogs_regClr (r : Reg) (m : Word) (s : State) : OnlyLogs s (regClr r m s) :=
  (onlyLogs_regRead r s).trans (onlyLogs_regWrite r _ _)

theorem OnlyLogs.handBack (h : OnlyLogs s t) (r : CallResult) : OnlyLogs s (handBack r t) :=
  h.trans ⟨_, _, _, _, rfl⟩

theorem onlyLogs_refl (s : State) : OnlyLogs s s := ⟨_, _, _, _, rfl⟩

theorem onlyLogs_clearAllStatus (s : State) : OnlyLogs s (clearAllStatus s) :=
  ((onlyLogs_regWrite .CSTA _ s).trans (onlyLogs_regWrite .DSTA _ _)).trans (onlyLogs_regWrite .FSTA _ _)

/-- SET_CLOCK's two accesses. -/
theorem onlyLogs_enabled (f : Nat) (s : State) : OnlyLogs s
    (regSet .CON s.cfg.layout.con.ENCLK.mask (regWrite .PRE (zext32 (calcDivider s.cfg.fRef f)) s)) :=
  (onlyLogs_regWrite .PRE _ s).trans (onlyLogs_regSet .CON _ _)

theorem OnlyLogs.frame (h : OnlyLogs s t) : Frame i s t := by
  obtain ⟨trace, supply, draws, result, rfl⟩ := h
  exact .of_keeps ⟨rfl, rfl, rfl, rfl, rfl, rfl, rfl, rfl, rfl⟩ (fun _ => rfl)
    ⟨fun _ => rfl, fun _ => rfl, fun _ => ⟨rfl, rfl⟩, fun _ _ => rfl⟩

theorem Frame.handBack (h : Frame i s t) (r : CallResult) : Frame i s (handBack r t) :=
  { h with stages := fun hi => { h.stages hi with } }

theorem Frame.refuse (r : RefuseReason) (s : State) : Frame i s (refuse r s) where
  cfg := rfl
  arrivals := rfl
  locals := rfl
  refusal := fun r' hr => by rw [refuse_refusal, hr]; rfl
  initialized := fun _ => rfl
  started := id
  clk := fun _ => rfl
  last := fun _ => rfl
  stack := fun _ => rfl
  stages := fun _ => ⟨fun _ => rfl, fun _ => rfl, fun _ => ⟨rfl, rfl⟩, fun _ _ => rfl⟩
  call := fun _ => ⟨rfl, rfl, rfl⟩

theorem CommandRan.frame {d : CommandDesc} {o : CommandOutcome} {es : List Event} (h : CommandRan d s t o es) :
    Frame (.sendCommand d) s t :=
  .of_keeps h.keeps.toKeeps (fun _ => h.keeps.pc)
    ⟨fun hi => absurd rfl (hi d), fun _ => h.k, fun _ => ⟨h.w, h.mem⟩, fun hi => absurd rfl (hi d)⟩

theorem ArmRan.frame {d : DataDesc} {es : List Event} (h : ArmRan d s t es) : Frame (.armTransfer d) s t :=
  .of_keeps h.keeps.toKeeps (fun _ => h.keeps.pc)
    ⟨fun _ => h.resp, fun hi => absurd rfl (hi d), fun _ => ⟨h.w, h.mem⟩, fun _ _ => h.i⟩

/-- A drain leaves the slot and the rounds alone. -/
theorem Frame.of_drain {d : DataDesc} (h : Keeps s t) (hpc : t.fault = none → t.pc = s.pc) (hresp : t.resp = s.resp)
    (hk : t.k = s.k) : Frame (.waitAndDrain d) s t :=
  .of_keeps h hpc
    ⟨fun _ => hresp, fun _ => hk, fun hi => absurd rfl (hi d), fun _ hi => absurd rfl (hi d)⟩

theorem WaitEnded.frame {d : DataDesc} {o : OutcomeKind} {es : List Event} (h : WaitEnded d s t o es) :
    Frame (.waitAndDrain d) s t := by
  have hkeeps := h.keeps
  obtain ⟨u, hdrain, -, rfl⟩ := h.poll
  exact .of_drain hkeeps.toKeeps (fun _ => hkeeps.pc) hdrain.resp hdrain.k

theorem WaitOverran.frame {d : DataDesc} {es : List Event} (h : WaitOverran d s t es) : Frame (.waitAndDrain d) s t :=
  .of_drain h.keeps (fun hf => absurd hf h.fault_ne_none) h.poll.resp h.poll.k

/-! ### EXECUTE -/

/-- What the stages of EXECUTE keep: the call records too, if none has faulted. -/
structure StagesKeep (s t : State) : Prop where
  cfg : t.cfg = s.cfg
  arrivals : t.arrivals = s.arrivals
  locals : t.locals = s.locals
  refusal : t.refusal = s.refusal
  initialized : t.initialized = s.initialized
  clk : t.clk = s.clk
  call : t.fault = none → t.pc = s.pc ∧ t.stack = s.stack ∧ t.inCall = false

theorem KeepsAll.finishExecute (h : KeepsAll s t) (o : TransactionOutcome) : StagesKeep s (finishExecute o t) :=
  ⟨h.cfg, h.arrivals, h.locals, h.refusal, h.initialized, h.clk, fun _ => ⟨h.pc, h.stack, rfl⟩⟩

theorem keepsAll_clearAllStatus (s : State) : KeepsAll s (clearAllStatus s) :=
  ((keepsAll_regWrite .CSTA _ s).trans (keepsAll_regWrite .DSTA _ _)).trans (keepsAll_regWrite .FSTA _ _)

theorem ExecuteRan.keep {cmd : CommandDesc} {data : Option DataDesc} (h : ExecuteRan cmd s data t) :
    StagesKeep s t := by
  have hclear := keepsAll_clearAllStatus s
  cases h with
  | plain command => exact (hclear.trans command.keeps).finishExecute _
  | write => exact hclear.finishExecute _
  | armFailed arm => exact (hclear.trans arm.keeps).finishExecute _
  | ended _ _ arm _ command wait =>
    exact (((hclear.trans arm.keeps).trans command.keeps).trans wait.keeps).finishExecute _
  | overran _ _ arm _ command wait =>
    have hkeeps := ((hclear.trans arm.keeps).trans command.keeps).toKeeps.trans wait.keeps
    exact ⟨hkeeps.cfg, hkeeps.arrivals, hkeeps.locals, hkeeps.refusal, hkeeps.initialized, hkeeps.clk,
      fun hf => absurd hf wait.fault_ne_none⟩

theorem ExecuteRan.frame {cmd : CommandDesc} {data : Option DataDesc} (hs : s.inCall = false)
    (h : ExecuteRan cmd (inExecute s.result s) data t) : Frame (.execute cmd data) s t where
  cfg := h.keep.cfg
  arrivals := h.keep.arrivals
  locals := h.keep.locals
  refusal := fun _ hr => h.keep.refusal.trans hr
  initialized := fun _ => h.keep.initialized
  started := fun hi => h.keep.initialized.trans hi
  clk := fun _ => h.keep.clk
  last := fun hi => absurd rfl (hi cmd data)
  stack := fun hi => absurd rfl (hi cmd data)
  stages := fun hi => absurd rfl (hi cmd data)
  call := fun hf => by
    obtain ⟨hpc, hstack, hcall⟩ := h.keep.call hf
    exact ⟨hpc, hstack, hcall.trans hs.symm⟩

/-! ### Every instruction -/

/-- SET_CLOCK writes one record, s.clk. -/
theorem frame_setClock {u : State} (f : Nat) (h : OnlyLogs s u) (k : ClockState) :
    Frame (.setClock f) s { u with clk := k } := by
  obtain ⟨trace, supply, draws, result, rfl⟩ := h
  exact {
    cfg := rfl
    arrivals := rfl
    locals := rfl
    refusal := fun _ => id
    initialized := fun _ => rfl
    started := id
    clk := fun hi => absurd rfl (hi f)
    last := fun _ => rfl
    stack := fun _ => rfl
    stages := fun _ => ⟨fun _ => rfl, fun _ => rfl, fun _ => ⟨rfl, rfl⟩, fun _ _ => rfl⟩
    call := fun _ => ⟨rfl, rfl, rfl⟩ }

theorem Logged.onlyLogs (h : Logged s i t) : OnlyLogs s t := by
  cases h with
  | resetEngine => exact ((onlyLogs_regSet .CON _ s).trans (onlyLogs_delay _ _)).handBack _
  | calcDivider | armWrite => exact (onlyLogs_refl s).handBack _
  | clearAllStatus => exact (onlyLogs_clearAllStatus s).handBack _
  | controllerReset => exact (onlyLogs_regSet .CON _ s).handBack _
  | issueStop => exact (onlyLogs_regWrite .DCON _ s).handBack _
  | controlWord => exact onlyLogs_regWrite _ _ s

theorem Executed.frame (hs : s.Ready) (h : Executed s i t) : Frame i s t := by
  cases h with
  | logged logged => exact logged.onlyLogs.frame
  | initEngine =>
    exact {
      cfg := rfl
      arrivals := rfl
      locals := rfl
      refusal := fun _ => id
      initialized := fun hi => absurd rfl hi
      started := fun _ => rfl
      clk := fun _ => rfl
      last := fun _ => rfl
      stack := fun _ => rfl
      stages := fun _ => ⟨fun _ => rfl, fun _ => rfl, fun _ => ⟨rfl, rfl⟩, fun _ _ => rfl⟩
      call := fun _ => ⟨rfl, rfl, rfl⟩ }
  | clockOff => exact (frame_setClock 0 (onlyLogs_regClr .CON _ s) _).handBack _
  | clockOn => exact (frame_setClock _ (onlyLogs_enabled _ s) _).handBack _
  | execute _ ran => exact ran.frame hs.inCall
  | sendCommand ran => exact ran.frame.handBack _
  | armTransfer _ ran => exact ran.frame.handBack _
  | waitEnded _ ran => exact ran.frame.handBack _
  | waitOverran _ ran => exact ran.frame

theorem exec_frame (h : exec i s = .next t) : Frame i s t := by
  rcases exec_next_cases h with ⟨r, rfl⟩ | ⟨hs, hran⟩
  · exact .refuse r s
  · exact hran.frame hs

/-- Settles O56: what each stage keeps, and what a host operation puts back. -/
theorem instructionsKeepOtherRecords : Obligations.InstructionsKeepOtherRecords := by
  intro i s t h
  have hframe := exec_frame h
  refine ⟨hframe.cfg, hframe.arrivals, hframe.locals, hframe.initialized, hframe.clk, fun hi => ?_, hframe.call⟩
  obtain ⟨hresp, hk, hdrain, hcount⟩ := hframe.stages hi
  exact ⟨hframe.last hi, hframe.stack hi, hresp, hk, hdrain, hcount⟩

end Sys2Proof.Machine
end

section
/-! The invariant of the records (10_state.md R20 to R51) under whole calls: what the stages do to the records it
speaks of, and where a call leaves the sequencer. -/

namespace Sys2Proof.Machine

/-! ### The invariant by its parts -/

/-- The part of the invariant that does not look at the sequencer's position. -/
structure State.Recorded (s : State) : Prop where
  mem : s.mem.wf = true
  resp : respOk s.resp = true
  clk : clkOk s.cfg s.clk = true
  last : lastOk s.last = true
  before : s.initialized = false → s.last = none ∧ s.clk.enabled = none
  cout : coutOk s.locals.cout = true

/-- The part that does: the position, the callers' return positions, and what the outermost routine asks for. -/
structure State.Placed (s : State) : Prop where
  pc : posOk s.pc = true
  stack : stackOk s.pc.op s.stack = true
  inCall : s.inCall = (outermost s.pc.op s.stack).isHostOp
  started : (outermost s.pc.op s.stack).needsInit = true → s.initialized = true

variable {s t : State}

theorem State.Inv.recorded (h : s.Inv) : s.Recorded := ⟨h.mem, h.resp, h.clk, h.last, h.before, h.cout⟩

theorem State.Inv.placed (h : s.Inv) : s.Placed := ⟨h.pc, h.stack, h.inCall, h.started⟩

theorem State.Recorded.inv (h : s.Recorded) (hplaced : s.Placed) (hclock : setClockOk s = true) : s.Inv :=
  ⟨h.mem, h.resp, h.clk, h.last, hplaced.pc, hplaced.stack, hplaced.inCall, hplaced.started, h.before, h.cout, hclock⟩

/-- SET_CLOCK's variables count only while it runs. -/
theorem setClockOk_of_ne (h : s.pc.op ≠ .setClock) : setClockOk s = true := by rw [setClockOk, if_neg h]

theorem stack_eq_nil_of_idle {stack : List Pos} (h : stackOk .idle stack = true) : stack = [] :=
  stack_eq_nil_of_stackOk h fun _ => rfl

/-- A host operation has no caller; one that INITIALIZE must precede finds the engine initialized (R194). -/
theorem State.Inv.initialized (h : s.Inv) (hop : s.pc.op.needsInit = true) : s.initialized = true := by
  have hhost : s.pc.op.isHostOp = true := (Bool.and_eq_true_iff.mp hop).1
  have hstack : s.stack = [] := stack_eq_nil_of_stackOk h.stack (returnsTo_hostOp hhost)
  refine h.started ?_
  rw [hstack]
  exact hop

/-! ### The clock and the response -/

theorem clkOk_clockOn (c : Config) {f : Nat} (hf : 0 < f) :
    clkOk c (clockOn c.fRef f (calcDivider c.fRef f)) = true := by
  simp [clkOk, clockOn, hf]

theorem divider_le_of_clkOk {c : Config} {k : ClockState} (h : clkOk c k = true) : k.divider.getD 0 ≤ 255 := by
  unfold clkOk at h
  split at h
  · simp only [Bool.and_eq_true, Option.isNone_iff_eq_none] at h
    obtain ⟨⟨-, hdivider⟩, -⟩ := h
    rw [hdivider]
    exact Nat.zero_le _
  · split at h
    · rename_i f _
      simp only [Bool.and_eq_true, beq_iff_eq] at h
      rw [h.2]
      show calcDivider c.fRef f ≤ 255
      rw [calcDivider_eq_min]
      exact Nat.min_le_left _ _
    · cases h
  · simp only [Bool.and_eq_true, decide_eq_true_eq] at h
    exact h.2

theorem clkOk_clockOff {c : Config} {k : ClockState} (h : clkOk c k = true) : clkOk c (clockOff k) = true := by
  simp only [clkOk, clockOff, beq_self_eq_true, Bool.true_and]
  exact decide_eq_true (divider_le_of_clkOk h)

theorem respOk_slot {c : CommandOutcome} (h : coutOk c = true) : respOk c.slot = true := by
  cases c with
  | success ws =>
    cases ws with
    | nil => rfl
    | cons w ws => simpa [coutOk, respOk, CommandOutcome.slot] using h
  | timeout | commError => rfl

/-! ### The stages -/

/-- What keeps all but the response slot, the counters and the log. -/
theorem State.Recorded.of_keeps (h : s.Recorded) (hkeeps : Keeps s t) (hmem : t.mem.wf = true)
    (hresp : respOk t.resp = true) : t.Recorded where
  mem := hmem
  resp := hresp
  clk := by rw [hkeeps.cfg, hkeeps.clk]; exact h.clk
  last := by rw [hkeeps.last]; exact h.last
  before := by rw [hkeeps.initialized, hkeeps.last, hkeeps.clk]; exact h.before
  cout := by rw [hkeeps.locals]; exact h.cout

theorem CommandRan.recorded {d : CommandDesc} {o : CommandOutcome} {es : List Event} (hran : CommandRan d s t o es)
    (h : s.Recorded) : t.Recorded :=
  h.of_keeps hran.keeps.toKeeps (hran.mem ▸ h.mem) (hran.resp ▸ respOk_slot hran.outcome)

theorem ArmRan.recorded {d : DataDesc} {es : List Event} (hran : ArmRan d s t es) (h : s.Recorded) : t.Recorded :=
  h.of_keeps hran.keeps.toKeeps (hran.mem ▸ h.mem) (hran.resp ▸ h.resp)

theorem Drained.recorded {d : DataDesc} {es : List Event} (hran : Drained d s t es) (h : s.Recorded) : t.Recorded :=
  h.of_keeps hran.keeps (by rw [hran.mem]; exact storeWords_wf _ d _ _ h.mem) (hran.resp ▸ h.resp)

theorem WaitEnded.recorded {d : DataDesc} {o : OutcomeKind} {es : List Event} (hran : WaitEnded d s t o es)
    (h : s.Recorded) : t.Recorded := by
  obtain ⟨u, hdrain, -, rfl⟩ := hran.poll
  exact { hdrain.recorded (s := { s with w := 0, i := 1 }) { h with } with }

theorem WaitOverran.recorded {d : DataDesc} {es : List Event} (hran : WaitOverran d s t es) (h : s.Recorded) :
    t.Recorded :=
  hran.poll.toDrained.recorded (s := { s with w := 0, i := 1 }) { h with }

theorem State.Recorded.finishExecute (h : s.Recorded) (hi : s.initialized = true) {o : TransactionOutcome}
    (ho : lastOk (some o) = true) : (finishExecute o s).Recorded :=
  { h with
    last := ho
    before := fun hi' => Bool.noConfusion (hi.symm.trans hi') }

theorem lastOk_data {o : OutcomeKind} {c : CommandOutcome} (hc : coutOk c = true) :
    lastOk (some { final := o, cmd := some c, data := some o }) = true := by
  simp [lastOk, hc]

theorem lastOk_plain {c : CommandOutcome} (hc : coutOk c = true) :
    lastOk (some { final := c.status, cmd := some c, data := none }) = true := by
  simp [lastOk, hc]

theorem lastOk_setup {a : OutcomeKind} (ha : a ≠ .success) :
    lastOk (some { final := a, cmd := none, data := some a }) = true := by
  simp [lastOk, ha]

theorem ExecuteRan.recorded {cmd : CommandDesc} {data : Option DataDesc} (hran : ExecuteRan cmd s data t)
    (h : s.Recorded) (hi : s.initialized = true) : t.Recorded := by
  have hclear : (clearAllStatus s).Recorded := { h with }
  cases hran with
  | plain command =>
    exact (command.recorded hclear).finishExecute (command.keeps.initialized.trans hi) (lastOk_plain command.outcome)
  | write => exact hclear.finishExecute hi (lastOk_setup (by decide))
  | armFailed arm _ failed =>
    exact (arm.recorded hclear).finishExecute (arm.keeps.initialized.trans hi) (lastOk_setup failed)
  | ended _ _ arm _ command wait =>
    exact (wait.recorded (command.recorded (arm.recorded hclear))).finishExecute
      (wait.keeps.initialized.trans (command.keeps.initialized.trans (arm.keeps.initialized.trans hi)))
      (lastOk_data command.outcome)
  | overran _ _ arm _ command wait => exact { wait.recorded (command.recorded (arm.recorded hclear)) with }

/-! ### Every instruction -/

theorem OnlyLogs.recorded (hlogs : OnlyLogs s t) (h : s.Recorded) : t.Recorded := by
  obtain ⟨trace, supply, draws, result, rfl⟩ := hlogs
  exact { h with }

theorem OnlyLogs.fault (hlogs : OnlyLogs s t) : t.fault = s.fault := by
  obtain ⟨trace, supply, draws, result, rfl⟩ := hlogs
  rfl

theorem State.Recorded.handBack (h : s.Recorded) (r : CallResult) : (handBack r s).Recorded := { h with }

/-- SET_CLOCK's record is what it computes, and the engine is initialized. -/
theorem State.Recorded.setClock (h : s.Recorded) (hi : s.initialized = true) {k : ClockState}
    (hk : clkOk s.cfg k = true) : ({ s with clk := k } : State).Recorded :=
  { h with
    clk := hk
    before := fun hi' => Bool.noConfusion (hi.symm.trans hi') }

theorem Executed.recorded {i : Instr} (hran : Executed s i t) (h : s.Recorded) : t.Recorded := by
  cases hran with
  | logged logged => exact logged.onlyLogs.recorded h
  | initEngine => exact { h with before := fun hi => by cases hi }
  | clockOff init =>
    exact (((onlyLogs_regClr .CON _ s).recorded h).setClock init (clkOk_clockOff h.clk)).handBack _
  | @clockOn f init on =>
    exact (((onlyLogs_enabled f s).recorded h).setClock init (clkOk_clockOn s.cfg (Nat.pos_of_ne_zero on))).handBack _
  | execute init ran => exact ran.recorded (s := inExecute s.result s) { h with } init
  | sendCommand ran => exact (ran.recorded h).handBack _
  | armTransfer _ ran => exact (ran.recorded h).handBack _
  | waitEnded _ ran => exact (ran.recorded h).handBack _
  | waitOverran _ ran => exact ran.recorded h

/-- What leaves the call records alone leaves the sequencer placed. -/
theorem State.Placed.of_call (h : s.Placed) (hpc : t.pc = s.pc) (hstack : t.stack = s.stack)
    (hcall : t.inCall = s.inCall) (hi : s.initialized = true → t.initialized = true) : t.Placed where
  pc := hpc ▸ h.pc
  stack := by rw [hpc, hstack]; exact h.stack
  inCall := by rw [hpc, hstack, hcall]; exact h.inCall
  started := by rw [hpc, hstack]; exact fun hneeds => hi (h.started hneeds)

/-- Where a drain that has overrun has stopped: at one of WAIT_AND_DRAIN's labels, by itself or within EXECUTE. -/
structure StoppedInDrain (t : State) : Prop where
  pc : t.pc = loopBurstPos ∨ t.pc = finalBurstPos
  call : t.stack = [] ∧ t.inCall = false ∨ t.stack = [executeAfterWait] ∧ t.inCall = true ∧ t.initialized = true

theorem StoppedInDrain.op (h : StoppedInDrain t) : t.pc.op = .waitAndDrain := by
  rcases h.pc with hpc | hpc <;> rw [hpc] <;> rfl

theorem StoppedInDrain.placed (h : StoppedInDrain t) : t.Placed := by
  have hpc : posOk t.pc = true := by rcases h.pc with hpc | hpc <;> rw [hpc] <;> rfl
  rcases h.call with ⟨hstack, hcall⟩ | ⟨hstack, hcall, hi⟩
  · exact ⟨hpc, by rw [hstack]; rfl, by rw [h.op, hstack, hcall]; rfl, by rw [h.op, hstack]; exact nofun⟩
  · exact ⟨hpc, by rw [h.op, hstack]; rfl, by rw [h.op, hstack, hcall]; rfl, fun _ => hi⟩

theorem ExecuteRan.stops {cmd : CommandDesc} {data : Option DataDesc} (hran : ExecuteRan cmd s data t)
    (hfault : s.fault = none) (hstack : s.stack = []) (hcall : s.inCall = true) (hi : s.initialized = true) :
    t.fault = none ∨ StoppedInDrain t := by
  cases hran with
  | plain command => exact .inl (command.keeps.fault.trans hfault)
  | write => exact .inl hfault
  | armFailed arm => exact .inl (arm.keeps.fault.trans hfault)
  | ended _ _ arm _ command wait => exact .inl (((arm.keeps.trans command.keeps).trans wait.keeps).fault.trans hfault)
  | overran _ _ arm _ command wait =>
    have hkeeps := (arm.keeps.trans command.keeps).toKeeps.trans wait.keeps
    exact .inr ⟨wait.poll.at_, .inr ⟨congrArg _ (hkeeps.stack.trans hstack), hkeeps.inCall.trans hcall,
      hkeeps.initialized.trans hi⟩⟩

/-- Only a drain that overruns records a fault. -/
theorem Executed.stops {i : Instr} (hran : Executed s i t) (hs : s.Ready) (hstack : s.stack = []) :
    t.fault = none ∨ StoppedInDrain t := by
  cases hran with
  | execute init ran => exact ran.stops hs.fault hstack rfl init
  | sendCommand ran => exact .inl (ran.keeps.fault.trans hs.fault)
  | armTransfer _ ran => exact .inl (ran.keeps.fault.trans hs.fault)
  | waitEnded _ ran => exact .inl (ran.keeps.fault.trans hs.fault)
  | waitOverran _ ran =>
    exact .inr ⟨ran.poll.at_, .inl ⟨ran.keeps.stack.trans hstack, ran.keeps.inCall.trans hs.inCall⟩⟩
  | logged logged => exact .inl (logged.onlyLogs.fault.trans hs.fault)
  | initEngine | clockOff => exact .inl hs.fault
  | clockOn => exact .inl (by simp [enableClock, hs.fault])

/-- A call that is refused changes only the mark and the result. -/
theorem inv_refuse (h : s.Inv) (r : RefuseReason) : (refuse r s).Inv := { h with }

/-- Every instruction keeps the invariant. -/
theorem exec_inv {i : Instr} (h : s.Inv) (hexec : exec i s = .next t) : t.Inv := by
  rcases exec_next_cases hexec with ⟨r, rfl⟩ | ⟨hs, hran⟩
  · exact inv_refuse h r
  · have hframe := hran.frame hs
    rcases hran.stops hs (stack_eq_nil_of_idle (hs.idle ▸ h.stack)) with hf | hstopped
    · obtain ⟨hpc, hstack, hcall⟩ := hframe.call hf
      refine (hran.recorded h.recorded).inv (h.placed.of_call hpc hstack hcall hframe.started) (setClockOk_of_ne ?_)
      rw [hpc, hs.idle]
      decide
    · refine (hran.recorded h.recorded).inv hstopped.placed (setClockOk_of_ne ?_)
      rw [hstopped.op]
      decide

end Sys2Proof.Machine
end

section
/-! What one line of the sequencer can do (10_state.md R22): stand still, go on at a label of its routine, call,
return, refuse, or stop at a fault. Each keeps the invariant, and takes nothing back. -/

namespace Sys2Proof.Machine

/-! ### Work within a line -/

/-- What no step takes back: the trace, the parameters, `s.initialized`, a refusal mark, and the answers taken
(10_state.md R24; 60_exceptions.md R185; 70_reset_and_hazards.md R203). -/
structure Grows (s t : State) : Prop where
  trace : ∃ es, t.trace = s.trace ++ es
  cfg : t.cfg = s.cfg
  started : s.initialized = true → t.initialized = true
  refusal : ∀ r, s.refusal = some r → t.refusal = some r
  draws : s.draws ≤ t.draws

/-- From s to u a line has done its work, and has not yet moved on. -/
structure Works (s u : State) : Prop where
  grows : Grows s u
  pc : u.pc = s.pc
  stack : u.stack = s.stack
  inCall : u.inCall = s.inCall
  recorded : s.Inv → u.Recorded

variable {s t u : State} {es : List Event}

theorem Grows.of_keeps (hran : Ran s t es) (hkeeps : Keeps s t) : Grows s t where
  trace := ⟨es, hran.trace⟩
  cfg := hkeeps.cfg
  started := fun hi => hkeeps.initialized.trans hi
  refusal := fun _ hr => hkeeps.refusal.trans hr
  draws := by rw [hran.draws]; exact Nat.le_add_right _ _

theorem Works.of_ran (hran : Ran s u es) (hkeeps : KeepsAll s u) (hrecorded : s.Recorded → u.Recorded) : Works s u :=
  ⟨.of_keeps hran hkeeps.toKeeps, hkeeps.pc, hkeeps.stack, hkeeps.inCall, fun h => hrecorded h.recorded⟩

theorem Works.refl (s : State) : Works s s := .of_ran (Ran.refl s) (KeepsAll.refl s) id

theorem works_write (r : Reg) (v : Word) (s : State) : Works s (regWrite r v s) :=
  .of_ran (ran_regWrite r v s) (keepsAll_regWrite r v s) fun h => { h with }

theorem works_delay (k : DelayKind) (s : State) : Works s (delay k s) :=
  .of_ran (ran_delay k s) (keepsAll_delay k s) fun h => { h with }

theorem keepsAll_regClr (r : Reg) (m : Word) (s : State) : KeepsAll s (regClr r m s) :=
  (keepsAll_regRead r s).trans (keepsAll_regWrite r _ _)

theorem works_controllerReset (s : State) : Works s (controllerReset s) :=
  .of_ran (ran_controllerReset s) (keepsAll_regSet .CON _ s) ((onlyLogs_regSet .CON _ s).recorded)

/-- The counters and the variables are no records of the invariant, but for the command's outcome. -/
theorem Works.counters (h : Works s u) (i k w : Nat) : Works s { u with i := i, k := k, w := w } :=
  ⟨{ h.grows with }, h.pc, h.stack, h.inCall, fun hinv => { h.recorded hinv with }⟩

theorem Works.withLocals (h : Works s u) {L : Locals} (hL : s.Inv → coutOk L.cout = true) :
    Works s { u with locals := L } :=
  ⟨{ h.grows with }, h.pc, h.stack, h.inCall, fun hinv => { h.recorded hinv with cout := hL hinv }⟩

theorem Works.withResp (h : Works s u) {r : Option (List Word)} (hr : s.Inv → respOk r = true) :
    Works s { u with resp := r } :=
  ⟨{ h.grows with }, h.pc, h.stack, h.inCall, fun hinv => { h.recorded hinv with resp := hr hinv }⟩

theorem works_readStatus (r : Reg) (s : State) : Works s (readStatus r s) :=
  (Works.of_ran (ran_regRead r s) (keepsAll_regRead r s) fun h => { h with }).withLocals fun h => h.cout

theorem works_setCout {c : CommandOutcome} (hc : coutOk c = true) (s : State) : Works s (setCout c s) :=
  (Works.refl s).withLocals fun _ => hc

theorem Works.setTout (h : Works s u) (hcout : u.locals = s.locals) (o : OutcomeKind) : Works s (setTout o u) :=
  h.withLocals fun hinv => by rw [hcout]; exact hinv.cout

/-- SEND_COMMAND L8 (41_command.md R114). -/
theorem works_capture (d : CommandDesc) (s : State) :
    Works s (setCout (captureResponse d s).1 (captureResponse d s).2) := by
  have hend : captureResponse d s = _ := pollEnd_respond d s
  rw [hend]
  refine (Works.of_ran (ran_capture s _) (keepsAll_reads s _ _) fun h => { h with }).withLocals fun _ => ?_
  cases d.long <;> rfl

theorem works_initialized (s : State) : Works s { s with initialized := true } :=
  ⟨⟨⟨[], (List.append_nil _).symm⟩, rfl, fun _ => rfl, fun _ => id, Nat.le_refl _⟩, rfl, rfl, rfl,
    fun h => { h.recorded with before := fun hi => by cases hi }⟩

/-- A whole burst of WAIT_AND_DRAIN. -/
theorem DrainedOk.works {d : DataDesc} (h : DrainedOk d s u es) : Works s u :=
  .of_ran h.ran ⟨h.keeps, h.pc, h.fault, h.result⟩ h.toDrained.recorded

/-- `s.last <- t` in EXECUTE (43_orchestrator.md R160). -/
theorem works_last {o : TransactionOutcome} (hop : s.pc.op = .execute) (ho : s.Inv → lastOk (some o) = true) :
    Works s { s with last := some o } :=
  ⟨{ (Works.refl s).grows with }, rfl, rfl, rfl, fun h => { h.recorded with
    last := ho h
    before := fun hi => Bool.noConfusion ((h.initialized (by rw [hop]; rfl)).symm.trans hi) }⟩

/-- SET_CLOCK's record (40_clock.md R102, R103). -/
theorem Works.withClock {k : ClockState} (h : Works s u) (hop : s.pc.op = .setClock)
    (hk : s.Inv → clkOk s.cfg k = true) : Works s { u with clk := k } :=
  ⟨{ h.grows with }, h.pc, h.stack, h.inCall, fun hinv =>
    (h.recorded hinv).setClock (h.grows.started (hinv.initialized (by rw [hop]; rfl)))
      (by rw [h.grows.cfg]; exact hk hinv)⟩

/-! ### Moves -/

/-- Everything a line can do, from s. -/
inductive Advances (s : State) : State → Prop where
  | stay : Advances s s
  | goto_ {u : State} {n : Nat} (works : Works s u) (first : 1 ≤ n) (last : n ≤ lastLabel s.pc.op)
    (clock : s.Inv → setClockOk (goto_ n u) = true) : Advances s (goto_ n u)
  | call {callee : Routine} {back : Pos} (returns : returnsTo callee back = true) (caller : back.op = s.pc.op) :
    Advances s (callRoutine callee back s)
  | return_ {u : State} {r : CallResult} (works : Works s u) : Advances s (returnFrom r u)
  | refuse {r : RefuseReason} : Advances s (refuseLine r s)
  | stop {t : State} {d : DataDesc} {es : List Event} (overran : Overran d s t es) (op : s.pc.op = .waitAndDrain) :
    Advances s t

theorem Advances.grows (h : Advances s t) : Grows s t := by
  cases h with
  | stay => exact (Works.refl s).grows
  | goto_ works => exact { works.grows with }
  | call => exact { (Works.refl s).grows with }
  | return_ works =>
    unfold returnFrom
    split <;> exact { works.grows with }
  | refuse => exact { (Works.refl s).grows with refusal := fun r hr => by simp [refuseLine, Machine.refuse, hr] }
  | stop overran => exact .of_keeps overran.ran overran.keeps

/-- The engine is Idle after the outermost routine has ended. -/
theorem placed_idle (hpc : t.pc = Pos.idle) (hstack : t.stack = []) (hcall : t.inCall = false) : t.Placed :=
  ⟨by rw [hpc]; rfl, by rw [hpc, hstack]; rfl, by rw [hpc, hstack, hcall]; rfl, by rw [hpc, hstack]; exact nofun⟩

theorem posOk_of_returnsTo {op : Routine} {p : Pos} (h : returnsTo op p = true) : posOk p = true := by
  cases op <;> simp only [returnsTo, Bool.or_eq_true, beq_iff_eq, Bool.false_eq_true] at h
  case controllerReset => rcases h with rfl | rfl <;> rfl
  all_goals
    subst h
    rfl

theorem posOk_label {op : Routine} {n : Nat} (first : 1 ≤ n) (last : n ≤ lastLabel op) :
    posOk (label op n) = true := by
  have hop : (label op n).op ≠ .idle := by
    rintro hidle
    rw [show op = .idle from hidle] at last
    exact absurd (first.trans last) (by decide)
  rw [posOk, if_neg hop]
  simp [label, first, last]

theorem one_le_lastLabel {op : Routine} (hop : op ≠ .idle) : 1 ≤ lastLabel op := by
  cases op with
  | idle => exact absurd rfl hop
  | _ => decide

theorem ne_setClock_of_returnsTo {op : Routine} {p : Pos} (h : returnsTo op p = true) :
    op ≠ .setClock ∧ p.op ≠ .setClock := by
  constructor
  · rintro rfl
    cases h
  · rcases returnsTo_op h with hop | hop | hop <;> rw [hop] <;> decide

/-- Work within a line leaves the sequencer placed. -/
theorem Works.placed (h : Works s u) (hplaced : s.Placed) : u.Placed :=
  hplaced.of_call h.pc h.stack h.inCall h.grows.started

theorem Works.goto_inv {n : Nat} (h : Works s u) (hinv : s.Inv) (first : 1 ≤ n) (last : n ≤ lastLabel s.pc.op)
    (clock : setClockOk (goto_ n u) = true) : (goto_ n u).Inv := by
  have hplaced := h.placed hinv.placed
  have hrecorded : (goto_ n u).Recorded := { h.recorded hinv with }
  exact hrecorded.inv ⟨posOk_label first (h.pc ▸ last), hplaced.stack, hplaced.inCall, hplaced.started⟩ clock

theorem callRoutine_inv {callee : Routine} {back : Pos} (h : s.Inv) (returns : returnsTo callee back = true)
    (caller : back.op = s.pc.op) : (callRoutine callee back s).Inv := by
  have hrecorded : (callRoutine callee back s).Recorded := { h.recorded with }
  have hcallee : callee ≠ .idle := by
    rintro rfl
    cases returns
  refine hrecorded.inv ⟨posOk_label (Nat.le_refl 1) (one_le_lastLabel hcallee), ?_, ?_, ?_⟩
    (setClockOk_of_ne (ne_setClock_of_returnsTo returns).1)
  · show (returnsTo callee back && stackOk back.op s.stack) = true
    rw [returns, caller]
    exact h.stack
  · show s.inCall = (outermost back.op s.stack).isHostOp
    rw [caller]
    exact h.inCall
  · show (outermost back.op s.stack).needsInit = true → _
    rw [caller]
    exact h.started

theorem Works.returnFrom_inv {r : CallResult} (h : Works s u) (hinv : s.Inv) : (returnFrom r u).Inv := by
  have hplaced := h.placed hinv.placed
  have hrecorded := h.recorded hinv
  unfold returnFrom
  split
  next hstack =>
    have hrecorded' : ({ u with pc := Pos.idle, inCall := false, result := some r, locals := Locals.clear } :
        State).Recorded := { hrecorded with cout := rfl }
    exact hrecorded'.inv (placed_idle rfl hstack rfl) (setClockOk_of_ne (by simp [Pos.idle]))
  next p rest hstack =>
    obtain ⟨-, hstackOk, hcall, hstarted⟩ := hplaced
    rw [hstack] at hstackOk hcall hstarted
    obtain ⟨hreturns, hrest⟩ := stackOk_cons hstackOk
    have hrecorded' : ({ u with pc := p, stack := rest } : State).Recorded := { hrecorded with }
    exact hrecorded'.inv ⟨posOk_of_returnsTo hreturns, hrest, hcall, hstarted⟩
      (setClockOk_of_ne (ne_setClock_of_returnsTo hreturns).2)

theorem refuseLine_inv {r : RefuseReason} (h : s.Inv) : (refuseLine r s).Inv := by
  have hrecorded : (refuseLine r s).Recorded := { h.recorded with cout := rfl }
  exact hrecorded.inv (placed_idle rfl rfl rfl) (setClockOk_of_ne (by simp [refuseLine, Pos.idle]))

theorem Overran.inv {d : DataDesc} (h : Overran d s t es) (hinv : s.Inv) (hop : s.pc.op = .waitAndDrain) : t.Inv := by
  have hpc : t.pc.op = .waitAndDrain ∧ posOk t.pc = true := by
    rcases h.at_ with hpc | hpc <;> rw [hpc] <;> exact ⟨rfl, rfl⟩
  have hplaced : t.Placed := by
    constructor
    · exact hpc.2
    · rw [hpc.1, h.keeps.stack, ← hop]; exact hinv.stack
    · rw [hpc.1, h.keeps.stack, ← hop, h.keeps.inCall]; exact hinv.inCall
    · rw [hpc.1, h.keeps.stack, ← hop, h.keeps.initialized]; exact hinv.started
  exact (h.toDrained.recorded hinv.recorded).inv hplaced (setClockOk_of_ne (by rw [hpc.1]; decide))

theorem Advances.inv (h : Advances s t) (hinv : s.Inv) : t.Inv := by
  cases h with
  | stay => exact hinv
  | goto_ works first last clock => exact works.goto_inv hinv first last (clock hinv)
  | call returns caller => exact callRoutine_inv hinv returns caller
  | return_ works => exact works.returnFrom_inv hinv
  | refuse => exact refuseLine_inv hinv
  | stop overran op => exact overran.inv hinv op

/-! ### The lines of each routine -/

/-- A line of a routine other than SET_CLOCK that goes on at one of its labels. -/
theorem Works.next {op : Routine} {n : Nat} (h : Works s u) (hop : s.pc.op = op)
    (hn : 1 ≤ n ∧ n ≤ lastLabel op := by decide) (hne : op ≠ .setClock := by decide) : Advances s (goto_ n u) := by
  subst hop
  exact .goto_ h hn.1 hn.2 fun _ => setClockOk_of_ne (by rw [goto_, h.pc]; exact hne)

theorem lineInitEngine_advances (hop : s.pc.op = .initEngine) (n : Nat) : Advances s (lineInitEngine n s) := by
  unfold lineInitEngine
  split
  · split
    · exact .refuse
    · exact (Works.refl s).next hop
  · exact (Works.of_ran (ran_bringUp s) (keepsAll_emit _ s) fun h => { h with }).next hop
  · exact (works_write _ _ s).next hop
  · exact (works_initialized s).next hop
  · exact .return_ (.refl s)

theorem lineResetEngine_advances (hop : s.pc.op = .resetEngine) (n : Nat) : Advances s (lineResetEngine n s) := by
  unfold lineResetEngine
  split
  · exact .call rfl hop.symm
  · exact (works_delay _ s).next hop
  · exact .return_ (.refl s)

/-- SET_CLOCK's variables at each of its labels (40_clock.md R102). -/
theorem setClockOk_iff (hop : s.pc.op = .setClock) :
    setClockOk s = true ↔ (s.pc.line = 2 → 0 < s.locals.freq) ∧ (s.pc.line = 3 ∨ s.pc.line = 4 →
      0 < s.locals.freq ∧ s.locals.div = calcDivider s.cfg.fRef s.locals.freq) := by
  rw [setClockOk, if_pos hop]
  by_cases h2 : s.pc.line = 2
  · simp [h2]
  · by_cases h34 : s.pc.line = 3 ∨ s.pc.line = 4
    · simp [h2, h34]
    · simp [h2, h34]

theorem Works.next_setClock {n : Nat} (h : Works s u) (hop : s.pc.op = .setClock)
    (hclock : s.Inv → (n = 2 → 0 < u.locals.freq) ∧ (n = 3 ∨ n = 4 →
      0 < u.locals.freq ∧ u.locals.div = calcDivider u.cfg.fRef u.locals.freq))
    (hn : 1 ≤ n ∧ n ≤ 5 := by decide) : Advances s (goto_ n u) :=
  .goto_ h hn.1 (by rw [hop]; exact hn.2) fun hinv =>
    (setClockOk_iff (s := goto_ n u) ((congrArg Pos.op h.pc).trans hop)).mpr (hclock hinv)

theorem lineSetClock_advances (hop : s.pc.op = .setClock) {n : Nat} (hn : s.pc.line = n) :
    Advances s (lineSetClock n s) := by
  have stay := Works.refl s
  have hclock := fun hinv : s.Inv => (setClockOk_iff hop).mp hinv.setClock
  rw [hn] at hclock
  unfold lineSetClock
  split
  · split
    · exact stay.next_setClock hop fun _ => by simp
    next hf => exact stay.next_setClock hop fun _ => by simpa using Nat.pos_of_ne_zero hf
  · exact Works.next_setClock (stay.withLocals fun hinv => hinv.cout) hop fun hinv => by
      simpa using (hclock hinv).1 rfl
  · exact (works_write _ _ s).next_setClock hop fun hinv => by simpa using (hclock hinv).2 (.inl rfl)
  · refine .return_ (((Works.of_ran (ran_regSet .CON _ s) (keepsAll_regSet .CON _ s)
      (onlyLogs_regSet .CON _ s).recorded)).withClock hop fun hinv => ?_)
    obtain ⟨hf, hd⟩ := (hclock hinv).2 (.inr rfl)
    rw [hd]
    exact clkOk_clockOn s.cfg hf
  · exact .return_ ((Works.of_ran (ran_regClr .CON _ s) (keepsAll_regClr .CON _ s)
      (onlyLogs_regClr .CON _ s).recorded).withClock hop fun hinv => clkOk_clockOff hinv.clk)

theorem lineCalcDivider_advances (hop : s.pc.op = .calcDivider) (n : Nat) : Advances s (lineCalcDivider n s) := by
  unfold lineCalcDivider
  split
  · split
    · exact .return_ (.refl s)
    · exact (Works.refl s).next hop
  · exact .return_ (.refl s)

theorem lineSendCommand_advances (hop : s.pc.op = .sendCommand) (n : Nat) : Advances s (lineSendCommand n s) := by
  have stay := Works.refl s
  unfold lineSendCommand
  split
  · exact (stay.withResp fun _ => rfl).next hop
  · exact (works_write _ _ s).next hop
  · exact (works_write _ _ s).next hop
  · exact (stay.counters 1 s.k s.w).next hop
  · exact (works_readStatus _ s).next hop
  · split
    · exact (works_setCout rfl s).next hop
    · exact stay.next hop
  · split
    · exact (works_setCout rfl s).next hop
    · exact stay.next hop
  · split
    · exact (works_capture _ s).next hop
    · exact stay.next hop
  · split
    · exact (works_setCout rfl s).next hop
    · exact stay.next hop
  · split
    · exact (works_setCout rfl s).next hop
    · exact stay.next hop
  · exact ((works_delay _ s).counters (s.i + 1) s.k s.w).next hop
  · exact (works_write _ _ s).next hop
  · refine .return_ (stay.withResp fun hinv => ?_)
    split
    · exact respOk_slot hinv.cout
    · exact hinv.resp

theorem lineArmTransfer_advances (hop : s.pc.op = .armTransfer) (n : Nat) : Advances s (lineArmTransfer n s) := by
  have stay := Works.refl s
  unfold lineArmTransfer
  split
  · split
    · exact .return_ (stay.setTout rfl _)
    · exact stay.next hop
  · exact (stay.counters s.i 0 s.w).next hop
  · exact (works_readStatus _ s).next hop
  · split <;> exact stay.next hop
  · split
    · exact .return_ (stay.setTout rfl _)
    · exact stay.next hop
  · exact .call rfl hop.symm
  · exact .call rfl hop.symm
  · exact ((works_delay _ s).counters s.i (s.k + 1) s.w).next hop
  · exact (works_write _ _ s).next hop
  · exact (works_write _ _ s).next hop
  · exact (works_write _ _ s).next hop
  · exact .return_ (stay.setTout rfl _)

theorem lineWaitAndDrain_advances (hop : s.pc.op = .waitAndDrain) (n : Nat) : Advances s (lineWaitAndDrain n s) := by
  have stay := Works.refl s
  unfold lineWaitAndDrain
  split
  · exact (stay.counters 1 s.k 0).next hop
  · exact (works_readStatus _ s).next hop
  · split
    · rcases burst_spec s.dataDesc loopBurstPos (fifoWords s.cfg.layout s.locals.status) s (.inl rfl) with
        ⟨t, hburst, hdrain, -⟩ | ⟨t, m, hburst, -, -, hover⟩
      · rw [hburst]
        exact (hdrain.trans (drainedOk_pause _ t)).works.next hop
      · rw [hburst]
        exact .stop hover hop
    · exact stay.next hop
  · exact (works_readStatus _ s).next hop
  · split
    · exact (stay.setTout rfl _).next hop
    · exact stay.next hop
  · split
    · exact (stay.setTout rfl _).next hop
    · exact stay.next hop
  · split
    · rcases finalDrain_spec s.dataDesc s with ⟨t, es, hfinal, hdrain, -⟩ | ⟨t, es, hfinal, hover, -⟩
      · rw [hfinal]
        exact (hdrain.works.setTout hdrain.keeps.locals _).next hop
      · rw [hfinal]
        exact .stop hover hop
    · exact stay.next hop
  · split
    · exact (stay.setTout rfl _).next hop
    · exact stay.next hop
  · exact (stay.counters (s.i + 1) s.k s.w).next hop
  · exact (works_write _ _ s).next hop
  · exact (works_write _ _ s).next hop
  · exact .return_ stay

theorem lineClearAllStatus_advances (hop : s.pc.op = .clearAllStatus) (n : Nat) :
    Advances s (lineClearAllStatus n s) := by
  unfold lineClearAllStatus
  split
  · exact (works_write _ _ s).next hop
  · exact (works_write _ _ s).next hop
  · exact (works_write _ _ s).next hop
  · exact .return_ (.refl s)

theorem lineControllerReset_advances (hop : s.pc.op = .controllerReset) (n : Nat) :
    Advances s (lineControllerReset n s) := by
  unfold lineControllerReset
  split
  · exact (works_controllerReset s).next hop
  · exact .return_ (.refl s)

theorem lineIssueStop_advances (hop : s.pc.op = .issueStop) (n : Nat) : Advances s (lineIssueStop n s) := by
  unfold lineIssueStop
  split
  · exact (works_write _ _ s).next hop
  · exact .return_ (.refl s)

theorem returnLast_advances {o : TransactionOutcome} (hop : s.pc.op = .execute)
    (ho : s.Inv → lastOk (some o) = true) : Advances s (returnLast o s) :=
  .return_ (works_last hop ho)

theorem lineExecute_advances (hop : s.pc.op = .execute) (n : Nat) (resumed : Bool) :
    Advances s (lineExecute n resumed s) := by
  have stay := Works.refl s
  unfold lineExecute
  split
  · split
    · exact .refuse
    · split
      · exact .refuse
      · exact stay.next hop
  · exact .call rfl hop.symm
  · split
    · split
      · exact stay.next hop
      next hfailed => exact returnLast_advances hop fun _ => lastOk_setup hfailed
    · split
      · exact .call rfl hop.symm
      · exact stay.next hop
  · exact .call rfl hop.symm
  · split
    · exact stay.next hop
    · exact returnLast_advances hop fun hinv => lastOk_plain hinv.cout
  · exact .call rfl hop.symm
  · exact returnLast_advances hop fun hinv => lastOk_data hinv.cout


theorem line_advances (s : State) : Advances s (line s) := by
  unfold line
  split
  · exact .stay
  · split
    next => exact .stay
    next hop => exact lineInitEngine_advances hop _
    next hop => exact lineResetEngine_advances hop _
    next hop => exact lineSetClock_advances hop rfl
    next hop => exact lineExecute_advances hop _ _
    next hop => exact lineCalcDivider_advances hop _
    next hop => exact lineSendCommand_advances hop _
    next hop => exact lineArmTransfer_advances hop _
    next hop => exact lineWaitAndDrain_advances hop _
    next hop => exact lineClearAllStatus_advances hop _
    next hop => exact lineControllerReset_advances hop _
    next hop => exact lineIssueStop_advances hop _

/-! ### Every step -/

/-- Everything a step can answer, x being the state from which the next arrival, if there is one, has been taken. -/
inductive Stepped (s : State) : State → Prop where
  | line : Stepped s (line s)
  | call {rest : List Arrival} {i : Instr} {t : State} (ran : exec i { s with arrivals := rest } = .next t) :
    Stepped s t
  | start {rest : List Arrival} {i : Instr} : Stepped s (start i { s with arrivals := rest })
  | refuse {rest : List Arrival} {r : RefuseReason} : Stepped s (refuse r { s with arrivals := rest })
  | read {rest : List Arrival} {j : Nat} : Stepped s (readResponse j { s with arrivals := rest })

theorem step_next_cases (h : step s = .next t) : s.fault = none ∧ Stepped s t := by
  cases hf : s.fault with
  | some f => cases (step_fault hf).symm.trans h
  | none =>
    refine ⟨rfl, ?_⟩
    cases ha : s.arrivals with
    | nil =>
      obtain rfl := Host.Outcome.next.inj ((step_no_arrival hf ha).symm.trans h)
      exact .line
    | cons a rest =>
      rw [step_arrival hf ha] at h
      cases a with
      | request r =>
        rcases runRequest_next h with ⟨i, -, hran⟩ | ⟨e, rfl⟩
        · exact .call hran
        · exact .refuse
      | lineByLine r =>
        rcases beginRequest_next h with ⟨i, -, rfl⟩ | ⟨e, rfl⟩
        · exact .start
        · exact .refuse
      | readResponse j =>
        obtain rfl := Host.Outcome.next.inj h
        exact .read

theorem Frame.grows {i : Instr} (hframe : Frame i s t) (hran : Ran s t es) : Grows s t where
  trace := ⟨es, hran.trace⟩
  cfg := hframe.cfg
  started := hframe.started
  refusal := hframe.refusal
  draws := by rw [hran.draws]; exact Nat.le_add_right _ _

theorem exec_grows {i : Instr} (h : exec i s = .next t) : Grows s t := by
  obtain ⟨es, hdid⟩ := exec_did h
  exact (exec_frame h).grows hdid.ran

theorem grows_refuse (r : RefuseReason) (s : State) : Grows s (refuse r s) :=
  (Frame.refuse (i := .initEngine) r s).grows (ran_of_same rfl rfl rfl)

theorem start_grows (i : Instr) (hf : s.fault = none) : Grows s (start i s) := by
  rcases start_cases i s hf with ⟨r, h⟩ | ⟨r, v, -, h⟩ | ⟨op, L, -, -, -, -, h⟩ <;> rw [h]
  · exact grows_refuse r s
  · exact (works_write r v s).grows
  · exact { (Works.refl s).grows with }

theorem readResponse_grows (j : Nat) (s : State) : Grows s (readResponse j s) := by
  rcases readResponse_cases j s with ⟨ws, w, -, -, h⟩ | ⟨-, h⟩ <;> rw [h] <;> exact { (Works.refl s).grows with }

theorem step_grows (h : step s = .next t) : Grows s t := by
  obtain ⟨hf, hstep⟩ := step_next_cases h
  cases hstep with
  | line => exact (line_advances s).grows
  | call ran => exact { exec_grows ran with }
  | @start rest i => exact { start_grows (s := { s with arrivals := rest }) i hf with }
  | refuse => exact { grows_refuse _ _ with }
  | read => exact { readResponse_grows _ _ with }

/-- Settles O50: whole calls by what each instruction logs and keeps, and lines by what each can do. -/
theorem stepTakesNothingBack : Obligations.StepTakesNothingBack := by
  intro s t h
  obtain ⟨htrace, hcfg, hstarted, hrefusal, hdraws⟩ := step_grows h
  exact ⟨htrace, hcfg, hstarted, hrefusal, (step_next_cases h).1, hdraws⟩

theorem start_inv (i : Instr) (h : s.Inv) (hf : s.fault = none) : (start i s).Inv := by
  rcases start_cases i s hf with ⟨r, hstart⟩ | ⟨r, v, hs, hstart⟩ | ⟨op, L, hs, hop, hi, hcout, hstart⟩ <;> rw [hstart]
  · exact inv_refuse h r
  · exact { h with }
  · have hstack : s.stack = [] := stack_eq_nil_of_idle (hs.idle ▸ h.stack)
    have hrecorded : ({ s with inCall := op.isHostOp, pc := label op 1, locals := L } : State).Recorded :=
      { h.recorded with cout := by rw [hcout]; rfl }
    refine hrecorded.inv ⟨posOk_label (Nat.le_refl 1) (one_le_lastLabel hop), ?_, ?_, ?_⟩ ?_
    · rw [hstack]; rfl
    · rw [hstack]; rfl
    · rw [hstack]; exact hi
    · by_cases hclock : op = .setClock
      · subst hclock
        rfl
      · exact setClockOk_of_ne hclock

theorem readResponse_inv (j : Nat) (h : s.Inv) : (readResponse j s).Inv := by
  rcases readResponse_cases j s with ⟨ws, w, -, -, hread⟩ | ⟨-, hread⟩ <;> rw [hread] <;> exact { h with }

/-- Settles O47: whole calls by what their stages do to each record, and lines by what each can do. -/
theorem stepKeepsTheRecordsConsistent : Obligations.StepKeepsTheRecordsConsistent := by
  intro s t h hstep
  obtain ⟨hf, hcases⟩ := step_next_cases hstep
  cases hcases with
  | line => exact (line_advances s).inv h
  | @call rest _ _ ran => exact exec_inv (s := { s with arrivals := rest }) { h with } ran
  | @start rest _ => exact start_inv (s := { s with arrivals := rest }) _ { h with } hf
  | @refuse rest _ => exact inv_refuse (s := { s with arrivals := rest }) { h with } _
  | @read rest _ => exact readResponse_inv (s := { s with arrivals := rest }) _ { h with }

end Sys2Proof.Machine
end
